-- ==== Sys2Proof/Word.lean ====
section
/-!
DEFINITION. The word types of the machine and its address types.
Widths: `spec/00_scope.md` rule R5 (`ILEN` 64, `XLEN` 32), rule R6 (bit numbering),
`spec/10_state.md` rules R23, R28 (register and predicate indices).
-/

namespace Sys2Proof

/-- One general register, `XLEN` = 32 bits (rule R23). -/
abbrev Word := BitVec 32

/-- One instruction word, `ILEN` = 64 bits, bit 0 the least significant (rules R6, R70). -/
abbrev InstrWord := BitVec 64

/-- One byte of the code space or of `GMem` (rules R36, R38). -/
abbrev Byte := BitVec 8

/-- The container of an ATOM or RED operand or memory value: 64 bits, of which a 4-byte access uses the
low 32 (rules R25, R53). -/
abbrev Wide := BitVec 64

/-- A 6-bit register field; 63 names `RZ` (rules R23, R24). -/
abbrev RegIdx := BitVec 6

/-- A 3-bit predicate field; 7 names `pt` (rule R28). -/
abbrev PredIdx := BitVec 3

/-- A code address as a mathematical integer: the sum of rule R101 does not wrap, and a result outside
`0 .. 2^PCW - 1` stays visible until its fetch faults (rules R27, R101; log 5). -/
abbrev CodeAddr := Int

/-- The register index that names `RZ` (rule R5, `RZ_INDEX`). -/
def rz : RegIdx := 63#6

/-- The predicate index that names `pt` (rule R5, `PT_INDEX`). -/
def pt : PredIdx := 7#3

end Sys2Proof
end

