-- ==== Sys2Proof/Syntax.lean ====
section
/-!
DEFINITION. The instructions: one constructor of `Instr` per row of `spec/opcode_table.json`, its fields
named as `spec/30_encoding.md` rules R76 to R84 name them. A field value that has no row, or that the
source calls invalid, is a constructor of its own: rule R92 decodes such a word and then stops it.
-/

namespace Sys2Proof

/-- The 32 condition tests of `.CCop`, in the order of their values 0 to 31 (rule R88). -/
inductive CCop where
  | f | lt | eq | le | gt | ne | ge | num
  | nan | ltu | equ | leu | gtu | neu | geu | t
  | off | lo | sff | ls | hi | sft | hs | oft
  | csmTa | csmTr | csmMx | fcsmTa | fcsmTr | fcsmMx | rle | rgt
  deriving DecidableEq, Repr

/-- The operand of SSY, BRA, CAL, PRET, PBK and PCNT, selected by `c` = `w[14]` (rules R76, R77):
the immediate offset, or a constant-memory operand whose layout the source does not give. -/
inductive FlowTarget where
  | rel (imm24 : BitVec 24)
  | const (field : BitVec 24)
  deriving DecidableEq, Repr

/-- NOP's `.Op` field `w[54:51]` (rule R79); `noRow` holds a value 9 to 15, which has no row. -/
inductive NopOp where
  | none | fma64 | fma32 | xlu | alu | agu | su | fu | fmul
  | noRow (code : BitVec 4)
  deriving DecidableEq, Repr

/-- BAR's `redop` field `w[6:5]` (rule R80); `invalid` is the value 3. -/
inductive RedOp where
  | popc | and | or | invalid
  deriving DecidableEq, Repr

/-- BAR's barrier operand, selected by `w[47]` (rule R80). -/
inductive BarSrc where
  | reg (r : RegIdx)
  | imm (v : BitVec 6)
  deriving DecidableEq, Repr

/-- BAR's thread count operand, selected by `w[46]` (rule R80): register form with the six bits
`w[37:32]` above the index, or the 12-bit immediate. -/
inductive CountSrc where
  | reg (r : RegIdx) (upper : BitVec 6)
  | imm (v : BitVec 12)
  deriving DecidableEq, Repr

/-- A 4-bit predicate source `(!)c` or `(!)p1`: index and negation (rule R29). -/
structure PredSrc where
  neg : Bool
  idx : PredIdx
  deriving DecidableEq, Repr

/-- MEMBAR's `.Lvl` field `w[6:5]` (rule R81); `invalid` is the value 3. -/
inductive Lvl where
  | cta | gl | sys | invalid
  deriving DecidableEq, Repr

/-- ATOM's and RED's `.Op` field `w[8:5]` (rule R82); `invalid` holds a value 10 to 15. -/
inductive AtomOp where
  | add | min | max | inc | dec | and | or | xor | exch | cas
  | invalid (code : BitVec 4)
  deriving DecidableEq, Repr

/-- ATOM's and RED's `.Type`, the number `mod3` (rules R82, R146): 4 default (unsigned 32-bit),
5 `.U64`, 7 `.S32`, 11 `.F32.FTZ.RN`; `invalid` holds any other value. -/
inductive AtomType where
  | u32 | u64 | s32 | f32
  | invalid (code : BitVec 4)
  deriving DecidableEq, Repr

/-- VOTE's `mode` field `w[7:5]` (rule R84); `noRow` holds the value 3 or 4. -/
inductive VoteMode where
  | all | any | eq | vtgR | vtgA | vtgRA
  | noRow (code : BitVec 3)
  deriving DecidableEq, Repr

/-- The instructions of `spec/opcode_table.json`, one constructor per row. -/
inductive Instr where
  | ssy (target : FlowTarget)
  | bra (ccop : CCop) (u lmt : Bool) (target : FlowTarget)
  | cal (noinc : Bool) (target : FlowTarget)
  | pret (noinc : Bool) (target : FlowTarget)
  | ret (ccop : CCop)
  | exit (ccop : CCop)
  | nop (ccop : CCop) (s trig : Bool) (op : NopOp) (imm16 : BitVec 16)
  | pbk (target : FlowTarget)
  | brk (ccop : CCop)
  | pcnt (target : FlowTarget)
  | cont (ccop : CCop)
  | barRed (redop : RedOp) (reg0 : RegIdx) (bar : BarSrc) (tcount : CountSrc) (c : PredSrc) (p : PredIdx)
  | barArv (redop : RedOp) (reg0 : RegIdx) (bar : BarSrc) (tcount : CountSrc) (c : PredSrc) (p : PredIdx)
  | membar (lvl : Lvl)
  | atom (op : AtomOp) (ty : AtomType) (e : Bool) (reg3 reg1 : RegIdx) (imm20 : BitVec 20) (reg0 reg4 : RegIdx)
  | red (op : AtomOp) (ty : AtomType) (e : Bool) (reg1 : RegIdx) (imm32 : BitVec 32) (reg0 : RegIdx)
  | vote (mode : VoteMode) (reg0 : RegIdx) (p1 : PredSrc) (imm28 : BitVec 28) (p0 : PredIdx)
  deriving DecidableEq, Repr

end Sys2Proof
end

