-- ==== Sys2Proof/Config.lean ====
section
/-!
DEFINITION. What is fixed for the machine (`spec/00_scope.md` rule R5) and its free values. The
parameters a launch supplies (`PCW`, `AWIDTH`, `WARP_SIZE`, `CSDepth`, `AtomOffsetSigned`, `MemModel`, the allocated
ranges) are plain data and stand in `Params` (Machine/State.lean; log 2).
-/

namespace Sys2Proof

/-- The opaque value of `CC` (rule R30): no field of it is known, so a token tells values apart (log 7). -/
structure CCState where
  token : Nat
  deriving DecidableEq, Repr, Inhabited

/-- `IBYTES`: the code addresses one instruction occupies (rule R5). -/
def Config.ibytes : CodeAddr := 8

/-- The one switch of rule R74(b): the two-character strings of BAR's and MEMBAR's tables are in drawing
order (true), so that `10` is the value 1; read the other way, `.GL`/`.SYS` and AND/OR swap (log 20). -/
def Config.stringsInDrawingOrder : Bool := true

/-- A choice of what the machine does next (rules R20, R184; log 1): thread `i` steps; thread `i` steps, its access
standing before the last `k` events of the order and reading `v` (rule R58; log 14); barrier `b` is released (rule
R143). A vote is the step of a thread at a VOTE. -/
inductive Choice where
  | thread (i : Nat)
  | placed (i k : Nat) (v : Wide)
  | release (b : Fin 16)
  deriving DecidableEq, Repr, Inhabited

/-- FREE VALUE. The choices of the machine from its `n`-th step on, up to a step after which the total order of rule
R58 (a) is complete: rule R20 fixes no order between threads, rule R203 promises no fairness, and rule R58 leaves
open where an access stands (logs 1, 14). -/
opaque Config.pick : Nat → List Choice

/-- FREE VALUE. `CCTest` of rule R31 at every condition but `.T` and `.F`: OPEN in the spec (log 7). -/
opaque Config.ccTest : CCop → CCState → Bool

/-- FREE VALUE. What `fadd_ftz_rn` gives where rule R147 leaves it open, by the two operands (log 9). -/
opaque Config.faddOpen : BitVec 32 → BitVec 32 → BitVec 32

end Sys2Proof
end

