-- ==== Sys2Proof/WellFormed.lean ====
section
/-!
DEFINITION. Well-formed instructions: a constructor that holds a value without a row holds only such a
value (`spec/30_encoding.md` rules R79, R82, R84, R92), so that every word has one spelling.
-/

namespace Sys2Proof

/-- `.Op` values 9 to 15 have no row (rule R92). -/
def NopOp.wellFormed : NopOp → Bool
  | .noRow code => 9#4 ≤ code
  | _ => true

/-- `.Op` values "10 and above invalid" (rule R82). -/
def AtomOp.wellFormed : AtomOp → Bool
  | .invalid code => 10#4 ≤ code
  | _ => true

/-- `mod3` values other than 4, 5, 7, 11 are invalid (rule R82). -/
def AtomType.wellFormed : AtomType → Bool
  | .invalid code => code != 4#4 && code != 5#4 && code != 7#4 && code != 11#4
  | _ => true

/-- Modes 3 and 4 have no row (rule R84). -/
def VoteMode.wellFormed : VoteMode → Bool
  | .noRow code => code == 3#3 || code == 4#3
  | _ => true

/-- An instruction that some word encodes (rules R76 to R84). -/
def Instr.wellFormed : Instr → Bool
  | .ssy _ => true
  | .bra _ _ _ _ => true
  | .cal _ _ => true
  | .pret _ _ => true
  | .ret _ => true
  | .exit _ => true
  | .nop _ _ _ op _ => op.wellFormed
  | .pbk _ => true
  | .brk _ => true
  | .pcnt _ => true
  | .cont _ => true
  | .barRed _ _ _ _ _ _ => true
  | .barArv _ _ _ _ _ _ => true
  | .membar _ => true
  | .atom op ty _ _ _ _ _ _ => op.wellFormed && ty.wellFormed
  | .red op ty _ _ _ _ => op.wellFormed && ty.wellFormed
  | .vote mode _ _ _ _ => mode.wellFormed

end Sys2Proof
end

