-- ==== Sys2Proof/Decode.lean ====
section
/-!
DEFINITION. The encoding: fields, the opcode map, the decoder, the encoder.
`spec/30_encoding.md` rules R70 to R92; little-endian bytes, `spec/20_memory.md` rule R51.
-/

namespace Sys2Proof

/-! ## Fields of a word -/

/-- `w[lo+len-1 : lo]` (rule R6). -/
def field (w : InstrWord) (lo len : Nat) : BitVec len := w.extractLsb' lo len

/-- `w[i] = 1`. -/
def flag (w : InstrWord) (i : Nat) : Bool := field w i 1 == 1#1

/-- One bit of an encoded word. -/
def bit (b : Bool) : BitVec 1 := if b then 1#1 else 0#1

/-! ## Modifier values -/

/-- The value of a condition test (rule R88). -/
def CCop.code : CCop → BitVec 5
  | .f => 0#5 | .lt => 1#5 | .eq => 2#5 | .le => 3#5 | .gt => 4#5 | .ne => 5#5 | .ge => 6#5 | .num => 7#5
  | .nan => 8#5 | .ltu => 9#5 | .equ => 10#5 | .leu => 11#5 | .gtu => 12#5 | .neu => 13#5 | .geu => 14#5 | .t => 15#5
  | .off => 16#5 | .lo => 17#5 | .sff => 18#5 | .ls => 19#5 | .hi => 20#5 | .sft => 21#5 | .hs => 22#5 | .oft => 23#5
  | .csmTa => 24#5 | .csmTr => 25#5 | .csmMx => 26#5 | .fcsmTa => 27#5 | .fcsmTr => 28#5 | .fcsmMx => 29#5
  | .rle => 30#5 | .rgt => 31#5

/-- The condition test of a value (rule R88). -/
def CCop.ofCode (v : BitVec 5) : CCop :=
  match v.toNat with
  | 0 => .f | 1 => .lt | 2 => .eq | 3 => .le | 4 => .gt | 5 => .ne | 6 => .ge | 7 => .num
  | 8 => .nan | 9 => .ltu | 10 => .equ | 11 => .leu | 12 => .gtu | 13 => .neu | 14 => .geu | 15 => .t
  | 16 => .off | 17 => .lo | 18 => .sff | 19 => .ls | 20 => .hi | 21 => .sft | 22 => .hs | 23 => .oft
  | 24 => .csmTa | 25 => .csmTr | 26 => .csmMx | 27 => .fcsmTa | 28 => .fcsmTr | 29 => .fcsmMx
  | 30 => .rle | _ => .rgt

/-- NOP's `.Op` (rule R79). -/
def NopOp.code : NopOp → BitVec 4
  | .none => 0#4 | .fma64 => 1#4 | .fma32 => 2#4 | .xlu => 3#4 | .alu => 4#4
  | .agu => 5#4 | .su => 6#4 | .fu => 7#4 | .fmul => 8#4
  | .noRow code => code

/-- NOP's `.Op` (rule R79); 9 to 15 have no row. -/
def NopOp.ofCode (v : BitVec 4) : NopOp :=
  match v.toNat with
  | 0 => .none | 1 => .fma64 | 2 => .fma32 | 3 => .xlu | 4 => .alu
  | 5 => .agu | 6 => .su | 7 => .fu | 8 => .fmul
  | _ => .noRow v

/-- The value of a table string of two characters: drawing order puts the first character in the lower
bit (rule R74(b)). -/
def stringCode (first second : Bool) : BitVec 2 :=
  if Config.stringsInDrawingOrder then bit second ++ bit first else bit first ++ bit second

/-- BAR's `redop`: strings `00` `.POPC`, `10` AND, `01` OR, `11` invalid (rule R80). -/
def RedOp.code : RedOp → BitVec 2
  | .popc => stringCode false false
  | .and => stringCode true false
  | .or => stringCode false true
  | .invalid => stringCode true true

/-- BAR's `redop` (rule R80). -/
def RedOp.ofCode (v : BitVec 2) : RedOp :=
  if v = RedOp.popc.code then .popc
  else if v = RedOp.and.code then .and
  else if v = RedOp.or.code then .or
  else .invalid

/-- MEMBAR's level: strings `00` `.CTA`, `10` `.GL`, `01` `.SYS`, `11` invalid (rule R81). -/
def Lvl.code : Lvl → BitVec 2
  | .cta => stringCode false false
  | .gl => stringCode true false
  | .sys => stringCode false true
  | .invalid => stringCode true true

/-- MEMBAR's level (rule R81). -/
def Lvl.ofCode (v : BitVec 2) : Lvl :=
  if v = Lvl.cta.code then .cta
  else if v = Lvl.gl.code then .gl
  else if v = Lvl.sys.code then .sys
  else .invalid

/-- `.Op` of ATOM and RED (rule R82). -/
def AtomOp.code : AtomOp → BitVec 4
  | .add => 0#4 | .min => 1#4 | .max => 2#4 | .inc => 3#4 | .dec => 4#4
  | .and => 5#4 | .or => 6#4 | .xor => 7#4 | .exch => 8#4 | .cas => 9#4
  | .invalid code => code

/-- `.Op` of ATOM and RED (rule R82); 10 and above are invalid. -/
def AtomOp.ofCode (v : BitVec 4) : AtomOp :=
  match v.toNat with
  | 0 => .add | 1 => .min | 2 => .max | 3 => .inc | 4 => .dec
  | 5 => .and | 6 => .or | 7 => .xor | 8 => .exch | 9 => .cas
  | _ => .invalid v

/-- `mod3` of ATOM and RED (rule R82). -/
def AtomType.code : AtomType → BitVec 4
  | .u32 => 4#4 | .u64 => 5#4 | .s32 => 7#4 | .f32 => 11#4
  | .invalid code => code

/-- `mod3` of ATOM and RED (rule R82). -/
def AtomType.ofCode (v : BitVec 4) : AtomType :=
  match v.toNat with
  | 4 => .u32 | 5 => .u64 | 7 => .s32 | 11 => .f32
  | _ => .invalid v

/-- VOTE's mode (rule R84). -/
def VoteMode.code : VoteMode → BitVec 3
  | .all => 0#3 | .any => 1#3 | .eq => 2#3 | .vtgR => 5#3 | .vtgA => 6#3 | .vtgRA => 7#3
  | .noRow code => code

/-- VOTE's mode (rule R84); 3 and 4 have no row. -/
def VoteMode.ofCode (v : BitVec 3) : VoteMode :=
  match v.toNat with
  | 0 => .all | 1 => .any | 2 => .eq | 5 => .vtgR | 6 => .vtgA | 7 => .vtgRA
  | _ => .noRow v

/-- A 4-bit predicate source: `f[2:0]` the index, `f[3]` the negation (rule R29). -/
def PredSrc.ofCode (v : BitVec 4) : PredSrc := ⟨v.extractLsb' 3 1 == 1#1, v.extractLsb' 0 3⟩

/-- A 4-bit predicate source (rule R29). -/
def PredSrc.code (c : PredSrc) : BitVec 4 := bit c.neg ++ c.idx

/-! ## Identification (rules R75, R89) -/

/-- The identifying rows of rule R75, with BAR as one row. -/
inductive Row where
  | ssy | bra | cal | pret | ret | exit | nop | pbk | brk | pcnt | cont | bar | membar | atom | red | vote
  deriving DecidableEq, Repr

/-- Steps (1) and (2) of rule R89: ATOM and RED by `w[3:0]` and `w[63:62]`, then the pair
(`w[3:0]`, `w[63:58]`) of rule R75. -/
def identify (w : InstrWord) : Option Row :=
  if field w 0 4 = 5#4 ∧ field w 62 2 = 1#2 then some .atom
  else if field w 0 4 = 5#4 ∧ field w 62 2 = 0#2 then some .red
  else if field w 0 4 = 7#4 then
    match (field w 58 6).toNat with
    | 0x18 => some .ssy
    | 0x10 => some .bra
    | 0x14 => some .cal
    | 0x1E => some .pret
    | 0x24 => some .ret
    | 0x20 => some .exit
    | 0x1A => some .pbk
    | 0x2A => some .brk
    | 0x1C => some .pcnt
    | 0x2C => some .cont
    | _ => none
  else if field w 0 4 = 4#4 then
    match (field w 58 6).toNat with
    | 0x10 => some .nop
    | 0x14 => some .bar
    | 0x12 => some .vote
    | _ => none
  else if field w 0 4 = 5#4 ∧ field w 58 6 = 0x38#6 then some .membar
  else none

/-! ## Fixed bits (rules R76 to R84, R91) -/

/-- Every bit a template draws and no label covers stands as drawn. -/
def asDrawn (w : InstrWord) : Row → Bool
  | .ssy =>
    field w 4 6 == 0#6 && field w 10 4 == 0#4 && field w 15 5 == 0#5 && field w 20 6 == 0#6 && field w 50 8 == 0#8
  | .bra =>
    field w 4 1 == 0#1 && field w 10 4 == 7#4 && field w 17 3 == 0#3 && field w 20 6 == 0#6 && field w 50 8 == 0#8
  | .cal =>
    field w 4 6 == 0#6 && field w 10 4 == 0#4 && field w 15 1 == 0#1 && field w 17 3 == 0#3
      && field w 20 6 == 0#6 && field w 50 8 == 0#8
  | .pret =>
    field w 4 6 == 0#6 && field w 10 4 == 0#4 && field w 16 4 == 0#4 && field w 20 6 == 0#6 && field w 50 8 == 0#8
  | .ret | .exit | .brk | .cont => field w 4 1 == 0#1 && field w 10 4 == 7#4 && field w 14 44 == 0#44
  | .nop => field w 10 4 == 7#4 && field w 14 12 == 0#12 && field w 42 8 == 0#8 && field w 55 3 == 0#3
  | .pbk | .pcnt =>
    field w 4 6 == 0#6 && field w 10 4 == 7#4 && field w 15 5 == 0#5 && field w 20 6 == 0#6 && field w 50 8 == 0#8
  | .bar =>
    field w 4 1 == 0#1 && field w 8 2 == 0#2 && field w 10 4 == 7#4 && field w 38 8 == 0#8
      && field w 48 1 == 0#1 && field w 56 2 == 0#2
  | .membar => field w 4 1 == 0#1 && field w 7 3 == 0#3 && field w 10 4 == 7#4 && field w 14 44 == 0#44
  | .atom => field w 4 1 == 0#1 && field w 10 4 == 7#4
  | .red => field w 4 1 == 0#1 && field w 10 4 == 7#4
  | .vote =>
    field w 4 1 == 0#1 && field w 8 2 == 0#2 && field w 10 4 == 7#4 && field w 24 2 == 0#2
      && field w 57 1 == 0#1

/-! ## Operands -/

/-- `c` = `w[14]` and `imm24` = `w[49:26]` (rules R76, R77, R85). -/
def flowTarget (w : InstrWord) : FlowTarget :=
  if flag w 14 then .const (field w 26 24) else .rel (field w 26 24)

/-- `ccop` = `w[9:5]` (rule R88). -/
def ccopField (w : InstrWord) : CCop := CCop.ofCode (field w 5 5)

/-- The barrier operand `w[25:20]`, form `w[47]` (rule R80). -/
def barSrc (w : InstrWord) : BarSrc := if flag w 47 then .imm (field w 20 6) else .reg (field w 20 6)

/-- The thread count `w[37:26]`, form `w[46]` (rule R80). -/
def countSrc (w : InstrWord) : CountSrc :=
  if flag w 46 then .imm (field w 26 12) else .reg (field w 26 6) (field w 32 6)

/-- `mod3 = w[61] ++ w[60] ++ w[59] ++ w[9]` (rule R82). -/
def mod3 (w : InstrWord) : BitVec 4 := field w 59 3 ++ field w 9 1

/-- Step (4) of rule R89: the fields of an identified word (rules R76 to R87); `w[7]` tells BAR.RED from
BAR.ARV. -/
def operands (w : InstrWord) : Row → Instr
  | .ssy => .ssy (flowTarget w)
  | .bra => .bra (ccopField w) (flag w 15) (flag w 16) (flowTarget w)
  | .cal => .cal (!flag w 16) (flowTarget w)
  | .pret => .pret (!flag w 15) (flowTarget w)
  | .ret => .ret (ccopField w)
  | .exit => .exit (ccopField w)
  | .nop => .nop (ccopField w) (flag w 4) (flag w 50) (NopOp.ofCode (field w 51 4)) (field w 26 16)
  | .pbk => .pbk (flowTarget w)
  | .brk => .brk (ccopField w)
  | .pcnt => .pcnt (flowTarget w)
  | .cont => .cont (ccopField w)
  | .bar =>
    if flag w 7 then
      .barArv (RedOp.ofCode (field w 5 2)) (field w 14 6) (barSrc w) (countSrc w)
        (PredSrc.ofCode (field w 49 4)) (field w 53 3)
    else
      .barRed (RedOp.ofCode (field w 5 2)) (field w 14 6) (barSrc w) (countSrc w)
        (PredSrc.ofCode (field w 49 4)) (field w 53 3)
  | .membar => .membar (Lvl.ofCode (field w 5 2))
  | .atom =>
    .atom (AtomOp.ofCode (field w 5 4)) (AtomType.ofCode (mod3 w)) (flag w 58) (field w 43 6) (field w 20 6)
      (field w 55 3 ++ field w 26 17) (field w 14 6) (field w 49 6)
  | .red =>
    .red (AtomOp.ofCode (field w 5 4)) (AtomType.ofCode (mod3 w)) (flag w 58) (field w 20 6) (field w 26 32)
      (field w 14 6)
  | .vote =>
    .vote (VoteMode.ofCode (field w 5 3)) (field w 14 6) (PredSrc.ofCode (field w 20 4)) (field w 26 28)
      (field w 54 3)

/-! ## The decoder -/

/-- Why a word has no instruction: it matches no row (rule R90), or a fixed bit is not as drawn
(rule R91). -/
inductive DecodeError where
  | unknownOpcode
  | notShown
  deriving DecidableEq, Repr

/-- The decoder of rule R89, total on words: rows, then fixed bits, then fields. The stops of rules R92 and
R93 belong to the instructions' meanings. -/
def decode (w : InstrWord) : Except DecodeError Instr :=
  match identify w with
  | none => .error .unknownOpcode
  | some row => if asDrawn w row then .ok (operands w row) else .error .notShown

/-! ## Bytes (rule R51) -/

/-- The word of bytes given lowest address first: the first holds `w[7:0]`. -/
def wordOfBytes : List Byte → InstrWord
  | [] => 0#64
  | b :: bs => b.setWidth 64 ||| (wordOfBytes bs <<< 8)

/-- The lowest `n` bytes of a word, lowest address first. -/
def bytesOfWord : Nat → InstrWord → List Byte
  | 0, _ => []
  | n + 1, w => w.setWidth 8 :: bytesOfWord n (w >>> 8)

/-- The decoder on the bytes of the code space: an instruction and the bytes after it; fewer than eight
bytes hold no instruction (rules R70, R95). -/
def decodeBytes (bs : List Byte) : Option (Except DecodeError (Instr × List Byte)) :=
  if bs.length < 8 then none
  else
    match decode (wordOfBytes (bs.take 8)) with
    | .ok i => some (.ok (i, bs.drop 8))
    | .error e => some (.error e)

/-- The instruction the decoder reads from a word numbered as the opcode table numbers it; bits above
`nbits` are zero. -/
def decodeTableWord (nbits w : Nat) : Option Instr :=
  match decodeBytes (bytesOfWord 8 (BitVec.ofNat 64 (w % 2 ^ nbits))) with
  | some (.ok (i, _)) => some i
  | _ => none

/-! ## The encoder -/

/-- `c` = `w[14]` of a target. -/
def FlowTarget.isConst : FlowTarget → Bool
  | .rel _ => false
  | .const _ => true

/-- `w[49:26]` of a target. -/
def FlowTarget.bits : FlowTarget → BitVec 24
  | .rel v => v
  | .const v => v

/-- `w[47]` of a barrier operand. -/
def BarSrc.isImm : BarSrc → Bool
  | .reg _ => false
  | .imm _ => true

/-- `w[25:20]` of a barrier operand. -/
def BarSrc.bits : BarSrc → BitVec 6
  | .reg r => r
  | .imm v => v

/-- `w[46]` of a thread count. -/
def CountSrc.isImm : CountSrc → Bool
  | .reg _ _ => false
  | .imm _ => true

/-- `w[37:26]` of a thread count. -/
def CountSrc.bits : CountSrc → BitVec 12
  | .reg r upper => upper ++ r
  | .imm v => v

/-- The word of 64 bits written as a row of fields, the highest first. -/
def wordOf {n : Nat} (bits : BitVec n) : InstrWord := bits.setWidth 64

/-- Format NOARG, from `w[63:58]` down (rule R78). -/
def encodeNoArg (id : BitVec 6) (ccop : CCop) : InstrWord :=
  wordOf (id ++ 0#44 ++ 7#4 ++ ccop.code ++ 0#1 ++ 7#4)

/-- Format FLOW24, from `w[63:58]` down: the bits `w[19:15]`, `w[13:10]` and `w[9:5]` differ between its
rows (rule R76). -/
def encodeFlow (id : BitVec 6) (target : FlowTarget) (mods : BitVec 5) (third : BitVec 4) (cc : BitVec 5) :
    InstrWord :=
  wordOf (id ++ 0#8 ++ target.bits ++ 0#6 ++ mods ++ bit target.isConst ++ third ++ cc ++ 0#1 ++ 7#4)

/-- Format BAR, from `w[63:58]` down (rule R80). -/
def encodeBar (arv : Bool) (redop : RedOp) (reg0 : RegIdx) (bar : BarSrc) (tcount : CountSrc) (c : PredSrc)
    (p : PredIdx) : InstrWord :=
  wordOf (0x14#6 ++ 0#2 ++ p ++ c.code ++ 0#1 ++ bit bar.isImm ++ bit tcount.isImm ++ 0#8 ++ tcount.bits
    ++ bar.bits ++ reg0 ++ 7#4 ++ 0#2 ++ bit arv ++ redop.code ++ 0#1 ++ 4#4)

/-- `w[61:59]` of a type: bits 3 to 1 of `mod3` (rule R82). -/
def AtomType.t321 (ty : AtomType) : BitVec 3 := ty.code.extractLsb' 1 3

/-- `w[9]` of a type: bit 0 of `mod3` (rule R82). -/
def AtomType.t0 (ty : AtomType) : BitVec 1 := ty.code.extractLsb' 0 1

/-- The word of an instruction, from `w[63]` down (rules R76 to R84). -/
def encode : Instr → InstrWord
  | .ssy target => encodeFlow 0x18#6 target 0#5 0#4 0#5
  | .bra ccop u lmt target => encodeFlow 0x10#6 target (0#3 ++ bit lmt ++ bit u) 7#4 ccop.code
  | .cal noinc target => encodeFlow 0x14#6 target (0#3 ++ bit (!noinc) ++ 0#1) 0#4 0#5
  | .pret noinc target => encodeFlow 0x1E#6 target (0#4 ++ bit (!noinc)) 0#4 0#5
  | .ret ccop => encodeNoArg 0x24#6 ccop
  | .exit ccop => encodeNoArg 0x20#6 ccop
  | .nop ccop s trig op imm16 =>
    wordOf (0x10#6 ++ 0#3 ++ op.code ++ bit trig ++ 0#8 ++ imm16 ++ 0#12 ++ 7#4 ++ ccop.code ++ bit s ++ 4#4)
  | .pbk target => encodeFlow 0x1A#6 target 0#5 7#4 0#5
  | .brk ccop => encodeNoArg 0x2A#6 ccop
  | .pcnt target => encodeFlow 0x1C#6 target 0#5 7#4 0#5
  | .cont ccop => encodeNoArg 0x2C#6 ccop
  | .barRed redop reg0 bar tcount c p => encodeBar false redop reg0 bar tcount c p
  | .barArv redop reg0 bar tcount c p => encodeBar true redop reg0 bar tcount c p
  | .membar lvl => wordOf (0x38#6 ++ 0#44 ++ 7#4 ++ 0#3 ++ lvl.code ++ 0#1 ++ 5#4)
  | .atom op ty e reg3 reg1 imm20 reg0 reg4 =>
    wordOf (1#2 ++ ty.t321 ++ bit e ++ imm20.extractLsb' 17 3 ++ reg4 ++ reg3 ++ imm20.extractLsb' 0 17 ++ reg1
      ++ reg0 ++ 7#4 ++ ty.t0 ++ op.code ++ 0#1 ++ 5#4)
  | .red op ty e reg1 imm32 reg0 =>
    wordOf (0#2 ++ ty.t321 ++ bit e ++ imm32 ++ reg1 ++ reg0 ++ 7#4 ++ ty.t0 ++ op.code ++ 0#1 ++ 5#4)
  | .vote mode reg0 p1 imm28 p0 =>
    wordOf (0x12#6 ++ 0#1 ++ p0 ++ imm28 ++ 0#2 ++ p1.code ++ reg0 ++ 7#4 ++ 0#2 ++ mode.code ++ 0#1 ++ 4#4)

/-- The row an instruction belongs to. -/
def Instr.row : Instr → Row
  | .ssy _ => .ssy
  | .bra _ _ _ _ => .bra
  | .cal _ _ => .cal
  | .pret _ _ => .pret
  | .ret _ => .ret
  | .exit _ => .exit
  | .nop _ _ _ _ _ => .nop
  | .pbk _ => .pbk
  | .brk _ => .brk
  | .pcnt _ => .pcnt
  | .cont _ => .cont
  | .barRed _ _ _ _ _ _ => .bar
  | .barArv _ _ _ _ _ _ => .bar
  | .membar _ => .membar
  | .atom _ _ _ _ _ _ _ _ => .atom
  | .red _ _ _ _ _ _ => .red
  | .vote _ _ _ _ _ => .vote

/-- The mnemonic of an instruction in `spec/opcode_table.json`. -/
def Instr.mnemonic : Instr → String
  | .ssy _ => "SSY"
  | .bra _ _ _ _ => "BRA"
  | .cal _ _ => "CAL"
  | .pret _ _ => "PRET"
  | .ret _ => "RET"
  | .exit _ => "EXIT"
  | .nop _ _ _ _ _ => "NOP"
  | .pbk _ => "PBK"
  | .brk _ => "BRK"
  | .pcnt _ => "PCNT"
  | .cont _ => "CONT"
  | .barRed _ _ _ _ _ _ => "BAR.RED"
  | .barArv _ _ _ _ _ _ => "BAR.ARV"
  | .membar _ => "MEMBAR"
  | .atom _ _ _ _ _ _ _ _ => "ATOM"
  | .red _ _ _ _ _ _ => "RED"
  | .vote _ _ _ _ _ => "VOTE"

/-! ## Spellings the source maps to native forms -/

/-- `bar.sync`: `BAR.RED.POPC RZ, bar (,tcount)` (rule R97). -/
def barSync (bar : BarSrc) (tcount : CountSrc) : Instr := .barRed .popc rz bar tcount ⟨false, pt⟩ pt

/-- `bar.red.popc.u32`: `BAR.RED.POPC reg0, bar (,tcount), (!)c` (rule R97). -/
def barRedPopc (reg0 : RegIdx) (bar : BarSrc) (tcount : CountSrc) (c : PredSrc) : Instr :=
  .barRed .popc reg0 bar tcount c pt

/-- `bar.red.op.pred`: `BAR.RED.Op RZ, p, bar (,tcount), (!)c` (rule R97). -/
def barRedPred (redop : RedOp) (p : PredIdx) (bar : BarSrc) (tcount : CountSrc) (c : PredSrc) : Instr :=
  .barRed redop rz bar tcount c p

/-- `bar.arrive`: `BAR.ARV bar, tcount` (rule R97), its `reg0` field as drawn (rule R153). -/
def barArrive (bar : BarSrc) (tcount : CountSrc) : Instr := .barArv .popc 0#6 bar tcount ⟨false, pt⟩ pt

/-- The thread count an omitted `tcount` encodes: register 63, as drawn (rules R24, R80). -/
def countUnspecified : CountSrc := .reg rz 0#6

/-- `vote.all`, `vote.any`, `vote.uni`: `VOTE.Mode RZ, p0, (!)p1` (rule R97). -/
def votePred (mode : VoteMode) (p0 : PredIdx) (p1 : PredSrc) : Instr := .vote mode rz p1 0#28 p0

/-- `vote.ballot`: `VOTE.ANY reg0, pt, (!)p1` (rule R97). -/
def voteBallot (reg0 : RegIdx) (p1 : PredSrc) : Instr := .vote .any reg0 p1 0#28 pt

/-- The target cuobjdump prints for a CAL at `pc`: the absolute address (rule R98). -/
def calPrinted (pc : CodeAddr) (imm24 : BitVec 24) : CodeAddr := pc + Config.ibytes + imm24.toInt

end Sys2Proof
end

