-- ==== Sys2Proof/Machine/State.lean ====
section
/-!
DEFINITION. The state of the machine, the reasons a step can stop, the launch and `State.reset`.
`spec/10_state.md` rules R20 to R41, `spec/20_memory.md` rules R50, R54, R56, `spec/60_exceptions.md`
rules R181, R182, `spec/70_reset_and_hazards.md` rule R200. Plain data throughout.
-/

namespace Sys2Proof.Machine

open Sys2Proof

/-! ## Names that the reasons mention -/

/-- The kinds of control stack entries (rule R33). -/
inductive Kind where
  | sync | brk | cnt | ret
  deriving DecidableEq, Repr

/-- What can be "unwritten": `R[0..62]`, `P[0..6]`, `CC` (rules R40, R181). -/
inductive Source where
  | reg (i : Fin 63)
  | pred (i : Fin 7)
  | cc
  deriving DecidableEq, Repr

/-! ## Reasons -/

/-- The faults of rule R181, with the value the table records beside `pc` and the word, and the three ends
of a run (rule R204). `exec` answers with a fault of rule R181; `step` records it and goes on with the
other threads. -/
inductive Fault where
  /-- Fetch: `pc` not a multiple of 8, outside `0 .. 2^PCW - 8`, or outside the program. Safe. -/
  | badFetch
  /-- BAR, MEMBAR, ATOM, RED: a field value the source calls "invalid" or "not applicable", or a barrier
  immediate above 15. Safe: the source does not say what the chip does. -/
  | illegalEncoding
  /-- A read of a register, predicate or `CC` that has no value. Safe; never raised from `State.reset`,
  whose launch premise names all of them (log 3). -/
  | unwrittenRegister (which : Source)
  /-- SSY, CAL, PRET, PBK, PCNT: the stack is `CSDepth` deep already. Safe. -/
  | controlStackOverflow
  /-- RET, BRK, CONT, NOP.S: no entry of the wanted kind. Safe. -/
  | controlStackUnderflow
  /-- NOP.S: the top entry is not `SYNC`. Safe. -/
  | controlStackMismatch (found : Kind)
  /-- ATOM, RED: the effective address is no multiple of the access size. Safe. -/
  | misalignedAddress (addr : Nat)
  /-- ATOM, RED: the access is not inside one allocated range. Safe. -/
  | badAddress (addr : Nat)
  /-- BAR: the register form of the barrier holds a value above 15. Safe. -/
  | badBarrier (value : Nat)
  /-- BAR: a count that is no multiple of `WARP_SIZE`, or BAR.ARV with count zero. Safe. -/
  | badThreadCount (value : Nat)
  /-- BAR: a different count or reduction from the threads already there. Safe. -/
  | barrierMismatch (bar : Fin 16)
  /-- `step` alone: every thread has exited and nothing is recorded, the run is over (rule R204). Safe. -/
  | finished
  /-- `step` alone: every thread has stopped and a fault or refusal is recorded, so the run "has no answer" (rule
  R204). Safe. -/
  | noAnswer
  /-- `step` alone: a thread waits or is held and no transition is enabled (rule R204, "stuck"). Safe. -/
  | stuck
  deriving DecidableEq, Repr

/-- The refusals of rule R182: the spec gives the word no meaning. All are safe: nothing is claimed of
what the chip does. -/
inductive Refusal where
  /-- `exec` only: an instruction without a meaning yet. No arm uses it. Safe. -/
  | notModelled (mnemonic : String)
  /-- Decode: the word matches no row (rule R90). Safe. -/
  | unknownOpcode
  /-- Decode and BAR, ATOM, RED, VOTE, NOP: a form nothing in the source shows (rules R91, R92). Safe. -/
  | notShown
  /-- SSY, BRA, CAL, PRET, PBK, PCNT: the constant-memory operand (rules R37, R92). Safe. -/
  | constOperand
  /-- VOTE: the "Unconfirmed modes" `.VTG.*` (rule R150). Safe. -/
  | unconfirmed
  /-- BRA `.LMT`, CAL and PRET `.NOINC`, NOP `.TRIG`, `.Op`, immediate (rule R93). Safe. -/
  | modifierNotModelled
  /-- NOP with a condition other than `.T` (rule R109). Safe. -/
  | ccopNotModelled
  /-- ATOM, RED.E: the offset's top bit is 1 while `AtomOffsetSigned` is unset (rules R86, R87). Safe. -/
  | offsetSignOpen
  /-- ATOM, RED: a 64-bit operand at an odd index or at 62 (rule R25). Safe. -/
  | badRegisterPair
  deriving DecidableEq, Repr

/-- What ends an instruction without a next state (rule R10). -/
inductive Stop where
  | fault (r : Fault)
  | refusal (r : Refusal)
  deriving DecidableEq, Repr

/-! ## Threads -/

/-- The status of a thread (rule R21). -/
inductive Status where
  | running
  | waiting (b : Fin 16)
  | exited
  | faulted (r : Fault)
  | refused (r : Refusal)
  deriving DecidableEq, Repr

/-- One entry of a control stack (rule R33). -/
structure CsEntry where
  kind : Kind
  addr : CodeAddr
  deriving DecidableEq, Repr

/-- One thread (rules R21, R23, R26, R28, R30, R33). -/
structure Thread where
  /-- `R[0]` to `R[62]`. -/
  regs : Vector Word 63
  /-- `P[0]` to `P[6]`. -/
  preds : Vector Bool 7
  cc : CCState
  /-- What no write and no launch premise has given a value yet (rule R40; log 3). -/
  unwritten : List Source
  pc : CodeAddr
  /-- The control stack, top first. -/
  cs : List CsEntry
  status : Status
  /-- The model's own: how many accesses the thread has executed; the next one has this place (log 14). -/
  place : Nat
  deriving DecidableEq, Repr

/-! ## Barriers (rule R35) -/

/-- A thread waiting at a barrier, with what its BAR.RED writes at the release. -/
structure Waiter where
  thread : Nat
  redop : RedOp
  reg0 : RegIdx
  p : PredIdx
  deriving DecidableEq, Repr

/-- One barrier of the block. -/
structure Barrier where
  arrived : Nat
  expected : Option Nat
  waiters : List Waiter
  votes : List Bool
  /-- The model's own: the threads that arrived in this generation, each with the place its next access had
  (rule R63; log 14). -/
  arrivers : List (Nat × Nat)
  deriving DecidableEq, Repr

/-- A barrier at launch and after each reinitialisation (rules R40, R143). -/
def Barrier.idle : Barrier := ⟨0, none, [], [], []⟩

/-! ## The event history and the fault record -/

/-- An event (rules R50, R54, R59, R63, R144): an ATOM or RED with both values, a fence, a barrier release with
the threads that arrived and those released. The places in program order beside the threads are the model's own
(log 14): the place of an access, and of the next access at a fence, at an arrival and at a release. -/
inductive Event where
  | access (thread place addr size : Nat) (old new : Wide)
  | fence (thread place : Nat) (lvl : Lvl)
  | release (b : Fin 16) (arrived released : List (Nat × Nat))
  deriving DecidableEq, Repr

/-- One recorded outcome (rules R180, R181): the thread, its `pc`, the word if one was fetched, the reason with its
value. DESIGN CHOICE (log 22): rule R41 names the fault record and says nothing of it; that it is a list over all
threads, holds the thread and the word for every outcome, and holds refusals too is the model's choice. -/
structure FaultRecord where
  thread : Nat
  pc : CodeAddr
  word : Option InstrWord
  stop : Stop
  deriving DecidableEq, Repr

/-! ## Launch parameters -/

/-- One allocated range of `GMem` (rule R56). -/
structure AllocRange where
  base : Nat
  size : Nat
  deriving DecidableEq, Repr

/-- `MemModel` (rules R5, R58): the guarantees of rule R58 and no others, or the stronger reading that rule allows,
every access last in the total order when its instruction steps (log 14). -/
inductive MemModel where
  | relaxed | sequential
  deriving DecidableEq, Repr

/-- The parameters a launch fixes (rules R5, R22, R56); no step writes them (log 2). -/
structure Params where
  /-- The kernel entry address. -/
  entry : CodeAddr
  /-- `PCW`, the width of `pc`. -/
  pcWidth : Nat
  /-- `AWIDTH` without `.E`, the width of a data address (rule R145; log 23). -/
  addrWidth : Nat
  /-- `AWIDTH` with `.E`. -/
  addrWidthE : Nat
  /-- `WARP_SIZE`, the threads that vote together. -/
  warpSize : Nat
  /-- `CSDepth`; `none` is unbounded. -/
  csDepth : Option Nat
  /-- `AtomOffsetSigned`; `none` is unset. -/
  atomOffsetSigned : Option Bool
  /-- `MemModel`. -/
  memModel : MemModel
  /-- The allocated ranges of `GMem`. -/
  allocated : List AllocRange
  /-- The launch memory (rule R40), kept for rule R58(a). -/
  launchMem : List Host.Cell
  deriving DecidableEq, Repr

/-- Where the access of a step stands in the total order of rule R58 (a): before the last `later` events of the
history, reading `old`. The accesses that give it that value may be still to come (log 14). -/
structure Placement where
  later : Nat
  old : Wide
  deriving DecidableEq, Repr

/-! ## The whole machine -/

/-- The block of threads with its barriers, memories and records. The threads stand in index order as
`lower ++ thread :: higher`, so a block has at least one (rule R5, `BLOCK_SIZE`); `thread` is the one an
instruction acts on. -/
structure State where
  lower : List Thread
  thread : Thread
  higher : List Thread
  barriers : Vector Barrier 16
  /-- `GMem`: the bytes that are not zero, addresses rising (rule R38; log 4). -/
  gmem : List Host.Cell
  /-- The code space: the bytes of the program, addresses rising (rule R36; log 6). -/
  code : List Host.Cell
  /-- The event history, latest first; its accesses stand in the total order of rule R58 (a) (log 14). -/
  history : List Event
  /-- The fault record, latest first. -/
  record : List FaultRecord
  params : Params
  /-- The model's own: the choices already fixed for the next steps; after them the free value chooses (log 1). -/
  schedule : List Choice
  /-- The model's own: how many steps were made, the argument of the free choice (log 1). -/
  tick : Nat
  /-- The model's own: where an access of this step stands in the order; at its end, where nothing is said (log
  14). -/
  placing : Option Placement
  deriving DecidableEq, Repr

/-! ## Launch and reset -/

/-- What the launch premise names for one thread (rule R40). -/
structure Premise where
  regs : List (Fin 63 × Word)
  preds : List (Fin 7 × Bool)
  cc : Option CCState
  deriving DecidableEq, Repr

/-- A launch (rule R204): the parameters, the program as bytes, and the launch premise of each thread, the
first and the rest. -/
structure Launch where
  params : Params
  program : List Host.Cell
  first : Premise
  rest : List Premise
  deriving DecidableEq, Repr

/-- The registers, predicates and `CC` that a premise does not name. -/
def Premise.unnamed (p : Premise) : List Source :=
  ((List.finRange 63).filter (fun i => (p.regs.lookup i).isNone)).map Source.reg
    ++ ((List.finRange 7).filter (fun i => (p.preds.lookup i).isNone)).map Source.pred
    ++ (if p.cc.isNone then [Source.cc] else [])

/-- A thread at launch (rule R40); where the premise names no value, none can be read. -/
def Thread.launch (entry : CodeAddr) (p : Premise) : Thread where
  regs := Vector.ofFn (fun i => (p.regs.lookup i).getD 0#32)
  preds := Vector.ofFn (fun i => (p.preds.lookup i).getD false)
  cc := p.cc.getD ⟨0⟩
  unwritten := p.unnamed
  pc := entry
  cs := []
  status := .running
  place := 0

/-- The machine at launch (rules R40, R200). -/
def State.launch (l : Launch) : State where
  lower := []
  thread := Thread.launch l.params.entry l.first
  higher := l.rest.map (Thread.launch l.params.entry)
  barriers := Vector.replicate 16 Barrier.idle
  gmem := l.params.launchMem
  code := l.program
  history := []
  record := []
  params := l.params
  schedule := []
  tick := 0
  placing := none

/-- The launch premise of reset: every register zero, every predicate false, `CC` token 0. DESIGN CHOICE
(log 3). -/
def Premise.reset : Premise where
  regs := (List.finRange 63).map (fun i => (i, 0#32))
  preds := (List.finRange 7).map (fun i => (i, false))
  cc := some ⟨0⟩

/-- The launch parameters of reset: the spec's defaults, entry 0 and the whole data space allocated.
DESIGN CHOICE (logs 2, 4, 5). -/
def Params.reset : Params where
  entry := 0
  pcWidth := 32
  addrWidth := 32
  addrWidthE := 64
  warpSize := 32
  csDepth := none
  atomOffsetSigned := none
  memModel := .relaxed
  allocated := [⟨0, 2 ^ 64⟩]
  launchMem := []

/-- The launch of reset: one thread, no program. DESIGN CHOICE (logs 2, 6). -/
def Launch.reset : Launch where
  params := Params.reset
  program := []
  first := Premise.reset
  rest := []

/-- The machine after reset: the launch of reset (rule R200; the spec has no other reset). -/
def State.reset : State := State.launch Launch.reset

end Sys2Proof.Machine
end

