-- ==== Sys2Proof/Machine/Ops.lean ====
section
/-!
DEFINITION. The named operations over memory, registers, predicates, `pc`, the control stack, the threads
of the block, the event history, and stopping a thread.
`spec/10_state.md` rules R23 to R41, `spec/20_memory.md` rules R50 to R57, `spec/60_exceptions.md` R180, R181.
-/

namespace Sys2Proof.Machine

open Sys2Proof

/-! ## Byte cells -/

/-- The byte listed at an address. -/
def cellsLookup (a : Nat) : List Host.Cell → Option Byte
  | [] => none
  | (b, v) :: rest => if b = a then some v else cellsLookup a rest

/-- List a byte at an address, in place by rising address. -/
def cellsInsert (a : Nat) (v : Byte) : List Host.Cell → List Host.Cell
  | [] => [(a, v)]
  | (b, u) :: rest =>
    if a < b then (a, v) :: (b, u) :: rest
    else if b = a then (a, v) :: rest
    else (b, u) :: cellsInsert a v rest

/-- List no byte at an address. -/
def cellsErase (a : Nat) : List Host.Cell → List Host.Cell
  | [] => []
  | (b, u) :: rest => if b = a then cellsErase a rest else (b, u) :: cellsErase a rest

/-- Every address of the list is above `a`. -/
def cellsAbove (a : Nat) (m : List Host.Cell) : Bool := m.all (fun c => decide (a < c.1))

/-- The addresses rise strictly. -/
def cellsRising : List Host.Cell → Bool
  | [] => true
  | c :: rest => cellsAbove c.1 rest && cellsRising rest

/-! ## `GMem` (rules R38, R50, R51, R55) -/

/-- What an unlisted byte of `GMem` reads as: the list of the launch memory leaves out its zero bytes
(log 4). -/
def Memory.unlisted : Byte := 0#8

/-- The canonical form: addresses rise, and no listed byte is the one an unlisted address reads as. -/
def Memory.wf (m : List Host.Cell) : Bool := cellsRising m && m.all (fun c => c.2 != Memory.unlisted)

/-- One byte of `GMem`. -/
def Memory.readByte (m : List Host.Cell) (a : Nat) : Byte := (cellsLookup a m).getD Memory.unlisted

/-- Write one byte of `GMem`, keeping the canonical form. -/
def Memory.writeByte (m : List Host.Cell) (a : Nat) (v : Byte) : List Host.Cell :=
  if v = Memory.unlisted then cellsErase a m else cellsInsert a v m

/-- The `n` bytes from `a` up as one value, the byte at `a` lowest (rules R50, R51). -/
def Memory.read (m : List Host.Cell) (a : Nat) : Nat → Wide
  | 0 => 0#64
  | n + 1 => (Memory.readByte m a).setWidth 64 ||| (Memory.read m (a + 1) n <<< 8)

/-- Write the lowest `n` bytes of a value from `a` up (rules R50, R51). -/
def Memory.write (m : List Host.Cell) (a : Nat) : Nat → Wide → List Host.Cell
  | 0, _ => m
  | n + 1, v => Memory.writeByte (Memory.write m (a + 1) n (v >>> 8)) a (v.setWidth 8)

/-- Write the lowest `n` bytes of a value from `a` up, but for the addresses to keep as they are. -/
def Memory.writeUnder (m : List Host.Cell) (a : Nat) : Nat → Wide → (Nat → Bool) → List Host.Cell
  | 0, _, _ => m
  | n + 1, v, keep =>
    let m' := Memory.writeUnder m (a + 1) n (v >>> 8) keep
    if keep a then m' else Memory.writeByte m' a (v.setWidth 8)

/-- The access lies inside one range. -/
def AllocRange.holds (r : AllocRange) (a n : Nat) : Bool := decide (r.base ≤ a ∧ a + n ≤ r.base + r.size)

/-- Admission of rule R56: the `n` bytes from `a` up lie inside one allocated range. -/
def Params.admits (ps : Params) (a n : Nat) : Bool := ps.allocated.any (fun r => r.holds a n)

/-! ## Checks -/

/-- Go on if the condition holds, else stop. -/
def check (c : Bool) (e : Stop) : Except Stop Unit := if c then .ok () else .error e

/-- Go on if the condition holds, else fault. -/
def checkFault (c : Bool) (r : Fault) : Except Stop Unit := check c (.fault r)

/-- Go on if the condition holds, else refuse. -/
def checkRefuse (c : Bool) (r : Refusal) : Except Stop Unit := check c (.refusal r)

/-- The outcome of an instruction, in the host's terms (rule R10). -/
def outcome : Except Stop State → Host.Outcome State Fault Refusal
  | .ok s => .next s
  | .error (.fault r) => .fault r
  | .error (.refusal r) => .refused r

/-! ## General registers (rules R23 to R25) -/

/-- The name of a register index; `RZ` has none, since it always holds a value. -/
def regSource (i : RegIdx) : Option Source :=
  if h : i.toNat < 63 then some (.reg ⟨i.toNat, h⟩) else none

/-- `R[i]` holds a value. -/
def Thread.regReadable (t : Thread) (i : RegIdx) : Bool :=
  match regSource i with
  | some src => !t.unwritten.contains src
  | none => true

/-- The contents of `R[i]`; `RZ` reads zero. -/
def Thread.regValue (t : Thread) (i : RegIdx) : Word :=
  if h : i.toNat < 63 then t.regs[i.toNat] else 0#32

/-- Read `R[i]` (rule R9), which faults while it is unwritten. -/
def Thread.readReg (t : Thread) (i : RegIdx) : Except Stop Word :=
  match regSource i with
  | some src => if t.unwritten.contains src then .error (.fault (.unwrittenRegister src)) else .ok (t.regValue i)
  | none => .ok 0#32

/-- Write `R[i]`; a write to `RZ` is discarded. -/
def Thread.writeReg (t : Thread) (i : RegIdx) (v : Word) : Thread :=
  if h : i.toNat < 63 then
    { t with regs := t.regs.set i.toNat v, unwritten := t.unwritten.filter (· ≠ .reg ⟨i.toNat, h⟩) }
  else t

/-- A register index names a 64-bit operand: even and at most 60, or `RZ` (rule R25). -/
def pairOk (i : RegIdx) : Bool := i == rz || (i.toNat % 2 == 0 && decide (i.toNat ≤ 60))

/-- The 64-bit operand `R[i+1] ++ R[i]`; `RZ` stands for 64 zero bits. -/
def Thread.pairValue (t : Thread) (i : RegIdx) : Wide :=
  if i = rz then 0#64 else t.regValue (i + 1#6) ++ t.regValue i

/-- Both halves of the 64-bit operand hold a value. -/
def Thread.pairReadable (t : Thread) (i : RegIdx) : Bool :=
  i == rz || (t.regReadable i && t.regReadable (i + 1#6))

/-- Read a 64-bit operand, the low half first (log 16). -/
def Thread.readPair (t : Thread) (i : RegIdx) : Except Stop Wide :=
  if i = rz then .ok 0#64
  else
    match t.readReg i with
    | .error e => .error e
    | .ok lo =>
      match t.readReg (i + 1#6) with
      | .error e => .error e
      | .ok hi => .ok (hi ++ lo)

/-- Write a 64-bit destination; `RZ` discards it. -/
def Thread.writePair (t : Thread) (i : RegIdx) (v : Wide) : Thread :=
  if i = rz then t
  else (t.writeReg i (v.setWidth 32)).writeReg (i + 1#6) ((v >>> 32).setWidth 32)

/-! ## Predicates (rules R28, R29) -/

/-- The name of a predicate index; `pt` has none. -/
def predSource (i : PredIdx) : Option Source :=
  if h : i.toNat < 7 then some (.pred ⟨i.toNat, h⟩) else none

/-- `P[i]` holds a value. -/
def Thread.predReadable (t : Thread) (i : PredIdx) : Bool :=
  match predSource i with
  | some src => !t.unwritten.contains src
  | none => true

/-- The contents of `P[i]`; `pt` reads true. -/
def Thread.predValue (t : Thread) (i : PredIdx) : Bool :=
  if h : i.toNat < 7 then t.preds[i.toNat] else true

/-- Write `P[i]`; a write to `pt` is discarded. -/
def Thread.writePred (t : Thread) (i : PredIdx) (v : Bool) : Thread :=
  if h : i.toNat < 7 then
    { t with preds := t.preds.set i.toNat v, unwritten := t.unwritten.filter (· ≠ .pred ⟨i.toNat, h⟩) }
  else t

/-! ## The threads of the block (rules R20, R22, R39) -/

/-- The index of the thread that steps. -/
def State.index (s : State) : Nat := s.lower.length

/-- The threads in index order. -/
def State.threadList (s : State) : List Thread := s.lower ++ s.thread :: s.higher

/-- `BLOCK_SIZE`. -/
def State.blockSize (s : State) : Nat := s.threadList.length

/-- Change every thread, each by its index. -/
def State.mapThreads (s : State) (f : Nat → Thread → Thread) : State :=
  { s with
    lower := s.lower.mapIdx f
    thread := f s.index s.thread
    higher := s.higher.mapIdx (fun k => f (s.index + 1 + k)) }

/-- The state in which thread `i` is the one that steps; unchanged if the block has no thread `i`. -/
def State.focus (s : State) (i : Nat) : State :=
  match s.threadList.drop i with
  | [] => s
  | t :: rest => { s with lower := s.threadList.take i, thread := t, higher := rest }

/-! ## `pc` (rules R26, R27, R101) -/

/-- `pc <- t` for the thread that steps. -/
def State.setPc (s : State) (t : CodeAddr) : State := { s with thread := { s.thread with pc := t } }

/-- `pc <- pc + IBYTES`. -/
def State.advance (s : State) : State := s.setPc (s.thread.pc + Config.ibytes)

/-- The operand address `pc + IBYTES + s(imm24)`, a sum of integers (rule R101). -/
def State.target (s : State) (imm24 : BitVec 24) : CodeAddr := s.thread.pc + Config.ibytes + imm24.toInt

/-! ## The control stack (rules R33, R34) -/

/-- The stack has room for one more entry. -/
def State.csHasRoom (s : State) : Bool :=
  match s.params.csDepth with
  | none => true
  | some d => decide (s.thread.cs.length < d)

/-- `CS.push`. -/
def State.csPush (s : State) (k : Kind) (a : CodeAddr) : Except Stop State :=
  if s.csHasRoom then .ok { s with thread := { s.thread with cs := ⟨k, a⟩ :: s.thread.cs } }
  else .error (.fault .controlStackOverflow)

/-- The address and the entries that remain when a stack is unwound to a kind. -/
def csUnwindTo (k : Kind) : List CsEntry → Option (CodeAddr × List CsEntry)
  | [] => none
  | e :: rest => if e.kind = k then some (e.addr, rest) else csUnwindTo k rest

/-- `pc <- CS.unwind_to(k)`. DESIGN CHOICE (log 24): where no entry is of the kind the stack stays as it was, as rules
R180 and R181 say of a fault; `95_test_vectors.md` says of such a CONT that the entry above is not restored. -/
def State.csUnwind (s : State) (k : Kind) : Except Stop State :=
  match csUnwindTo k s.thread.cs with
  | none => .error (.fault .controlStackUnderflow)
  | some (a, rest) => .ok { s with thread := { s.thread with cs := rest, pc := a } }

/-- The join of rule R102: take the top entry, which must be `SYNC`, and continue there. -/
def State.csJoin (s : State) : Except Stop State :=
  match s.thread.cs with
  | [] => .error (.fault .controlStackUnderflow)
  | e :: rest =>
    if e.kind = .sync then .ok { s with thread := { s.thread with cs := rest, pc := e.addr } }
    else .error (.fault (.controlStackMismatch e.kind))

/-! ## Fetch (rules R27, R36, R50, R51, R56) -/

/-- The bytes of the code space from `a` up; none where the program has no byte. -/
def codeBytes (code : List Host.Cell) (a : Nat) : Nat → Option (List Byte)
  | 0 => some []
  | n + 1 =>
    match cellsLookup a code, codeBytes code (a + 1) n with
    | some b, some bs => some (b :: bs)
    | _, _ => none

/-- A `pc` at which an instruction can stand: a multiple of 8 in `0 .. 2^PCW - 8` (rules R26, R27). -/
def Params.fetchable (ps : Params) (pc : CodeAddr) : Bool :=
  decide (0 ≤ pc ∧ pc + Config.ibytes ≤ 2 ^ ps.pcWidth ∧ pc % Config.ibytes = 0)

/-- `Fetch(pc)` of the thread that steps. -/
def State.fetch (s : State) : Except Stop InstrWord :=
  if s.params.fetchable s.thread.pc then
    match codeBytes s.code s.thread.pc.toNat 8 with
    | some bs => .ok (wordOfBytes bs)
    | none => .error (.fault .badFetch)
  else .error (.fault .badFetch)

/-- The refusal of a word without an instruction (rules R90, R91). -/
def decodeRefusal : DecodeError → Refusal
  | .unknownOpcode => .unknownOpcode
  | .notShown => .notShown

/-- The instruction of a word, or its refusal. -/
def decodeOrRefuse (w : InstrWord) : Except Stop Instr :=
  match decode w with
  | .ok i => .ok i
  | .error e => .error (.refusal (decodeRefusal e))

/-! ## Stopping a thread: faults and refusals (rules R21, R41, R180 to R182, R185) -/

/-- The status a stop leaves. -/
def Stop.status : Stop → Status
  | .fault r => .faulted r
  | .refusal r => .refused r

/-- A status that is never left (rules R21, R193). -/
def Status.stopped : Status → Bool
  | .running => false
  | .waiting _ => false
  | .exited => true
  | .faulted _ => true
  | .refused _ => true

/-- Record an outcome for thread `i` standing at `pc`. -/
def State.addRecord (s : State) (i : Nat) (pc : CodeAddr) (word : Option InstrWord) (e : Stop) : State :=
  { s with record := ⟨i, pc, word, e⟩ :: s.record }

/-- The thread that steps stops: its status says so for ever, the outcome is recorded, and nothing else of
the state changes (rule R180). There is no trap entry (rule R185). -/
def State.stopThread (s : State) (word : Option InstrWord) (e : Stop) : State :=
  let r := s.addRecord s.index s.thread.pc word e
  { r with thread := { s.thread with status := e.status } }

/-! ## The event history (rules R50, R54) -/

/-- Record an event. -/
def State.addEvent (s : State) (e : Event) : State := { s with history := e :: s.history }

/-! ## The atomic access (rule R54) -/

/-- Put an event before the last `k` events of a history (latest first). -/
def insertEvent (k : Nat) (e : Event) (h : List Event) : List Event := h.take k ++ e :: h.drop k

/-- The access of an event touches the byte at `a`. -/
def Event.touches (a : Nat) : Event → Bool
  | .access _ _ b n _ _ => decide (b ≤ a ∧ a < b + n)
  | .fence _ _ _ => false
  | .release _ _ _ => false

/-- The lowest `n` bytes of a value. -/
def lowBytes (n : Nat) (v : Wide) : Wide := (v.setWidth (8 * n)).setWidth 64

/-- How many events stand after the access of this step: none, where the step does not say (log 14). -/
def State.later (s : State) : Nat :=
  match s.placing with
  | none => 0
  | some p => p.later

/-- What the access of this step reads at `a`: what memory holds, or what the step says (log 14). -/
def State.valueRead (s : State) (a n : Nat) : Wide :=
  match s.placing with
  | none => Memory.read s.gmem a n
  | some p => lowBytes n p.old

/-- A later access of the total order wrote the byte at `a`, so the access of this step does not show there. -/
def State.overwritten (s : State) (a : Nat) : Bool := (s.history.take s.later).any (Event.touches a)

/-- `AtomicRMW(GMem, a, n, f)` of the thread that steps, as one step and one event, by the access at a place of its
program order: the old value, and the state after. -/
def State.atomicRMW (s : State) (place a n : Nat) (f : Wide → Wide) : Wide × State :=
  let old := s.valueRead a n
  (old, { s with
    history := insertEvent s.later (.access s.index place a n old (f old)) s.history
    gmem := Memory.writeUnder s.gmem a n (f old) s.overwritten })

end Sys2Proof.Machine
end

