-- ==== Sys2Proof/Machine/Float.lean ====
section
/-!
DEFINITION. `fadd_ftz_rn`, the 32-bit floating-point addition of `ATOM.ADD.F32` and `RED.ADD.F32`:
`spec/41_sync_atomic.md` rule R147. Binary32 (GK18); subnormal inputs and results become zeros of their
sign; round to nearest, ties to even. Every finite binary32 is a whole multiple of `2^-149`, so the exact
sum is an integer.
-/

namespace Sys2Proof.Machine

open Sys2Proof

/-- The biased exponent. -/
def f32Exp (x : BitVec 32) : Nat := (x.extractLsb' 23 8).toNat

/-- The fraction. -/
def f32Frac (x : BitVec 32) : Nat := (x.extractLsb' 0 23).toNat

/-- A NaN: exponent all ones, fraction not zero. -/
def f32IsNaN (x : BitVec 32) : Bool := f32Exp x == 255 && f32Frac x != 0

/-- An infinity. -/
def f32IsInf (x : BitVec 32) : Bool := f32Exp x == 255 && f32Frac x == 0

/-- The magnitude of a finite number in units of `2^-149`, a subnormal read as zero (`.FTZ`). -/
def f32Magnitude (x : BitVec 32) : Nat :=
  if f32Exp x = 0 then 0 else (2 ^ 23 + f32Frac x) * 2 ^ (f32Exp x - 1)

/-- The value of a finite number in units of `2^-149`, a subnormal read as zero. -/
def f32Value (x : BitVec 32) : Int := if x.msb then -(f32Magnitude x : Int) else f32Magnitude x

/-- A magnitude of at least `2^23` units rounded to 24 significant bits, to nearest, ties to even, as the
number its exponent and fraction bits spell; `0x7F800000` and above are infinite. -/
def f32Round (m : Nat) : Nat :=
  let k := m.log2 - 23
  let q := m / 2 ^ k
  let r := m % 2 ^ k
  let up := decide (2 ^ k < 2 * r) || (2 * r == 2 ^ k && q % 2 == 1)
  k * 2 ^ 23 + q + (if up then 1 else 0)

/-- A result with a sign and the bits of its magnitude. -/
def f32WithSign (neg : Bool) (bits : Nat) : BitVec 32 := bit neg ++ BitVec.ofNat 31 bits

/-- A NaN whose pattern is open (rule R147: "any NaN bit pattern"). -/
def f32OpenNaN (x y : BitVec 32) : BitVec 32 :=
  if f32IsNaN (Config.faddOpen x y) then Config.faddOpen x y else 0x7FC00000#32

/-- The sum of two finite numbers. Open: the sign of an exact zero sum, and a result that is infinite. -/
def f32AddFinite (x y : BitVec 32) : BitVec 32 :=
  let v := f32Value x + f32Value y
  if v = 0 then f32WithSign (Config.faddOpen x y).msb 0
  else if v.natAbs < 2 ^ 23 then f32WithSign (decide (v < 0)) 0
  else if f32Round v.natAbs < 0x7F800000 then f32WithSign (decide (v < 0)) (f32Round v.natAbs)
  else Config.faddOpen x y

/-- `fadd_ftz_rn` (rule R147; log 9). -/
def faddFtzRn (x y : BitVec 32) : BitVec 32 :=
  if f32IsNaN x || f32IsNaN y then f32OpenNaN x y
  else if f32IsInf x && f32IsInf y && x.msb != y.msb then f32OpenNaN x y
  else if f32IsInf x || f32IsInf y then Config.faddOpen x y
  else f32AddFinite x y

end Sys2Proof.Machine
end

