-- ==== Sys2Proof/Machine/Flags.lean ====
section
/-!
DEFINITION. The condition test. No instruction in scope writes `CC` or any flag (`spec/10_state.md` rule
R30); the one flag computation is `CCTest` (rule R31, `spec/40_execution_control.md` rule R100).
-/

namespace Sys2Proof

/-- The test reads `CC`: every condition but `.T` and `.F` (rule R31). -/
def CCop.readsCC (ccop : CCop) : Bool := ccop != .t && ccop != .f

end Sys2Proof

namespace Sys2Proof.Machine

open Sys2Proof

/-- `CCTest(ccop, CC)` of rule R31: `.T` true and `.F` false for every `CC`; the rest is the open function. -/
def ccTest (ccop : CCop) (cc : CCState) : Bool :=
  match ccop with
  | .t => true
  | .f => false
  | c => Config.ccTest c cc

/-- `CC` holds a value, or the test does not read it. -/
def Thread.condReadable (t : Thread) (ccop : CCop) : Bool := !(ccop.readsCC && t.unwritten.contains .cc)

/-- `cond <- CCTest(ccop, CC)` (rule R100); faults while `CC` is unwritten and read. -/
def Thread.condition (t : Thread) (ccop : CCop) : Except Stop Bool :=
  if t.condReadable ccop then .ok (ccTest ccop t.cc) else .error (.fault (.unwrittenRegister .cc))

end Sys2Proof.Machine
end

