-- ==== Sys2Proof/Machine/Operands.lean ====
section
/-!
DEFINITION. Operand forms: the flow target, predicate sources, BAR's operands, and the operands and the
effective address of ATOM and RED. `spec/41_sync_atomic.md` rules R140, R145, R146, R153,
`spec/30_encoding.md` rules R85 to R87, R92.
-/

namespace Sys2Proof

/-! ## What the operand fields alone say -/

/-- An immediate barrier above 15 is an illegal encoding (rule R92). -/
def BarSrc.encodable : BarSrc → Bool
  | .reg _ => true
  | .imm v => decide (v.toNat ≤ 15)

/-- The register form of the count has `w[37:32]` as drawn. -/
def CountSrc.shown : CountSrc → Bool
  | .reg _ upper => upper == 0#6
  | .imm _ => true

/-- The access moves 8 bytes. -/
def AtomType.isWide : AtomType → Bool
  | .u64 => true
  | _ => false

/-- `n`, the width in bytes. -/
def AtomType.bytes (ty : AtomType) : Nat := if ty.isWide then 8 else 4

/-- `mod3` is one of 4, 5, 7, 11. -/
def AtomType.valid : AtomType → Bool
  | .invalid _ => false
  | _ => true

/-- `.Op` is one of 0 to 9. -/
def AtomOp.valid : AtomOp → Bool
  | .invalid _ => false
  | _ => true

end Sys2Proof

namespace Sys2Proof.Machine

open Sys2Proof

/-! ## Flow targets (rules R85, R92) -/

/-- The immediate of a flow target; the constant-memory form is refused. -/
def flowOffset : FlowTarget → Except Stop (BitVec 24)
  | .rel imm24 => .ok imm24
  | .const _ => .error (.refusal .constOperand)

/-! ## Predicate sources (rule R29) -/

/-- The predicate of a source holds a value. -/
def Thread.psrcReadable (t : Thread) (c : PredSrc) : Bool := t.predReadable c.idx

/-- `P[f[2:0]] xor f[3]`. -/
def Thread.psrcValue (t : Thread) (c : PredSrc) : Bool := xor (t.predValue c.idx) c.neg

/-- `Psrc(f)`, which faults while the predicate is unwritten. -/
def Thread.psrc (t : Thread) (c : PredSrc) : Except Stop Bool :=
  match predSource c.idx with
  | some src =>
    if t.unwritten.contains src then .error (.fault (.unwrittenRegister src)) else .ok (t.psrcValue c)
  | none => .ok (t.psrcValue c)

/-! ## BAR's operands (rule R140) -/

/-- The register of a barrier operand holds a value. -/
def Thread.barReadable (t : Thread) : BarSrc → Bool
  | .reg r => t.regReadable r
  | .imm _ => true

/-- The number a barrier operand names. -/
def Thread.barValue (t : Thread) : BarSrc → Nat
  | .reg r => (t.regValue r).toNat
  | .imm v => v.toNat

/-- Read a barrier operand. -/
def Thread.readBar (t : Thread) : BarSrc → Except Stop Nat
  | .reg r => (t.readReg r).map BitVec.toNat
  | .imm v => .ok v.toNat

/-- The register of a count holds a value. -/
def Thread.countReadable (t : Thread) : CountSrc → Bool
  | .reg r _ => t.regReadable r
  | .imm _ => true

/-- The number a count operand holds. -/
def Thread.countValue (t : Thread) : CountSrc → Nat
  | .reg r _ => (t.regValue r).toNat
  | .imm v => v.toNat

/-- Read a count operand. -/
def Thread.readCount (t : Thread) : CountSrc → Except Stop Nat
  | .reg r _ => (t.readReg r).map BitVec.toNat
  | .imm v => .ok v.toNat

/-- The barrier of a number, which faults above 15. -/
def barrierOf (n : Nat) : Except Stop (Fin 16) :=
  if h : n < 16 then .ok ⟨n, h⟩ else .error (.fault (.badBarrier n))

/-- A count is a whole number of vote groups (rule R140). -/
def Params.countOk (ps : Params) (k : Nat) : Bool := k % ps.warpSize == 0

/-- `n`: an explicit count, or all threads of the block for zero. -/
def State.arrivalCount (s : State) (k : Nat) : Nat := if k = 0 then s.blockSize else k

/-! ## Operands of ATOM and RED (rules R25, R145, R146, R153) -/

/-- The admitted pairs of rule R146. -/
def admittedPair : AtomOp → AtomType → Bool
  | .add, .u32 | .add, .u64 | .add, .s32 | .add, .f32 => true
  | .min, .u32 | .min, .s32 | .max, .u32 | .max, .s32 => true
  | .inc, .u32 | .dec, .u32 => true
  | .and, .u32 | .or, .u32 | .xor, .u32 => true
  | .exch, .u32 | .exch, .u64 | .cas, .u32 | .cas, .u64 => true
  | _, _ => false

/-- An omitted register operand stands as drawn, 0, or as `RZ` (rule R153). -/
def unusedOk (i : RegIdx) : Bool := i == 0#6 || i == rz

/-- `reg4` of ATOM: the register or pair after `reg0` for `.CAS`, else omitted (rule R148). -/
def reg4Ok (op : AtomOp) (ty : AtomType) (reg0 reg4 : RegIdx) : Bool :=
  if op = .cas then reg4.toNat == reg0.toNat + (if ty.isWide then 2 else 1) else unusedOk reg4

/-- A register index can name an operand of the width. -/
def operandOk (wide : Bool) (i : RegIdx) : Bool := !wide || pairOk i

/-- The register or pair holds a value. -/
def Thread.operandReadable (t : Thread) (wide : Bool) (i : RegIdx) : Bool :=
  if wide then t.pairReadable i else t.regReadable i

/-- The contents of a register or pair. -/
def Thread.operandValue (t : Thread) (wide : Bool) (i : RegIdx) : Wide :=
  if wide then t.pairValue i else (t.regValue i).setWidth 64

/-- Read a 32-bit or 64-bit operand. -/
def Thread.readOperand (t : Thread) (wide : Bool) (i : RegIdx) : Except Stop Wide :=
  if wide then t.readPair i else (t.readReg i).map (BitVec.setWidth 64)

/-- Write a 32-bit or 64-bit destination. -/
def Thread.writeOperand (t : Thread) (wide : Bool) (i : RegIdx) (v : Wide) : Thread :=
  if wide then t.writePair i v else t.writeReg i (v.setWidth 32)

/-- The offset extended to 64 bits; with its top bit set the extension is the parameter
`AtomOffsetSigned` (rules R86, R87). -/
def Params.extend {n : Nat} (ps : Params) (off : BitVec n) : Except Stop Wide :=
  if off.msb then
    match ps.atomOffsetSigned with
    | none => .error (.refusal .offsetSignOpen)
    | some true => .ok (off.signExtend 64)
    | some false => .ok (off.setWidth 64)
  else .ok (off.setWidth 64)

/-- ATOM's offset (rules R86, R145). -/
def State.atomOffset (s : State) (imm20 : BitVec 20) : Except Stop Wide := s.params.extend imm20

/-- `AWIDTH` with or without `.E` (rule R5; log 23). -/
def Params.dataWidth (ps : Params) (e : Bool) : Nat := if e then ps.addrWidthE else ps.addrWidth

/-- RED's offset: without `.E`, in an address of at most 32 bits, its signedness does not matter (rules R87,
R145; log 23). -/
def State.redOffset (s : State) (e : Bool) (imm32 : BitVec 32) : Except Stop Wide :=
  if e || decide (32 < s.params.addrWidth) then s.params.extend imm32 else .ok (imm32.setWidth 64)

/-- The effective address of a base operand and an offset, modulo `2^AWIDTH` (rule R145). -/
def effectiveAddress (width : Nat) (base off : Wide) : Nat := (base + off).toNat % 2 ^ width

end Sys2Proof.Machine
end

