-- ==== Sys2Proof/Machine/Atomic.lean ====
section
/-!
DEFINITION. The atomic instructions ATOM and RED. `spec/41_sync_atomic.md` rules R145 to R149, R151;
`spec/20_memory.md` rules R52 to R54, R56.
-/

namespace Sys2Proof.Machine

open Sys2Proof

/-! ## The operation functions (rule R147) -/

/-- `.MIN`: the old value where it is not above the operand. -/
def atomMin {n : Nat} (signed : Bool) (old b : BitVec n) : BitVec n :=
  if signed then (if old.toInt ≤ b.toInt then old else b) else (if old.toNat ≤ b.toNat then old else b)

/-- `.MAX`: the old value where it is not below the operand. -/
def atomMax {n : Nat} (signed : Bool) (old b : BitVec n) : BitVec n :=
  if signed then (if b.toInt ≤ old.toInt then old else b) else (if b.toNat ≤ old.toNat then old else b)

/-- `.INC`: zero from the operand up, else one more. -/
def atomInc {n : Nat} (old b : BitVec n) : BitVec n := if b.toNat ≤ old.toNat then 0#n else old + 1#n

/-- `.DEC`: the operand from zero or above the operand, else one less. -/
def atomDec {n : Nat} (old b : BitVec n) : BitVec n :=
  if old = 0#n ∨ b.toNat < old.toNat then b else old - 1#n

/-- `f(old)` of an integer operation on `n` bits, with operand `b` and, for `.CAS`, `c`. -/
def atomInt {n : Nat} (op : AtomOp) (signed : Bool) (old b c : BitVec n) : BitVec n :=
  match op with
  | .add => old + b
  | .min => atomMin signed old b
  | .max => atomMax signed old b
  | .inc => atomInc old b
  | .dec => atomDec old b
  | .and => old &&& b
  | .or => old ||| b
  | .xor => old ^^^ b
  | .exch => b
  | .cas => if old = b then c else old
  | .invalid _ => old

/-- `f(old)` in the 64-bit container; a 32-bit type works on the low half. -/
def atomApply (op : AtomOp) (ty : AtomType) (old b c : Wide) : Wide :=
  match ty with
  | .u64 => atomInt op false old b c
  | .u32 => (atomInt op false (old.setWidth 32) (b.setWidth 32) (c.setWidth 32)).setWidth 64
  | .s32 => (atomInt op true (old.setWidth 32) (b.setWidth 32) (c.setWidth 32)).setWidth 64
  | .f32 => (faddFtzRn (old.setWidth 32) (b.setWidth 32)).setWidth 64
  | .invalid _ => old

/-! ## The access -/

/-- The access an ATOM or RED asks for (rules R53, R145 to R147): address, operation, type, operands. -/
structure Access where
  addr : Nat
  op : AtomOp
  ty : AtomType
  b : Wide
  c : Wide
  deriving DecidableEq, Repr

/-- The width of an access in bytes. -/
def Access.bytes (x : Access) : Nat := x.ty.bytes

/-- `f(old)` of an access. -/
def Access.result (x : Access) (old : Wide) : Wide := atomApply x.op x.ty old x.b x.c

/-- The thread that steps makes an access, the next of its program order (rule R54): the old value, and the state
after. -/
def State.access (s : State) (x : Access) : Wide × State :=
  let r := s.atomicRMW s.thread.place x.addr x.bytes x.result
  (r.1, { r.2 with thread := { s.thread with place := s.thread.place + 1 } })

/-- The faults of an access before it is made: misaligned, then not allocated (rules R52, R56, R183). -/
def State.checkAccess (s : State) (a n : Nat) : Except Stop Unit := do
  checkFault (a % n == 0) (.misalignedAddress a)
  checkFault (s.params.admits a n) (.badAddress a)

/-! ## The instructions -/

/-- What the fields of an ATOM say, before any register is read (rule R148). -/
def atomForm (op : AtomOp) (ty : AtomType) (reg0 reg4 : RegIdx) : Except Stop Unit := do
  checkFault (op.valid && ty.valid) .illegalEncoding
  checkRefuse (admittedPair op ty) .notShown
  checkRefuse (reg4Ok op ty reg0 reg4) .notShown

/-- What the fields of a RED say; `.EXCH` and `.CAS` are not applicable (rule R149). -/
def redForm (op : AtomOp) (ty : AtomType) : Except Stop Unit := do
  checkFault (op.valid && ty.valid && op != .exch && op != .cas) .illegalEncoding
  checkRefuse (admittedPair op ty) .notShown

/-- ATOM's access, checked and with its operands: `reg3 <- old`. -/
def State.atomAccess (s : State) (x : Access) (reg3 : RegIdx) : State :=
  let r := s.access x
  { r.2 with thread := r.2.thread.writeOperand x.ty.isWide reg3 r.1 }.advance

/-- RED's access: the old value is dropped. -/
def State.redAccess (s : State) (x : Access) : State := (s.access x).2.advance

/-- An ATOM whose fields and registers let it reach its access: the access. Refusals, then reads in the order base,
`reg0`, `reg4`, then the faults of the address (rules R148, R183). -/
def State.atomRequest (s : State) (op : AtomOp) (ty : AtomType) (e : Bool) (reg3 reg1 : RegIdx) (imm20 : BitVec 20)
    (reg0 reg4 : RegIdx) : Except Stop Access := do
  atomForm op ty reg0 reg4
  let off ← s.atomOffset imm20
  checkRefuse (operandOk e reg1) .badRegisterPair
  checkRefuse (operandOk ty.isWide reg0) .badRegisterPair
  checkRefuse (op != .cas || operandOk ty.isWide reg4) .badRegisterPair
  checkRefuse (operandOk ty.isWide reg3) .badRegisterPair
  let base ← s.thread.readOperand e reg1
  let b ← s.thread.readOperand ty.isWide reg0
  let c ← if op = .cas then s.thread.readOperand ty.isWide reg4 else .ok 0#64
  let a := effectiveAddress (s.params.dataWidth e) base off
  s.checkAccess a ty.bytes
  .ok ⟨a, op, ty, b, c⟩

/-- A RED whose fields and registers let it reach its access: the access (rules R149, R183). -/
def State.redRequest (s : State) (op : AtomOp) (ty : AtomType) (e : Bool) (reg1 : RegIdx) (imm32 : BitVec 32)
    (reg0 : RegIdx) : Except Stop Access := do
  redForm op ty
  let off ← s.redOffset e imm32
  checkRefuse (operandOk e reg1) .badRegisterPair
  checkRefuse (operandOk ty.isWide reg0) .badRegisterPair
  let base ← s.thread.readOperand e reg1
  let b ← s.thread.readOperand ty.isWide reg0
  let a := effectiveAddress (s.params.dataWidth e) base off
  s.checkAccess a ty.bytes
  .ok ⟨a, op, ty, b, 0#64⟩

/-- ATOM (rule R148). -/
def execAtom (op : AtomOp) (ty : AtomType) (e : Bool) (reg3 reg1 : RegIdx) (imm20 : BitVec 20)
    (reg0 reg4 : RegIdx) (s : State) : Host.Outcome State Fault Refusal := outcome do
  let x ← s.atomRequest op ty e reg3 reg1 imm20 reg0 reg4
  .ok (s.atomAccess x reg3)

/-- RED (rule R149): as ATOM without a destination. -/
def execRed (op : AtomOp) (ty : AtomType) (e : Bool) (reg1 : RegIdx) (imm32 : BitVec 32) (reg0 : RegIdx)
    (s : State) : Host.Outcome State Fault Refusal := outcome do
  let x ← s.redRequest op ty e reg1 imm32 reg0
  .ok (s.redAccess x)

end Sys2Proof.Machine
end

