-- ==== Sys2Proof/Machine/Control.lean ====
section
/-!
DEFINITION. The execution control instructions: SSY, BRA, CAL, PRET, RET, EXIT, NOP, PBK, BRK, PCNT, CONT.
`spec/40_execution_control.md` rules R100 to R115.
-/

namespace Sys2Proof.Machine

open Sys2Proof

/-! ## Shared operations -/

/-- Push an entry of a kind with an address and go on to the next instruction (rules R103, R106, R110,
R112). -/
def State.pushAndAdvance (s : State) (k : Kind) (a : CodeAddr) : Except Stop State := do
  let s' ← s.csPush k a
  .ok s'.advance

/-- Act if the condition holds, else only go on to the next instruction (rule R100). -/
def State.whenCondition (s : State) (ccop : CCop) (act : State → Except Stop State) : Except Stop State := do
  let cond ← s.thread.condition ccop
  if cond then act s else .ok s.advance

/-- The thread ends; `pc`, registers and `CS` keep their values (rule R108). -/
def State.exitThread (s : State) : State := { s with thread := { s.thread with status := .exited } }

/-! ## The instructions, in the source's order -/

/-- SSY (rule R103). -/
def execSsy (target : FlowTarget) (s : State) : Host.Outcome State Fault Refusal := outcome do
  let imm24 ← flowOffset target
  s.pushAndAdvance .sync (s.target imm24)

/-- BRA (rule R104). `.U` changes nothing here: its premise is `Safety.uniformBranches` (log 10). -/
def execBra (ccop : CCop) (_u lmt : Bool) (target : FlowTarget) (s : State) :
    Host.Outcome State Fault Refusal := outcome do
  let imm24 ← flowOffset target
  checkRefuse (!lmt) .modifierNotModelled
  s.whenCondition ccop (fun s => .ok (s.setPc (s.target imm24)))

/-- CAL (rule R105). -/
def execCal (noinc : Bool) (target : FlowTarget) (s : State) : Host.Outcome State Fault Refusal := outcome do
  let imm24 ← flowOffset target
  checkRefuse (!noinc) .modifierNotModelled
  let s' ← s.csPush .ret (s.thread.pc + Config.ibytes)
  .ok (s'.setPc (s.target imm24))

/-- PRET (rule R106). -/
def execPret (noinc : Bool) (target : FlowTarget) (s : State) : Host.Outcome State Fault Refusal := outcome do
  let imm24 ← flowOffset target
  checkRefuse (!noinc) .modifierNotModelled
  s.pushAndAdvance .ret (s.target imm24)

/-- RET (rule R107). -/
def execRet (ccop : CCop) (s : State) : Host.Outcome State Fault Refusal := outcome do
  s.whenCondition ccop (fun s => s.csUnwind .ret)

/-- EXIT (rule R108). -/
def execExit (ccop : CCop) (s : State) : Host.Outcome State Fault Refusal := outcome do
  s.whenCondition ccop (fun s => .ok s.exitThread)

/-- NOP (rule R109), with the join of rule R102 for `.S`. An `.Op` without a row (rule R92) is refused before the
modifiers without meaning (rule R93), the condition among them, as rule R89 (5) orders them (log 16). -/
def execNop (ccop : CCop) (join trig : Bool) (op : NopOp) (imm16 : BitVec 16) (s : State) :
    Host.Outcome State Fault Refusal := outcome do
  checkRefuse (match op with | .noRow _ => false | _ => true) .notShown
  checkRefuse (ccop == .t) .ccopNotModelled
  checkRefuse (!trig && op == .none) .modifierNotModelled
  checkRefuse (imm16 == 0#16) .modifierNotModelled
  if join then s.csJoin else .ok s.advance

/-- PBK (rule R110). -/
def execPbk (target : FlowTarget) (s : State) : Host.Outcome State Fault Refusal := outcome do
  let imm24 ← flowOffset target
  s.pushAndAdvance .brk (s.target imm24)

/-- BRK (rule R111). -/
def execBrk (ccop : CCop) (s : State) : Host.Outcome State Fault Refusal := outcome do
  s.whenCondition ccop (fun s => s.csUnwind .brk)

/-- PCNT (rule R112). -/
def execPcnt (target : FlowTarget) (s : State) : Host.Outcome State Fault Refusal := outcome do
  let imm24 ← flowOffset target
  s.pushAndAdvance .cnt (s.target imm24)

/-- CONT (rule R113). -/
def execCont (ccop : CCop) (s : State) : Host.Outcome State Fault Refusal := outcome do
  s.whenCondition ccop (fun s => s.csUnwind .cnt)

end Sys2Proof.Machine
end

