-- ==== Sys2Proof/Machine/Sync.lean ====
section
/-!
DEFINITION. The barrier instructions BAR.RED and BAR.ARV, the barrier release, and the fence MEMBAR.
`spec/41_sync_atomic.md` rules R140 to R144, R153; `spec/10_state.md` rule R35; `spec/20_memory.md` rule R63.
-/

namespace Sys2Proof.Machine

open Sys2Proof

/-! ## Barriers (rules R35, R140 to R143) -/

/-- A release is pending: the expected count is fixed and reached. -/
def Barrier.pending (b : Barrier) : Bool := b.expected == some b.arrived

/-- The count fixed by the first arrival of a generation is this one. -/
def Barrier.agrees (b : Barrier) (n : Nat) : Bool :=
  match b.expected with
  | none => true
  | some m => m == n

/-- Some waiter has a different reduction. -/
def Barrier.redopDiffers (b : Barrier) (redop : RedOp) : Bool := b.waiters.any (fun w => w.redop != redop)

/-- An arrival that does not wait; `who` is the thread with the place of its next access. -/
def Barrier.arrive (b : Barrier) (n : Nat) (who : Nat × Nat) : Barrier :=
  { b with expected := some n, arrived := b.arrived + 1, arrivers := b.arrivers ++ [who] }

/-- An arrival that waits: its vote is added, latest last, and the waiter is listed. -/
def Barrier.join (b : Barrier) (n : Nat) (who : Nat × Nat) (w : Waiter) (vote : Bool) : Barrier :=
  { expected := some n, arrived := b.arrived + 1, votes := b.votes ++ [vote], waiters := b.waiters ++ [w],
    arrivers := b.arrivers ++ [who] }

/-- Replace barrier `b`. -/
def State.setBarrier (s : State) (b : Fin 16) (x : Barrier) : State := { s with barriers := s.barriers.set b.val x }

/-- What an arrival asks for: its barrier, its count, its vote. -/
structure Arrival where
  bar : Fin 16
  count : Nat
  vote : Bool
  deriving DecidableEq, Repr

/-- The checks and reads of BAR.RED before the arrival, in the order of rules R183, R140 and R141. -/
def State.barRedArrival (s : State) (redop : RedOp) (reg0 : RegIdx) (bar : BarSrc) (tcount : CountSrc)
    (c : PredSrc) (p : PredIdx) : Except Stop Arrival := do
  checkFault (redop != .invalid) .illegalEncoding
  checkFault bar.encodable .illegalEncoding
  checkRefuse (redop != .popc || p == pt) .notShown
  checkRefuse (redop == .popc || reg0 == rz) .notShown
  checkRefuse tcount.shown .notShown
  let bv ← s.thread.readBar bar
  let k ← s.thread.readCount tcount
  let v ← s.thread.psrc c
  let b ← barrierOf bv
  checkFault (k == 0 || s.params.countOk k) (.badThreadCount k)
  .ok ⟨b, s.arrivalCount k, v⟩

/-- The checks and reads of BAR.ARV before the arrival, in the order of rules R183, R140 and R142. -/
def State.barArvArrival (s : State) (redop : RedOp) (reg0 : RegIdx) (bar : BarSrc) (tcount : CountSrc)
    (c : PredSrc) (p : PredIdx) : Except Stop Arrival := do
  checkFault (redop != .invalid) .illegalEncoding
  checkFault bar.encodable .illegalEncoding
  checkRefuse (redop == .popc && c == ⟨false, pt⟩ && p == pt) .notShown
  checkRefuse (unusedOk reg0) .notShown
  checkRefuse tcount.shown .notShown
  let bv ← s.thread.readBar bar
  let k ← s.thread.readCount tcount
  let b ← barrierOf bv
  checkFault (k != 0 && s.params.countOk k) (.badThreadCount k)
  .ok ⟨b, k, true⟩

/-- An arrival is held: a release of its barrier is pending. -/
def State.arrivalHeld (s : State) (a : Arrival) : Bool := s.barriers[a.bar].pending

/-- BAR.RED's arrival at a barrier without a pending release: the thread waits, its `pc` not advanced. -/
def State.joinBarrier (s : State) (a : Arrival) (redop : RedOp) (reg0 : RegIdx) (p : PredIdx) :
    Except Stop State := do
  let x := s.barriers[a.bar]
  checkFault (x.agrees a.count) (.barrierMismatch a.bar)
  checkFault (!x.redopDiffers redop) (.barrierMismatch a.bar)
  let s' := s.setBarrier a.bar (x.join a.count (s.index, s.thread.place) ⟨s.index, redop, reg0, p⟩ a.vote)
  .ok { s' with thread := { s.thread with status := .waiting a.bar } }

/-- BAR.ARV's arrival at a barrier without a pending release: the thread goes on. -/
def State.arriveBarrier (s : State) (a : Arrival) : Except Stop State := do
  let x := s.barriers[a.bar]
  checkFault (x.agrees a.count) (.barrierMismatch a.bar)
  .ok (s.setBarrier a.bar (x.arrive a.count (s.index, s.thread.place))).advance

/-- BAR.RED (rule R141). While a release of its barrier is pending the thread is held: nothing changes and
it is tried again (log 12). -/
def execBarRed (redop : RedOp) (reg0 : RegIdx) (bar : BarSrc) (tcount : CountSrc) (c : PredSrc) (p : PredIdx)
    (s : State) : Host.Outcome State Fault Refusal := outcome do
  let a ← s.barRedArrival redop reg0 bar tcount c p
  if s.arrivalHeld a then .ok s else s.joinBarrier a redop reg0 p

/-- BAR.ARV (rule R142), held as BAR.RED is. -/
def execBarArv (redop : RedOp) (reg0 : RegIdx) (bar : BarSrc) (tcount : CountSrc) (c : PredSrc) (p : PredIdx)
    (s : State) : Host.Outcome State Fault Refusal := outcome do
  let a ← s.barArvArrival redop reg0 bar tcount c p
  if s.arrivalHeld a then .ok s else s.arriveBarrier a

/-- BAR.RED has no step now because a release is pending. -/
def barRedHeld (redop : RedOp) (reg0 : RegIdx) (bar : BarSrc) (tcount : CountSrc) (c : PredSrc) (p : PredIdx)
    (s : State) : Bool :=
  match s.barRedArrival redop reg0 bar tcount c p with
  | .ok a => s.arrivalHeld a
  | .error _ => false

/-- BAR.ARV has no step now because a release is pending. -/
def barArvHeld (redop : RedOp) (reg0 : RegIdx) (bar : BarSrc) (tcount : CountSrc) (c : PredSrc) (p : PredIdx)
    (s : State) : Bool :=
  match s.barArvArrival redop reg0 bar tcount c p with
  | .ok a => s.arrivalHeld a
  | .error _ => false

/-! ## The release (rule R143) -/

/-- The number of true entries of `votes`. -/
def countTrue (votes : List Bool) : Nat := (votes.filter id).length

/-- What a released thread gets: its result, status `Running`, and the next `pc`. -/
def Thread.released (t : Thread) (votes : List Bool) (w : Waiter) : Thread :=
  let t' :=
    match w.redop with
    | .popc => t.writeReg w.reg0 (BitVec.ofNat 32 (countTrue votes))
    | .and => t.writePred w.p (votes.all id)
    | .or => t.writePred w.p (votes.any id)
    | .invalid => t
  { t' with status := .running, pc := t.pc + Config.ibytes }

/-- Release one thread of the block if it waits at the barrier. -/
def Barrier.releaseThread (x : Barrier) (i : Nat) (t : Thread) : Thread :=
  match x.waiters.find? (fun w => w.thread == i) with
  | some w => t.released x.votes w
  | none => t

/-- The place of thread `i`'s next access. -/
def State.placeOf (s : State) (i : Nat) : Nat :=
  match s.threadList[i]? with
  | some t => t.place
  | none => 0

/-- The release of barrier `b`: one transition of the block over all its waiters, and its event. -/
def State.releaseBarrier (s : State) (b : Fin 16) : State :=
  let x := s.barriers[b]
  ((s.mapThreads x.releaseThread).setBarrier b Barrier.idle).addEvent
    (.release b x.arrivers (x.waiters.map (fun w => (w.thread, s.placeOf w.thread))))

/-! ## MEMBAR (rule R144) -/

/-- MEMBAR: the event of a fence of its level, at the place of the thread's next access, and nothing else. -/
def execMembar (lvl : Lvl) (s : State) : Host.Outcome State Fault Refusal := outcome do
  checkFault (lvl != .invalid) .illegalEncoding
  .ok (s.addEvent (.fence s.index s.thread.place lvl)).advance

end Sys2Proof.Machine
end

