-- ==== Sys2Proof/Machine/Vote.lean ====
section
/-!
DEFINITION. VOTE. `spec/41_sync_atomic.md` rule R150; the vote group is `spec/10_state.md` rule R39.
-/

namespace Sys2Proof.Machine

open Sys2Proof

/-! ## The vote group (rule R39) -/

/-- The vote group of a thread. -/
def Params.groupOf (ps : Params) (i : Nat) : Nat := i / ps.warpSize

/-- The lane of a thread. -/
def Params.laneOf (ps : Params) (i : Nat) : Nat := i % ps.warpSize

/-- Thread `i` takes part in a vote of the stepping thread: same group and not exited. -/
def State.votes (s : State) (i : Nat) (t : Thread) : Bool :=
  s.params.groupOf i == s.params.groupOf s.index && t.status != .exited

/-- The threads of the set `S` of rule R150, with their indices, in index order. -/
def State.voters (s : State) : List (Nat × Thread) :=
  (s.threadList.mapIdx (fun i t => (i, t))).filter (fun p => s.votes p.1 p.2)

/-- Every thread of `S` is `Running` with this instruction next: the code is one, so the same `pc` is the
same word (rule R150). -/
def State.assembled (s : State) : Bool :=
  s.voters.all (fun p => p.2.status == .running && p.2.pc == s.thread.pc)

/-! ## The result -/

/-- The reduction over the threads' values. -/
def voteResult (mode : VoteMode) (vs : List Bool) : Bool :=
  match mode with
  | .all => vs.all id
  | .any => vs.any id
  | .eq => vs.all id || vs.all (fun v => !v)
  | _ => false

/-- The 32-bit mask with the bit of each voting lane that is true (log 18). -/
def State.ballot (s : State) (p1 : PredSrc) : Word :=
  s.voters.foldl (fun m p => if p.2.psrcValue p1 then m ||| (1#32 <<< s.params.laneOf p.1) else m) 0#32

/-- What a voting thread gets: `P[p0]`, `R[reg0]` and the next `pc`. -/
def Thread.voted (t : Thread) (p0 : PredIdx) (r : Bool) (reg0 : RegIdx) (ballot : Word) : Thread :=
  let t' := (t.writePred p0 r).writeReg reg0 ballot
  { t' with pc := t.pc + Config.ibytes }

/-- The vote: one transition of all participants. -/
def State.castVote (s : State) (mode : VoteMode) (reg0 : RegIdx) (p1 : PredSrc) (p0 : PredIdx) : State :=
  let r := voteResult mode (s.voters.map (fun p => p.2.psrcValue p1))
  let ballot := s.ballot p1
  s.mapThreads (fun i t => if s.votes i t then t.voted p0 r reg0 ballot else t)

/-! ## The instruction -/

/-- The refusals of a VOTE, which depend on the word alone (rule R150). -/
def voteForm (mode : VoteMode) (reg0 : RegIdx) (imm28 : BitVec 28) : Except Stop Unit := do
  checkRefuse (mode != .vtgR && mode != .vtgA && mode != .vtgRA) .unconfirmed
  checkRefuse (mode == .all || mode == .any || mode == .eq) .notShown
  checkRefuse (mode == .any || reg0 == rz) .notShown
  checkRefuse (imm28 == 0#28) .notShown

/-- The fault that reading `p1` raises in a thread, if any. -/
def Thread.voteFault (t : Thread) (p1 : PredSrc) : Option Stop :=
  match t.psrc p1 with
  | .ok _ => none
  | .error e => some e

/-- The first thread of `S` whose `p1` faults, with its `pc` and the fault. -/
def State.failedVoter (s : State) (p1 : PredSrc) : Option (Nat × CodeAddr × Stop) :=
  s.voters.findSome? (fun p => (p.2.voteFault p1).map (fun e => (p.1, p.2.pc, e)))

/-- Record the fault of another thread of the group, which stops; nothing is written in any thread
(rule R150; log 13). -/
def State.stopVoter (s : State) (i : Nat) (pc : CodeAddr) (word : InstrWord) (e : Stop) : State :=
  (s.mapThreads (fun k t => if k = i then { t with status := e.status } else t)).addRecord i pc (some word) e

/-- VOTE (rule R150). While its group is not assembled the thread has no step: nothing changes and it is
tried again (log 12). -/
def execVote (mode : VoteMode) (reg0 : RegIdx) (p1 : PredSrc) (imm28 : BitVec 28) (p0 : PredIdx) (s : State) :
    Host.Outcome State Fault Refusal := outcome do
  voteForm mode reg0 imm28
  if s.assembled then
    let _ ← s.thread.psrc p1
    match s.failedVoter p1 with
    | some (i, pc, e) => .ok (s.stopVoter i pc (encode (.vote mode reg0 p1 imm28 p0)) e)
    | none => .ok (s.castVote mode reg0 p1 p0)
  else .ok s

/-- VOTE has no step now because its group is not assembled. -/
def voteHeld (mode : VoteMode) (reg0 : RegIdx) (imm28 : BitVec 28) (s : State) : Bool :=
  match voteForm mode reg0 imm28 with
  | .ok _ => !s.assembled
  | .error _ => false

end Sys2Proof.Machine
end

