-- ==== Sys2Proof/Machine/Dispatch.lean ====
section
/-!
DEFINITION. `exec`: what each instruction does to the state, for the thread that steps.
-/

namespace Sys2Proof.Machine

open Sys2Proof

def exec (i : Instr) (s : State) : Host.Outcome State Fault Refusal :=
  match i with
  | .ssy target => Sys2Proof.Machine.execSsy target s
  | .bra ccop u lmt target => Sys2Proof.Machine.execBra ccop u lmt target s
  | .cal noinc target => Sys2Proof.Machine.execCal noinc target s
  | .pret noinc target => Sys2Proof.Machine.execPret noinc target s
  | .ret ccop => Sys2Proof.Machine.execRet ccop s
  | .exit ccop => Sys2Proof.Machine.execExit ccop s
  | .nop ccop join trig op imm16 => Sys2Proof.Machine.execNop ccop join trig op imm16 s
  | .pbk target => Sys2Proof.Machine.execPbk target s
  | .brk ccop => Sys2Proof.Machine.execBrk ccop s
  | .pcnt target => Sys2Proof.Machine.execPcnt target s
  | .cont ccop => Sys2Proof.Machine.execCont ccop s
  | .barRed redop reg0 bar tcount c p => Sys2Proof.Machine.execBarRed redop reg0 bar tcount c p s
  | .barArv redop reg0 bar tcount c p => Sys2Proof.Machine.execBarArv redop reg0 bar tcount c p s
  | .membar lvl => Sys2Proof.Machine.execMembar lvl s
  | .atom op ty e reg3 reg1 imm20 reg0 reg4 => Sys2Proof.Machine.execAtom op ty e reg3 reg1 imm20 reg0 reg4 s
  | .red op ty e reg1 imm32 reg0 => Sys2Proof.Machine.execRed op ty e reg1 imm32 reg0 s
  | .vote mode reg0 p1 imm28 p0 => Sys2Proof.Machine.execVote mode reg0 p1 imm28 p0 s

end Sys2Proof.Machine
end

