-- ==== Sys2Proof/Machine/Order.lean ====
section
/-!
DEFINITION. The memory ordering of `spec/20_memory.md` rules R58, R59 and R63: which accesses it orders, and whether
an order of accesses is one that rule R58 (a) allows, said over the event history, whose accesses stand in the total
order of rule R58 (a). How an access comes to its place in it is in `Machine/Schedule.lean` and `Machine/Plan.lean`
(log 14).
-/

namespace Sys2Proof.Machine

open Sys2Proof

/-! ## What is ordered -/

/-- Who observes an order (rule R59): a thread of the block, a thread of the launch, or any other agent. -/
inductive Observer where
  | block | launch | outside
  deriving DecidableEq, Repr

/-- The observers for whom a fence of a level orders (rule R59); the invalid level never fences. -/
def fenceCovers : Lvl → Observer → Bool
  | .cta, .block => true
  | .gl, .block | .gl, .launch => true
  | .sys, _ => true
  | _, _ => false

/-- Two ranges of bytes have one in common. -/
def rangesMeet (a n b m : Nat) : Bool := decide (a < b + m ∧ b < a + n)

/-- A fence of thread `t` stands between its accesses at places `p` and `q` and orders for the observer (rule
R59). -/
def fenceBetween (h : List Event) (o : Observer) (t p q : Nat) : Bool :=
  h.any (fun e =>
    match e with
    | .fence u m lvl => u == t && fenceCovers lvl o && decide (p < m ∧ m ≤ q)
    | _ => false)

/-- A barrier release stands between the access of thread `t` at place `p`, executed before it arrived, and the
access of thread `u` at place `q`, executed after it was released (rule R63). -/
def releaseBetween (h : List Event) (t p u q : Nat) : Bool :=
  h.any (fun e =>
    match e with
    | .release _ arrived released =>
      arrived.any (fun x => x.1 == t && decide (p < x.2)) && released.any (fun y => y.1 == u && decide (y.2 ≤ q))
    | _ => false)

/-- Rule R58 guarantees the observer that the first access comes before the second: one thread executed both in
this order, and they touch a common byte (b) or a fence stands between (c); or a barrier release separates them
(c). -/
def guaranteed (h : List Event) (o : Observer) : Event → Event → Bool
  | .access t p a n _ _, .access u q b m _ _ =>
    (t == u && decide (p < q) && (rangesMeet a n b m || fenceBetween h o t p q)) || releaseBetween h t p u q
  | _, _ => false

/-- The accesses of a history (latest first) stand in an order that keeps every guarantee. -/
def orderKept (h : List Event) (o : Observer) : Prop :=
  h.Pairwise (fun later earlier => guaranteed h o later earlier = false)

/-! ## What is read -/

/-- The bytes of `GMem` after a history (latest first) that began at the launch memory: what each access wrote, in
their total order (rule R58(a)). -/
def replay (m : List Host.Cell) : List Event → List Host.Cell
  | [] => m
  | .access _ _ a n _ new :: rest => Memory.write (replay m rest) a n new
  | .fence _ _ _ :: rest => replay m rest
  | .release _ _ _ :: rest => replay m rest

/-- Every access of a history (latest first) read what the accesses before it in the order left (rule R58(a),
(d)): the order is complete. -/
def readsCoherent (m : List Host.Cell) : List Event → Bool
  | [] => true
  | .access _ _ a n old _ :: rest => old == Memory.read (replay m rest) a n && readsCoherent m rest
  | .fence _ _ _ :: rest => readsCoherent m rest
  | .release _ _ _ :: rest => readsCoherent m rest

/-- The total order of rule R58 (a) is complete: no access waits for one to come that gives it the value it read. -/
def State.coherent (s : State) : Bool := readsCoherent s.params.launchMem s.history

end Sys2Proof.Machine
end

