-- ==== Sys2Proof/Machine/Schedule.lean ====
section
/-!
DEFINITION. Which transitions are enabled, where an access may stand in the memory order, and the end of a run.
`spec/10_state.md` rules R20, R21; `spec/20_memory.md` rule R58; `spec/41_sync_atomic.md` rules R141, R143, R150;
`spec/60_exceptions.md` rule R184; `spec/70_reset_and_hazards.md` rules R203, R204.
-/

namespace Sys2Proof.Machine

open Sys2Proof

/-! ## Held instructions -/

/-- The instruction has no step now: a BAR while a release is pending, a VOTE while its group is not assembled
(rule R203). -/
def holds (i : Instr) (s : State) : Bool :=
  match i with
  | .ssy _ => false
  | .bra _ _ _ _ => false
  | .cal _ _ => false
  | .pret _ _ => false
  | .ret _ => false
  | .exit _ => false
  | .nop _ _ _ _ _ => false
  | .pbk _ => false
  | .brk _ => false
  | .pcnt _ => false
  | .cont _ => false
  | .barRed redop reg0 bar tcount c p => barRedHeld redop reg0 bar tcount c p s
  | .barArv redop reg0 bar tcount c p => barArvHeld redop reg0 bar tcount c p s
  | .membar _ => false
  | .atom _ _ _ _ _ _ _ _ => false
  | .red _ _ _ _ _ _ => false
  | .vote mode reg0 _ imm28 _ => voteHeld mode reg0 imm28 s

/-- The instruction the thread that steps fetches, if there is one. -/
def State.nextInstr (s : State) : Option Instr :=
  match s.fetch with
  | .error _ => none
  | .ok w =>
    match decodeOrRefuse w with
    | .error _ => none
    | .ok i => some i

/-- The thread that steps stands before an instruction that has no step now. A bad fetch or word is a step: it
stops the thread. -/
def State.held (s : State) : Bool :=
  match s.nextInstr with
  | none => false
  | some i => holds i s

/-! ## Where an access may stand (rule R58; log 14) -/

/-- The access an instruction makes; none where it makes none or stops before it. -/
def accessOf (i : Instr) (s : State) : Option Access :=
  match i with
  | .ssy _ => none
  | .bra _ _ _ _ => none
  | .cal _ _ => none
  | .pret _ _ => none
  | .ret _ => none
  | .exit _ => none
  | .nop _ _ _ _ _ => none
  | .pbk _ => none
  | .brk _ => none
  | .pcnt _ => none
  | .cont _ => none
  | .barRed _ _ _ _ _ _ => none
  | .barArv _ _ _ _ _ _ => none
  | .membar _ => none
  | .atom op ty e reg3 reg1 imm20 reg0 reg4 => (s.atomRequest op ty e reg3 reg1 imm20 reg0 reg4).toOption
  | .red op ty e reg1 imm32 reg0 => (s.redRequest op ty e reg1 imm32 reg0).toOption
  | .vote _ _ _ _ _ => none

/-- The access the thread that steps makes next. -/
def State.nextAccess (s : State) : Option Access :=
  match s.nextInstr with
  | none => none
  | some i => accessOf i s

/-- An access of the thread that steps may stand before the last `k` events: rule R58 guarantees of none of them that
it comes before. -/
def State.mayStand (s : State) (x : Access) (k : Nat) : Bool :=
  (s.history.take k).all fun e =>
    !guaranteed s.history .block e (.access s.index s.thread.place x.addr x.bytes 0#64 0#64)

/-! ## Enabled transitions (rule R184) -/

/-- The thread that steps can step: it is `Running` (rule R21) and not held. -/
def State.canStep (s : State) : Bool := s.thread.status == .running && !s.held

/-- The thread that steps can make its access before the last `k` events: it is `Running`, `MemModel` is at its
default, and the access may stand there. -/
def State.canPlace (s : State) (k : Nat) : Bool :=
  s.params.memModel == .relaxed && s.thread.status == .running &&
    (match s.nextAccess with
     | none => false
     | some x => s.mayStand x k)

/-- The state in which a choice acts: its thread is the one that steps, with the place of its access. -/
def State.ready (s : State) : Choice → State
  | .thread i => { s.focus i with placing := none }
  | .placed i k v => { s.focus i with placing := some ⟨k, v⟩ }
  | .release _ => s

/-- A choice is enabled. -/
def State.enabled (s : State) : Choice → Bool
  | .thread i => decide (i < s.blockSize) && (s.ready (.thread i)).canStep
  | .placed i k v => decide (i < s.blockSize) && (s.ready (.placed i k v)).canPlace k
  | .release b => s.barriers[b].pending

/-- The choices that place no access. -/
def State.plainChoices (s : State) : List Choice :=
  (List.finRange 16).map Choice.release ++ (List.range s.blockSize).map Choice.thread

/-- The enabled ones of them. -/
def State.menu (s : State) : List Choice := s.plainChoices.filter s.enabled

/-- Some thread's next step is an access that may be placed. -/
def State.accessNext (s : State) : Bool :=
  (List.range s.blockSize).any (fun i => s.enabled (.placed i 0 0#64))

/-- The first enabled choice of a schedule, and the schedule after it. -/
def State.firstEnabled (s : State) : List Choice → Option (Choice × List Choice)
  | [] => none
  | c :: rest => if s.enabled c then some (c, rest) else s.firstEnabled rest

/-- The state in which the next choice acts, with the schedule after it and the step counted. -/
def State.begin (s : State) (c : Choice) (rest : List Choice) : State :=
  { s.ready c with schedule := rest, tick := s.tick + 1 }

/-! ## The end of a run (rule R204) -/

/-- Every thread has exited. -/
def State.allExited (s : State) : Bool := s.threadList.all (fun t => t.status == .exited)

/-- The run is finished: every thread has exited and no fault or refusal is recorded. -/
def State.finished (s : State) : Bool := s.allExited && s.record.isEmpty

/-- Why nothing is enabled: the run is finished; or every thread has stopped and the run has no answer; or it is
stuck. -/
def State.endReason (s : State) : Fault :=
  if s.finished then .finished else if s.threadList.all (fun t => t.status.stopped) then .noAnswer else .stuck

/-- The answer of a run: the final `GMem`, if the run is finished. -/
def State.answer (s : State) : Option (List Host.Cell) := if s.finished then some s.gmem else none

end Sys2Proof.Machine
end

