-- ==== Sys2Proof/Machine/Plan.lean ====
section
/-!
DEFINITION. What a choice does, which choices complete the memory order, and what the machine does next.
`spec/10_state.md` rule R20; `spec/20_memory.md` rule R58; `spec/60_exceptions.md` rules R180, R181, R184;
`spec/70_reset_and_hazards.md` rule R203 (logs 1, 11, 14).
-/

namespace Sys2Proof.Machine

open Sys2Proof

/-- The step of the thread in `State.thread`. -/
def State.stepThread (s : State) : State :=
  match s.fetch with
  | .error e => s.stopThread none e
  | .ok w =>
    match decodeOrRefuse w with
    | .error e => s.stopThread (some w) e
    | .ok i =>
      match exec i s with
      | .next s' => s'
      | .fault r => s.stopThread (some w) (.fault r)
      | .refused r => s.stopThread (some w) (.refusal r)

/-- What a choice does, in the state in which it acts. -/
def State.act (s : State) (c : Choice) : State :=
  match c with
  | .thread _ => s.stepThread
  | .placed _ _ _ => s.stepThread
  | .release b => s.releaseBarrier b

/-- The choices can be made one after the other, and the memory order is complete after them: every access has read
what the one before it on those bytes wrote (rule R58 (a)). -/
def State.completes (s : State) : List Choice → Bool
  | [] => s.coherent
  | c :: rest => s.enabled c && ((s.begin c rest).act c).completes rest

/-- The next choice where a plan is proposed, and the choices fixed after it: the plan's, where it completes the memory
order; else the first choice that is enabled. Where there is only one choice it is taken without the plan. -/
def State.chooseFrom (s : State) (plan : List Choice) : Option (Choice × List Choice) :=
  match s.menu with
  | [] => none
  | c :: others =>
    if others.isEmpty && !s.accessNext then some (c, [])
    else
      match plan with
      | [] => some (c, [])
      | d :: rest => if s.completes (d :: rest) then some (d, rest) else some (c, [])

/-- The next choice, and the schedule after it: the first enabled one of the schedule, else one from what the free value
proposes (log 1). -/
def State.nextChoice (s : State) : Option (Choice × List Choice) :=
  match s.firstEnabled s.schedule with
  | some (c, rest) => some (c, rest)
  | none => s.chooseFrom (Config.pick s.tick)

end Sys2Proof.Machine
end

