-- ==== Sys2Proof/Machine/Step.lean ====
section
/-!
DEFINITION. One step of the machine: a thread's instruction, a vote or a barrier release (`spec/60_exceptions.md` rule
R184). A fault or refusal of an instruction stops that thread and is recorded, and the other threads go on (rules R21,
R180, R181; log 11).
-/

namespace Sys2Proof.Machine

open Sys2Proof

/-- One step: the next choice acts. Where nothing is enabled the run has ended (rule R204). -/
def step (s : State) : Host.Outcome State Fault Refusal :=
  match s.nextChoice with
  | none => .fault s.endReason
  | some (c, rest) => .next ((s.begin c rest).act c)

/-- Put the bytes of a word into the code space from `a` up, lowest first (rule R51). -/
def placeWord (a : Nat) (bs : List Byte) (code : List Host.Cell) : List Host.Cell :=
  match bs with
  | [] => code
  | b :: rest => cellsInsert a b (placeWord (a + 1) rest code)

/-- The state with a word, numbered as the opcode table numbers it, where the next step fetches: at the `pc`
of the thread in `State.thread`, which the schedule names next (log 6). A `pc` where no instruction can stand
becomes 0. -/
def State.withFetchWord (s : State) (nbits w : Nat) : State :=
  let pc : CodeAddr := if s.params.fetchable s.thread.pc then s.thread.pc else 0
  { s with
    thread := { s.thread with pc := pc, status := .running }
    code := placeWord pc.toNat (bytesOfWord 8 (BitVec.ofNat 64 (w % 2 ^ nbits))) s.code
    schedule := .thread s.index :: s.schedule }

end Sys2Proof.Machine
end

