-- ==== Sys2Proof/Safety.lean ====
section
/-!
DEFINITION. What counts as a safe run, and the premises a program owes where the thread-level model departs
from the hardware. `spec/60_exceptions.md` rule R182; `spec/40_execution_control.md` rule R104 (`.U`);
`spec/41_sync_atomic.md` rules R143, R150.
-/

namespace Sys2Proof.Safety

open Sys2Proof Sys2Proof.Machine

/-- No fault and no refusal is recorded: no claim holds of a run that reaches one (rule R182). -/
def clean (s : State) : Bool := s.record.isEmpty

/-- The run is over with an answer (rule R204). -/
def finishedCleanly (s : State) : Bool := s.finished

/-! ## A run -/

/-- The next choice is a thread's step, and this is the state in which it acts. -/
def threadMoves (s u : State) : Prop :=
  ∃ c rest, s.nextChoice = some (c, rest) ∧ ((∃ i, c = .thread i) ∨ ∃ i k v, c = .placed i k v) ∧ u = s.begin c rest

/-- The state after `n` steps, where the run from `s` goes so far. -/
def stateAfter (s : State) : Nat → Option State
  | 0 => some s
  | n + 1 =>
    match stateAfter s n with
    | none => none
    | some t =>
      match step t with
      | .next u => some u
      | .fault _ => none
      | .refused _ => none

/-- A thread's step of the run from `s` acts in `u`: its thread is `Running` and executes what stands at its `pc`. -/
def runMoves (s u : State) : Prop := ∃ n t, stateAfter s n = some t ∧ threadMoves t u

/-! ## What a program owes of a run -/

/-- The premise of BRA `.U` (rule R104): every running thread of a vote group that executes this instruction, at
whatever step of the run, computes the same condition. An obligation of the program, never assumed by `exec`. -/
def uniformBranches (s : State) : Prop :=
  ∀ (u v : State) (ccop : CCop) (imm24 : BitVec 24), runMoves s u → runMoves s v →
    u.nextInstr = some (.bra ccop true false (.rel imm24)) → v.thread.pc = u.thread.pc →
    u.params.groupOf v.index = u.params.groupOf u.index → v.thread.condition ccop = u.thread.condition ccop

/-- The vote group is converged: its running threads all stand at the stepping thread's `pc` (the premises
of rules R143 and R150 for BAR and VOTE). -/
def groupConverged (s : State) : Bool :=
  s.voters.all (fun p => p.2.status != .running || p.2.pc == s.thread.pc)

/-- The instruction is one whose vote group is converged where it executes. -/
def needsConvergence : Instr → Bool
  | .barRed _ _ _ _ _ _ => true
  | .barArv _ _ _ _ _ _ => true
  | .vote _ _ _ _ _ => true
  | _ => false

/-- What a program owes of the run from a state: the premises of rules R104, R143 and R150. -/
structure Premises (s : State) : Prop where
  /-- Every BRA `.U` is uniform. -/
  uniform : uniformBranches s
  /-- The vote group is converged at every BAR and VOTE that executes. -/
  converged : ∀ u i, runMoves s u → u.nextInstr = some i → needsConvergence i = true → groupConverged u = true

/-- The run from a state is safe: nothing is ever recorded, and the program's premises hold. -/
def safe (s : State) : Prop := (∀ n t, stateAfter s n = some t → clean t = true) ∧ Premises s

/-! ## Invariants of the machine -/

/-- Everything of a state but which thread stands in `State.thread` and the model's own fields about what comes next:
what beginning a step keeps. -/
structure SameMachine (s t : State) : Prop where
  threads : t.threadList = s.threadList
  barriers : t.barriers = s.barriers
  gmem : t.gmem = s.gmem
  code : t.code = s.code
  history : t.history = s.history
  record : t.record = s.record
  params : t.params = s.params

/-- `GMem` and the code space are in canonical form. -/
def memoryCanonical (s : State) : Prop := Memory.wf s.gmem = true ∧ cellsRising s.code = true

/-- Every byte of `GMem` is what the recorded accesses, in their total order, left of the launch memory; and the
choices already fixed complete that order: after them every access has read what the ones before it left (rule
R58(a), (d)). -/
def historyCoherent (s : State) : Prop :=
  (∀ a, Memory.readByte s.gmem a = Memory.readByte (replay s.params.launchMem s.history) a) ∧
    s.completes s.schedule = true

/-- The counts of one barrier agree (rule R35): as many votes as waiters, at most as many as arrivals, each arrival
listed; an idle barrier has no arrival, another one between one and its expected count. -/
def barrierCounts (b : Barrier) : Prop :=
  b.votes.length = b.waiters.length ∧ b.waiters.length ≤ b.arrived ∧ b.arrivers.length = b.arrived ∧
    match b.expected with
    | none => b.arrived = 0
    | some n => 0 < b.arrived ∧ b.arrived ≤ n

/-- The counts of every barrier agree. -/
def countsAgree (s : State) : Prop := ∀ b : Fin 16, barrierCounts s.barriers[b]

/-- The waiters of a barrier are exactly the threads whose status says so, each once (rules R21, R35). -/
def waitersWait (s : State) : Prop :=
  ∀ b : Fin 16, (s.barriers[b].waiters.map Waiter.thread).Nodup ∧
    ∀ i : Nat, (∃ w ∈ s.barriers[b].waiters, w.thread = i) ↔
      (∃ t, s.threadList[i]? = some t ∧ t.status = .waiting b)

/-- A thread has a recorded outcome exactly where its status says which (rules R21, R180, R181). -/
def recordAgrees (s : State) : Prop :=
  ∀ (i : Nat) (e : Stop), (∃ t, s.threadList[i]? = some t ∧ t.status = e.status) ↔
    (∃ r ∈ s.record, r.thread = i ∧ r.stop = e)

/-- The places of the events agree with the threads, and the total order of the accesses so far keeps every guarantee
of rules R58, R59 and R63. -/
structure MemoryOrder (s : State) : Prop where
  /-- The accesses stand in an order that keeps every guarantee, for every observer. -/
  kept : ∀ o, orderKept s.history o
  /-- An access has a place below its thread's next one. -/
  accesses : ∀ i p a n old new, Event.access i p a n old new ∈ s.history →
    ∃ t, s.threadList[i]? = some t ∧ p < t.place
  /-- A fence stands at or below its thread's next place. -/
  fences : ∀ i t, s.threadList[i]? = some t → ∀ m lvl, Event.fence i m lvl ∈ s.history → m ≤ t.place
  /-- What a released thread had executed, and what an arriver had executed, at a release. -/
  releases : ∀ b arrived released, Event.release b arrived released ∈ s.history → ∀ i t, s.threadList[i]? = some t →
    (∀ q, (i, q) ∈ released → q ≤ t.place) ∧ ∀ q, (i, q) ∈ arrived → q ≤ t.place
  /-- What an arriver had executed when it arrived. -/
  arrivals : ∀ (b : Fin 16) i t q, s.threadList[i]? = some t → (i, q) ∈ s.barriers[b].arrivers → q ≤ t.place

/-- `MemModel` is the stronger reading, and each thread's accesses stand in program order (rule R58). -/
def sequentialOrder (s : State) : Prop :=
  s.params.memModel = .sequential ∧
    (∀ i p a n old new, Event.access i p a n old new ∈ s.history → ∃ t, s.threadList[i]? = some t ∧ p < t.place) ∧
    s.history.Pairwise (fun later earlier => ∀ i p a n x y q b m u v, later = .access i p a n x y →
      earlier = .access i q b m u v → q < p)

/-! ## The opcode table, as the spec prints it -/

/-- A row of `spec/opcode_table.json`: the identifying bits and the identifying and fixed bits (rule R89). -/
structure TableRow where
  mnemonic : String
  mask : InstrWord
  value : InstrWord
  strictMask : InstrWord
  strictValue : InstrWord
  deriving DecidableEq, Repr

/-- The masks of `spec/opcode_table.json` (`spec/95_test_vectors.md` section 2.2), in its order. -/
def opcodeTable : List TableRow :=
  [ ⟨"SSY", 0xFC0000000000000F#64, 0x6000000000000007#64, 0xFFFC000003FFBFFF#64, 0x6000000000000007#64⟩
  , ⟨"BRA", 0xFC0000000000000F#64, 0x4000000000000007#64, 0xFFFC000003FE3C1F#64, 0x4000000000001C07#64⟩
  , ⟨"CAL", 0xFC0000000000000F#64, 0x5000000000000007#64, 0xFFFC000003FEBFFF#64, 0x5000000000000007#64⟩
  , ⟨"PRET", 0xFC0000000000000F#64, 0x7800000000000007#64, 0xFFFC000003FF3FFF#64, 0x7800000000000007#64⟩
  , ⟨"RET", 0xFC0000000000000F#64, 0x9000000000000007#64, 0xFFFFFFFFFFFFFC1F#64, 0x9000000000001C07#64⟩
  , ⟨"EXIT", 0xFC0000000000000F#64, 0x8000000000000007#64, 0xFFFFFFFFFFFFFC1F#64, 0x8000000000001C07#64⟩
  , ⟨"NOP", 0xFC0000000000000F#64, 0x4000000000000004#64, 0xFF83FC0003FFFC0F#64, 0x4000000000001C04#64⟩
  , ⟨"PBK", 0xFC0000000000000F#64, 0x6800000000000007#64, 0xFFFC000003FFBFFF#64, 0x6800000000001C07#64⟩
  , ⟨"BRK", 0xFC0000000000000F#64, 0xA800000000000007#64, 0xFFFFFFFFFFFFFC1F#64, 0xA800000000001C07#64⟩
  , ⟨"PCNT", 0xFC0000000000000F#64, 0x7000000000000007#64, 0xFFFC000003FFBFFF#64, 0x7000000000001C07#64⟩
  , ⟨"CONT", 0xFC0000000000000F#64, 0xB000000000000007#64, 0xFFFFFFFFFFFFFC1F#64, 0xB000000000001C07#64⟩
  , ⟨"BAR.RED", 0xFC0000000000008F#64, 0x5000000000000004#64, 0xFF013FC000003F9F#64, 0x5000000000001C04#64⟩
  , ⟨"BAR.ARV", 0xFC0000000000008F#64, 0x5000000000000084#64, 0xFF013FC000003F9F#64, 0x5000000000001C84#64⟩
  , ⟨"MEMBAR", 0xFC0000000000000F#64, 0xE000000000000005#64, 0xFFFFFFFFFFFFFF9F#64, 0xE000000000001C05#64⟩
  , ⟨"ATOM", 0xC00000000000000F#64, 0x4000000000000005#64, 0xC000000000003C1F#64, 0x4000000000001C05#64⟩
  , ⟨"RED", 0xC00000000000000F#64, 0x0000000000000005#64, 0xC000000000003C1F#64, 0x0000000000001C05#64⟩
  , ⟨"VOTE", 0xFC0000000000000F#64, 0x4800000000000004#64, 0xFE00000003003F1F#64, 0x4800000000001C04#64⟩ ]

/-- A word of the row with a fixed bit not as drawn has no instruction (rule R91). -/
def fixedBitsRefused (mnemonic : String) : Prop :=
  ∀ row ∈ opcodeTable, row.mnemonic = mnemonic → ∀ w : InstrWord, w &&& row.mask = row.value →
    w &&& row.strictMask ≠ row.strictValue → decode w = .error .notShown

/-- A field value at its place in the word, lowest bit at `lo` (rule R6). -/
def placed {n : Nat} (lo : Nat) (v : BitVec n) : InstrWord := v.setWidth 64 <<< lo

/-! ## Conditions that statements name -/

/-- The condition test has an answer: it does not read `CC`, or `CC` holds a value (rule R31). -/
def conditionKnown (ccop : CCop) (t : Thread) : Prop := ccop = .t ∨ ccop = .f ∨ Source.cc ∉ t.unwritten

/-- The control stack is not `CSDepth` deep yet (rule R33). -/
def stackHasRoom (s : State) : Prop := ∀ d, s.params.csDepth = some d → s.thread.cs.length < d

/-- The `n` bytes from `a` up lie inside one allocated range (rule R56). -/
def allocated (s : State) (a n : Nat) : Prop := ∃ r ∈ s.params.allocated, r.base ≤ a ∧ a + n ≤ r.base + r.size

/-- The thread that steps is `Running` and fetches this word. -/
def fetches (s : State) (w : InstrWord) : Prop :=
  s.thread.status = .running ∧ s.params.fetchable s.thread.pc = true ∧
    ∃ bs, codeBytes s.code s.thread.pc.toNat 8 = some bs ∧ wordOfBytes bs = w

/-! ## What an atomic access needs -/

/-- The fields and registers of an ATOM are such that it reaches its access, with this offset (rules R145,
R146, R148). -/
def atomReady (op : AtomOp) (ty : AtomType) (e : Bool) (reg3 reg1 : RegIdx) (imm20 : BitVec 20)
    (reg0 reg4 : RegIdx) (off : Wide) (s : State) : Prop :=
  admittedPair op ty = true ∧ reg4Ok op ty reg0 reg4 = true ∧ s.atomOffset imm20 = .ok off ∧
    operandOk e reg1 = true ∧ operandOk ty.isWide reg0 = true ∧
    (op = .cas → operandOk ty.isWide reg4 = true) ∧ operandOk ty.isWide reg3 = true ∧
    s.thread.operandReadable e reg1 = true ∧ s.thread.operandReadable ty.isWide reg0 = true ∧
    (op = .cas → s.thread.operandReadable ty.isWide reg4 = true)

/-- The fields and registers of a RED are such that it reaches its access, with this offset (rules R145, R146,
R149). -/
def redReady (op : AtomOp) (ty : AtomType) (e : Bool) (reg1 : RegIdx) (imm32 : BitVec 32) (reg0 : RegIdx)
    (off : Wide) (s : State) : Prop :=
  admittedPair op ty = true ∧ op ≠ .exch ∧ op ≠ .cas ∧ s.redOffset e imm32 = .ok off ∧
    operandOk e reg1 = true ∧ operandOk ty.isWide reg0 = true ∧
    s.thread.operandReadable e reg1 = true ∧ s.thread.operandReadable ty.isWide reg0 = true

/-- What a byte of `GMem` is after an access of `n` bytes at `a` that writes `new` and stands before the last `k` events
of the order: of its bytes, those that no later access touches are written; every other byte is as before. -/
def showsUnder (s : State) (m : List Host.Cell) (k a n : Nat) (new : Wide) : Prop :=
  (∀ j, j < n → (s.history.take k).any (Event.touches (a + j)) = false →
    Memory.readByte m (a + j) = new.extractLsb' (8 * j) 8) ∧
  ∀ x, x < a ∨ a + n ≤ x ∨ (s.history.take k).any (Event.touches x) = true →
    Memory.readByte m x = Memory.readByte s.gmem x

/-! ## What is unwritten first (rules R181, R183) -/

/-- The register, if it is unwritten. -/
def missingReg (t : Thread) (i : RegIdx) : Option Source :=
  if h : i.toNat < 63 then (if Source.reg ⟨i.toNat, h⟩ ∈ t.unwritten then some (.reg ⟨i.toNat, h⟩) else none) else none

/-- The predicate, if it is unwritten. -/
def missingPred (t : Thread) (i : PredIdx) : Option Source :=
  if h : i.toNat < 7 then (if Source.pred ⟨i.toNat, h⟩ ∈ t.unwritten then some (.pred ⟨i.toNat, h⟩) else none) else none

/-- The first unwritten register of a 32-bit or 64-bit operand, low half first (log 16). -/
def missingOperand (t : Thread) (wide : Bool) (i : RegIdx) : Option Source :=
  if wide = true ∧ i ≠ rz then (missingReg t i).or (missingReg t (i + 1#6)) else missingReg t i

/-- The register of a barrier operand, if it is unwritten. -/
def missingBar (t : Thread) : BarSrc → Option Source
  | .reg r => missingReg t r
  | .imm _ => none

/-- The register of a count, if it is unwritten. -/
def missingCount (t : Thread) : CountSrc → Option Source
  | .reg r _ => missingReg t r
  | .imm _ => none

/-! ## What an arrival needs -/

/-- The fields and registers of a BAR.RED are such that it arrives: barrier `b`, count operand `k` (rules R140,
R141). -/
def barRedReady (redop : RedOp) (reg0 : RegIdx) (bar : BarSrc) (tcount : CountSrc) (c : PredSrc) (p : PredIdx)
    (b : Fin 16) (k : Nat) (s : State) : Prop :=
  redop ≠ .invalid ∧ bar.encodable = true ∧ (redop = .popc → p = pt) ∧ (redop ≠ .popc → reg0 = rz) ∧
    tcount.shown = true ∧ s.thread.barReadable bar = true ∧ s.thread.countReadable tcount = true ∧
    s.thread.psrcReadable c = true ∧ s.thread.barValue bar = b.val ∧ s.thread.countValue tcount = k ∧
    (k = 0 ∨ k % s.params.warpSize = 0)

/-- The fields and registers of a BAR.ARV are such that it arrives: barrier `b`, count `k` (rules R140, R142). -/
def barArvReady (reg0 : RegIdx) (bar : BarSrc) (tcount : CountSrc) (b : Fin 16) (k : Nat) (s : State) : Prop :=
  (reg0 = 0#6 ∨ reg0 = rz) ∧ bar.encodable = true ∧ tcount.shown = true ∧ s.thread.barReadable bar = true ∧
    s.thread.countReadable tcount = true ∧ s.thread.barValue bar = b.val ∧ s.thread.countValue tcount = k ∧
    k ≠ 0 ∧ k % s.params.warpSize = 0

/-! ## What a vote needs -/

/-- Thread `i` belongs to the set `S` of a vote of the stepping thread (rule R150). -/
def inVote (s : State) (i : Nat) (t : Thread) : Prop :=
  s.threadList[i]? = some t ∧ i / s.params.warpSize = s.index / s.params.warpSize ∧ t.status ≠ .exited

/-- The word of a VOTE is one the source shows (rule R150). -/
def voteShown (mode : VoteMode) (reg0 : RegIdx) (imm28 : BitVec 28) : Prop :=
  (mode = .all ∨ mode = .any ∨ mode = .eq) ∧ (mode ≠ .any → reg0 = rz) ∧ imm28 = 0#28

/-- Every thread of the group that has not exited is `Running` at this `pc` (rule R150). -/
def voteAssembled (s : State) : Prop :=
  ∀ i t, inVote s i t → t.status = .running ∧ t.pc = s.thread.pc

end Sys2Proof.Safety
end

