-- ==== Sys2Proof/Certificates/Slice0/Obligations.lean ====
section
/-!
DEFINITION. The statements about the machine. Each docstring names the rule of `spec/` it formalises; where a
clause rests on a choice of the model, it names the log entry in `notes/assumptions/`. Most rules of the spec
are its own decisions (its marks D and GK); the statements say what those rules say, not what a chip does.
-/

open Sys2Proof Sys2Proof.Machine Sys2Proof.Safety

/-! ## The encoding -/

/-- Decoding the word of a well-formed instruction gives the instruction back (`30_encoding.md` rules R76 to
R84, R89). -/
def Obligations.DecodeEncode : Prop :=
  ∀ i : Instr, i.wellFormed = true → decode (encode i) = .ok i

/-- A word has one meaning: where the decoder answers, the answer is well-formed and encodes back to the word
(`30_encoding.md` rules R89, R91). -/
def Obligations.EncodeDecode : Prop :=
  ∀ (w : InstrWord) (i : Instr), decode w = .ok i → i.wellFormed = true ∧ encode i = w

/-- Where each format has its fields, with the drawn fixed bits, and the values of its modifiers
(`30_encoding.md` rules R76 to R84), and the values of the condition names (rule R88). -/
def Obligations.FieldsFollowTheFormats : Prop :=
  (∀ t : FlowTarget,
    encode (.ssy t) = 0x6000000000000007#64 ||| placed 14 (bit t.isConst) ||| placed 26 t.bits ∧
    encode (.pbk t) = 0x6800000000001C07#64 ||| placed 14 (bit t.isConst) ||| placed 26 t.bits ∧
    encode (.pcnt t) = 0x7000000000001C07#64 ||| placed 14 (bit t.isConst) ||| placed 26 t.bits ∧
    (∀ ccop u lmt, encode (.bra ccop u lmt t) = 0x4000000000001C07#64 ||| placed 5 ccop.code
      ||| placed 14 (bit t.isConst) ||| placed 15 (bit u) ||| placed 16 (bit lmt) ||| placed 26 t.bits) ∧
    (∀ noinc, encode (.cal noinc t) = 0x5000000000000007#64 ||| placed 14 (bit t.isConst)
      ||| placed 16 (bit (!noinc)) ||| placed 26 t.bits) ∧
    (∀ noinc, encode (.pret noinc t) = 0x7800000000000007#64 ||| placed 14 (bit t.isConst)
      ||| placed 15 (bit (!noinc)) ||| placed 26 t.bits)) ∧
  (∀ ccop : CCop,
    encode (.ret ccop) = 0x9000000000001C07#64 ||| placed 5 ccop.code ∧
    encode (.exit ccop) = 0x8000000000001C07#64 ||| placed 5 ccop.code ∧
    encode (.brk ccop) = 0xA800000000001C07#64 ||| placed 5 ccop.code ∧
    encode (.cont ccop) = 0xB000000000001C07#64 ||| placed 5 ccop.code) ∧
  (∀ ccop s trig op imm16, encode (.nop ccop s trig op imm16) = 0x4000000000001C04#64 ||| placed 4 (bit s)
    ||| placed 5 ccop.code ||| placed 26 imm16 ||| placed 50 (bit trig) ||| placed 51 op.code) ∧
  (∀ redop reg0 bar tcount c p,
    encode (.barRed redop reg0 bar tcount c p) = 0x5000000000001C04#64 ||| placed 5 redop.code ||| placed 14 reg0
      ||| placed 20 bar.bits ||| placed 26 tcount.bits ||| placed 46 (bit tcount.isImm)
      ||| placed 47 (bit bar.isImm) ||| placed 49 c.code ||| placed 53 p ∧
    encode (.barArv redop reg0 bar tcount c p) = 0x5000000000001C84#64 ||| placed 5 redop.code ||| placed 14 reg0
      ||| placed 20 bar.bits ||| placed 26 tcount.bits ||| placed 46 (bit tcount.isImm)
      ||| placed 47 (bit bar.isImm) ||| placed 49 c.code ||| placed 53 p) ∧
  (∀ lvl, encode (.membar lvl) = 0xE000000000001C05#64 ||| placed 5 lvl.code) ∧
  (∀ op ty e reg3 reg1 imm20 reg0 reg4,
    encode (.atom op ty e reg3 reg1 imm20 reg0 reg4) = 0x4000000000001C05#64 ||| placed 5 op.code
      ||| placed 9 (ty.code.extractLsb' 0 1) ||| placed 14 reg0 ||| placed 20 reg1
      ||| placed 26 (imm20.extractLsb' 0 17) ||| placed 43 reg3 ||| placed 49 reg4
      ||| placed 55 (imm20.extractLsb' 17 3) ||| placed 58 (bit e) ||| placed 59 (ty.code.extractLsb' 1 3)) ∧
  (∀ op ty e reg1 imm32 reg0,
    encode (.red op ty e reg1 imm32 reg0) = 0x0000000000001C05#64 ||| placed 5 op.code
      ||| placed 9 (ty.code.extractLsb' 0 1) ||| placed 14 reg0 ||| placed 20 reg1 ||| placed 26 imm32
      ||| placed 58 (bit e) ||| placed 59 (ty.code.extractLsb' 1 3)) ∧
  (∀ mode reg0 p1 imm28 p0, encode (.vote mode reg0 p1 imm28 p0) = 0x4800000000001C04#64 ||| placed 5 mode.code
    ||| placed 14 reg0 ||| placed 20 p1.code ||| placed 26 imm28 ||| placed 54 p0) ∧
  [CCop.f, .lt, .eq, .le, .gt, .ne, .ge, .num, .nan, .ltu, .equ, .leu, .gtu, .neu, .geu, .t,
    .off, .lo, .sff, .ls, .hi, .sft, .hs, .oft, .csmTa, .csmTr, .csmMx, .fcsmTa, .fcsmTr, .fcsmMx, .rle, .rgt].map
      CCop.code = (List.range 32).map (BitVec.ofNat 5) ∧
  [NopOp.none, .fma64, .fma32, .xlu, .alu, .agu, .su, .fu, .fmul].map NopOp.code =
    [0#4, 1#4, 2#4, 3#4, 4#4, 5#4, 6#4, 7#4, 8#4] ∧
  [RedOp.popc, .and, .or, .invalid].map RedOp.code = [0#2, 1#2, 2#2, 3#2] ∧
  [Lvl.cta, .gl, .sys, .invalid].map Lvl.code = [0#2, 1#2, 2#2, 3#2] ∧
  [AtomOp.add, .min, .max, .inc, .dec, .and, .or, .xor, .exch, .cas].map AtomOp.code =
    [0#4, 1#4, 2#4, 3#4, 4#4, 5#4, 6#4, 7#4, 8#4, 9#4] ∧
  [AtomType.u32, .u64, .s32, .f32].map AtomType.code = [4#4, 5#4, 7#4, 11#4] ∧
  [VoteMode.all, .any, .eq, .vtgR, .vtgA, .vtgRA].map VoteMode.code = [0#3, 1#3, 2#3, 5#3, 6#3, 7#3] ∧
  (∀ (neg : Bool) (idx : PredIdx), PredSrc.code ⟨neg, idx⟩ = bit neg ++ idx)

/-- A word of a row decodes to that row's instruction where its fixed bits are as drawn, and is `NotShown`
where one is not (`30_encoding.md` rule R91, with the masks of `opcode_table.json`). -/
def Obligations.TableRowsDecode : Prop :=
  ∀ row ∈ opcodeTable, ∀ w : InstrWord, w &&& row.mask = row.value →
    (w &&& row.strictMask = row.strictValue → ∃ i, decode w = .ok i ∧ i.mnemonic = row.mnemonic) ∧
    (w &&& row.strictMask ≠ row.strictValue → decode w = .error .notShown)

/-- A word is `UnknownOpcode` exactly where it matches no row, among them every word with `w[3:0]` = 5 and
`w[63:62]` = 2 (`30_encoding.md` rule R90). -/
def Obligations.UnknownOpcodeExactlyOutsideTheTable : Prop :=
  (∀ w : InstrWord, decode w = .error .unknownOpcode ↔ ∀ row ∈ opcodeTable, w &&& row.mask ≠ row.value) ∧
  (∀ w : InstrWord, w &&& 0xC00000000000000F#64 = 0x8000000000000005#64 → decode w = .error .unknownOpcode)

/-- Words the spec writes out decode to what the spec says they spell (`95_test_vectors.md` section 2.1). -/
def Obligations.SourceWordsDecode : Prop :=
  decode 0x6003FFFFE0000007#64 = .ok (.ssy (.rel 0xFFFFF8#24)) ∧
  decode 0x4000000040009DE7#64 = .ok (.bra .t true false (.rel 0x10#24)) ∧
  decode 0x5000000060010007#64 = .ok (.cal false (.rel 0x18#24)) ∧
  decode 0x78000000C0008007#64 = .ok (.pret false (.rel 0x30#24)) ∧
  decode 0x9000000000001C47#64 = .ok (.ret .eq) ∧
  decode 0x8000000000001DE7#64 = .ok (.exit .t) ∧
  decode 0x4000000000001DF4#64 = .ok (.nop .t true false .none 0#16) ∧
  decode 0x6800000100001C07#64 = .ok (.pbk (.rel 0x40#24)) ∧
  decode 0xA800000000001DE7#64 = .ok (.brk .t) ∧
  decode 0x70000000A0001C07#64 = .ok (.pcnt (.rel 0x28#24)) ∧
  decode 0xB000000000001DE7#64 = .ok (.cont .t) ∧
  decode 0x50F28000FC215C04#64 = .ok (.barRed .popc 5#6 (.imm 2#6) (.reg 63#6 0#6) ⟨true, 1#3⟩ 7#3) ∧
  decode 0x50EEC00200401C84#64 = .ok (.barArv .popc 0#6 (.imm 4#6) (.imm 128#12) ⟨false, 7#3⟩ 7#3) ∧
  decode 0xE000000000001C45#64 = .ok (.membar .sys) ∧
  decode 0x508020D170219C05#64 = .ok (.atom .add .u32 false 4#6 2#6 0x2345C#20 6#6 0#6) ∧
  decode 0x1048D159E0109C05#64 = .ok (.red .add .u32 false 1#6 0x12345678#32 2#6) ∧
  decode 0x49C0000000115C24#64 = .ok (.vote .any 5#6 ⟨false, 1#3⟩ 0#28 7#3)

/-- The fields that each PTX spelling fixes (`30_encoding.md` rule R97). -/
def Obligations.PtxSpellingsFixTheirFields : Prop :=
  (∀ bar tcount, field (encode (barSync bar tcount)) 7 1 = 0#1 ∧ field (encode (barSync bar tcount)) 5 2 = 0#2 ∧
    field (encode (barSync bar tcount)) 14 6 = 63#6 ∧ field (encode (barSync bar tcount)) 49 4 = 7#4 ∧
    field (encode (barSync bar tcount)) 53 3 = 7#3) ∧
  (∀ reg0 bar tcount c, field (encode (barRedPopc reg0 bar tcount c)) 7 1 = 0#1 ∧
    field (encode (barRedPopc reg0 bar tcount c)) 5 2 = 0#2 ∧
    field (encode (barRedPopc reg0 bar tcount c)) 14 6 = reg0 ∧
    field (encode (barRedPopc reg0 bar tcount c)) 49 4 = c.code ∧
    field (encode (barRedPopc reg0 bar tcount c)) 53 3 = 7#3) ∧
  (∀ p bar tcount c, ∀ redop : RedOp, redop = .and ∨ redop = .or →
    field (encode (barRedPred redop p bar tcount c)) 7 1 = 0#1 ∧
    field (encode (barRedPred redop p bar tcount c)) 5 2 = (if redop = .and then 1#2 else 2#2) ∧
    field (encode (barRedPred redop p bar tcount c)) 14 6 = 63#6 ∧
    field (encode (barRedPred redop p bar tcount c)) 49 4 = c.code ∧
    field (encode (barRedPred redop p bar tcount c)) 53 3 = p) ∧
  (∀ bar tcount, field (encode (barArrive bar tcount)) 7 1 = 1#1 ∧
    field (encode (barArrive bar tcount)) 20 6 = bar.bits ∧
    field (encode (barArrive bar tcount)) 26 12 = tcount.bits) ∧
  (∀ mode p0 p1, field (encode (votePred mode p0 p1)) 5 3 = mode.code ∧
    field (encode (votePred mode p0 p1)) 14 6 = 63#6 ∧ field (encode (votePred mode p0 p1)) 20 4 = p1.code ∧
    field (encode (votePred mode p0 p1)) 54 3 = p0) ∧
  [VoteMode.all, .any, .eq].map VoteMode.code = [0#3, 1#3, 2#3] ∧
  (∀ reg0 p1, field (encode (voteBallot reg0 p1)) 5 3 = 1#3 ∧ field (encode (voteBallot reg0 p1)) 14 6 = reg0 ∧
    field (encode (voteBallot reg0 p1)) 20 4 = p1.code ∧ field (encode (voteBallot reg0 p1)) 54 3 = 7#3)

/-! ## Memory and fetch -/

/-- Bytes lie lowest first, in data reads, in data writes and in fetch, and a write of `n` bytes leaves every
other byte alone (`20_memory.md` rules R50, R51). -/
def Obligations.LittleEndianBytes : Prop :=
  (∀ (m : List Host.Cell) (a n k : Nat), k < n → n ≤ 8 →
    (Memory.read m a n).extractLsb' (8 * k) 8 = Memory.readByte m (a + k)) ∧
  (∀ (m : List Host.Cell) (a n k : Nat) (v : Wide), k < n → n ≤ 8 →
    Memory.readByte (Memory.write m a n v) (a + k) = v.extractLsb' (8 * k) 8) ∧
  (∀ (m : List Host.Cell) (a n b : Nat) (v : Wide), b < a ∨ a + n ≤ b →
    Memory.readByte (Memory.write m a n v) b = Memory.readByte m b) ∧
  (∀ (s : State) (w : InstrWord), s.fetch = .ok w → ∀ k, k < 8 →
    cellsLookup (s.thread.pc.toNat + k) s.code = some (w.extractLsb' (8 * k) 8)) ∧
  (∀ w : InstrWord, wordOfBytes (bytesOfWord 8 w) = w)

/-! ## One step -/

/-- Where the next choice is a thread's step and the eight bytes at its `pc` decode to an instruction, the step is
`exec` of it in the state in which the choice acts; a fault or refusal stops the thread instead (how the choice is
made is log 1; that a stopped thread is a next state is log 11). -/
def Obligations.StepRunsDecodedInstruction : Prop :=
  ∀ (s u : State) (bs rest : List Byte) (i : Instr), threadMoves s u → u.thread.status = .running →
    u.params.fetchable u.thread.pc = true → codeBytes u.code u.thread.pc.toNat 8 = some bs →
    decodeBytes bs = some (.ok (i, rest)) → i.wellFormed = true →
      (∀ t, exec i u = .next t → step s = .next t) ∧
      (∀ r, exec i u = .fault r → step s = .next (u.stopThread (some (wordOfBytes bs)) (.fault r))) ∧
      (∀ r, exec i u = .refused r → step s = .next (u.stopThread (some (wordOfBytes bs)) (.refusal r)))

/-- A thread that meets a fault or a refusal stops with it, the outcome is recorded with its `pc` and word, and
nothing else of the state in which it acts changes (`60_exceptions.md` rule R180; logs 1, 11, 22; that a failed unwind
keeps the stack too is log 24). -/
def Obligations.StoppedInstructionChangesNothingElse : Prop :=
  ∀ (s u : State) (w : InstrWord) (i : Instr), threadMoves s u → fetches u w → decode w = .ok i →
    (∀ r, exec i u = .fault r → step s = .next
      { u with thread := { u.thread with status := .faulted r }
               record := ⟨u.index, u.thread.pc, some w, .fault r⟩ :: u.record }) ∧
    (∀ r, exec i u = .refused r → step s = .next
      { u with thread := { u.thread with status := .refused r }
               record := ⟨u.index, u.thread.pc, some w, .refusal r⟩ :: u.record })

/-- A running thread faults with `BadFetch` at a `pc` below 0, above `2^PCW - 8`, not a multiple of 8, or
without a program byte at one of the eight addresses; the fault is recorded and nothing else changes
(`10_state.md` rule R27, `20_memory.md` rules R52, R56; the top of the range is DEDUCED, log 5; logs 1, 22). -/
def Obligations.BadFetchStopsTheThread : Prop :=
  ∀ s u : State, threadMoves s u → u.thread.status = .running →
    (u.thread.pc < 0 ∨ 2 ^ u.params.pcWidth < u.thread.pc + 8 ∨ u.thread.pc % 8 ≠ 0 ∨
      (∃ k, k < 8 ∧ cellsLookup (u.thread.pc.toNat + k) u.code = none)) →
    step s = .next
      { u with thread := { u.thread with status := .faulted .badFetch }
               record := ⟨u.index, u.thread.pc, none, .fault .badFetch⟩ :: u.record }

/-- A running thread whose word matches no row, or has a fixed bit not as drawn, is refused by name; the
refusal is recorded and nothing else changes (`60_exceptions.md` rules R180, R182; logs 1, 22). -/
def Obligations.UndecodableWordStopsTheThread : Prop :=
  ∀ (s u : State) (w : InstrWord), threadMoves s u → fetches u w →
    (decode w = .error .unknownOpcode → step s = .next
      { u with thread := { u.thread with status := .refused .unknownOpcode }
               record := ⟨u.index, u.thread.pc, some w, .refusal .unknownOpcode⟩ :: u.record }) ∧
    (decode w = .error .notShown → step s = .next
      { u with thread := { u.thread with status := .refused .notShown }
               record := ⟨u.index, u.thread.pc, some w, .refusal .notShown⟩ :: u.record })

/-- Any running thread that is not held, and any pending release, may be the next to move: the schedule can name it,
and beginning a step changes only who moves and where its access stands. Where the schedule is empty the free
value proposes choices: where they can be made and complete the memory order, the first of them moves, whatever came
before, and the others are fixed to follow it (where it is the only choice they are asked for anew): no order and no
fairness is fixed (`10_state.md` rule R20, `70_reset_and_hazards.md` rule R203; how the choice is held is log 1). -/
def Obligations.ScheduleMayNameAnyEnabledChoice : Prop :=
  (∀ (s : State) (c : Choice) (rest : List Choice), SameMachine s (s.begin c rest)) ∧
  (∀ (s : State) (i : Nat) (t : Thread) (rest : List Choice), s.schedule = .thread i :: rest →
    s.threadList[i]? = some t → t.status = .running → (s.ready (.thread i)).held = false →
      s.nextChoice = some (.thread i, rest) ∧ (s.begin (.thread i) rest).index = i ∧
        (s.begin (.thread i) rest).thread = t) ∧
  (∀ (s : State) (b : Fin 16) (rest : List Choice), s.schedule = .release b :: rest →
    s.barriers[b].expected = some s.barriers[b].arrived → s.nextChoice = some (.release b, rest)) ∧
  (∀ s : State, s.schedule = [] → s.nextChoice = s.chooseFrom (Config.pick s.tick)) ∧
  (∀ (s : State) (c : Choice) (rest : List Choice), s.completes (c :: rest) = true →
    s.chooseFrom (c :: rest) = some (c, rest) ∨ (s.menu = [c] ∧ s.chooseFrom (c :: rest) = some (c, []))) ∧
  (∀ (s : State) (c : Choice) (rest : List Choice), s.nextChoice = some (c, rest) → s.enabled c = true)

/-- A step has a next state exactly where some choice is enabled; a running thread that is not held always is one, and
so is a pending release. Elsewhere the run is finished if every thread has exited and nothing is recorded, has no
answer if every thread has stopped and something is recorded, and is stuck if a thread runs or waits; the answer is the
final `GMem` of a finished run (`70_reset_and_hazards.md` rules R203, R204; that the ends answer with a fault is log
11). -/
def Obligations.RunEndsOnlyWhereNothingIsEnabled : Prop :=
  (∀ s : State, s.nextChoice = none ↔ ∀ c, s.enabled c = false) ∧
  (∀ (s : State) (c : Choice), s.enabled c = true → ∃ t, step s = .next t) ∧
  (∀ (s : State) (i : Nat) (t : Thread), s.threadList[i]? = some t → t.status = .running →
    (s.ready (.thread i)).held = false → s.enabled (.thread i) = true) ∧
  (∀ s : State, (∀ c, s.enabled c = false) →
    ((∀ t ∈ s.threadList, t.status = .exited) → s.record = [] → step s = .fault .finished) ∧
    ((∀ t ∈ s.threadList, t.status.stopped = true) → s.record ≠ [] → step s = .fault .noAnswer) ∧
    ((∃ t ∈ s.threadList, t.status.stopped = false) → step s = .fault .stuck)) ∧
  (∀ (s : State) (m : List Host.Cell), s.answer = some m ↔
    (∀ t ∈ s.threadList, t.status = .exited) ∧ s.record = [] ∧ s.gmem = m)

/-! ## What every step keeps -/

/-- Every step keeps `GMem` and the code space in canonical form. -/
def Obligations.StepKeepsMemoryCanonical : Prop :=
  ∀ s t : State, memoryCanonical s → step s = .next t → memoryCanonical t

/-- Every step keeps `GMem` equal, byte by byte, to what the recorded accesses, in their total order, left of the launch
memory, and keeps the choices already fixed such that they complete that order: after them each access has read what
the one before it on those bytes wrote. So it has where no choice is fixed, and where the run has ended (`20_memory.md`
rule R58 (a), (d); choices fixed ahead are log 14). -/
def Obligations.StepKeepsHistoryCoherent : Prop :=
  (∀ s t : State, historyCoherent s → step s = .next t → historyCoherent t) ∧
  (∀ s : State, historyCoherent s → s.schedule = [] ∨ (∃ r, step s = .fault r) →
    readsCoherent s.params.launchMem s.history = true)

/-- No step changes the parameters, the program or the number of threads (`10_state.md` rules R22, R36,
`20_memory.md` rule R61). -/
def Obligations.StepKeepsTheLaunch : Prop :=
  ∀ s t : State, step s = .next t → t.params = s.params ∧ t.code = s.code ∧ t.blockSize = s.blockSize

/-- Every step keeps the waiters of each barrier exactly the threads whose status says so (`10_state.md` rules
R21, R35). -/
def Obligations.StepKeepsWaiters : Prop :=
  ∀ s t : State, waitersWait s → step s = .next t → waitersWait t

/-- Every step keeps the counts of every barrier in agreement (`10_state.md` rule R35). -/
def Obligations.StepKeepsBarrierCounts : Prop :=
  ∀ s t : State, countsAgree s → step s = .next t → countsAgree t

/-- A thread that has exited, faulted or been refused never changes again: it keeps its status, registers, predicates,
`CC`, stack and `pc` (`10_state.md` rule R21, `60_exceptions.md` rules R181, R186, R193). -/
def Obligations.StoppedThreadsNeverChange : Prop :=
  ∀ s t : State, waitersWait s → step s = .next t → ∀ (i : Nat) (u : Thread), s.threadList[i]? = some u →
    u.status.stopped = true → t.threadList[i]? = some u

/-- Every step keeps the fault record in agreement with the threads' statuses (`60_exceptions.md` rules R180,
R181). -/
def Obligations.StepKeepsRecord : Prop :=
  ∀ s t : State, waitersWait s → recordAgrees s → step s = .next t → recordAgrees t

/-- The invariants hold at every launch whose two memories are in canonical form, reset among them. -/
def Obligations.InvariantsHoldAtLaunch : Prop :=
  (∀ l : Launch, Memory.wf l.params.launchMem = true → cellsRising l.program = true →
    memoryCanonical (State.launch l)) ∧
  (∀ l : Launch, historyCoherent (State.launch l) ∧ waitersWait (State.launch l) ∧ countsAgree (State.launch l) ∧
    recordAgrees (State.launch l) ∧ MemoryOrder (State.launch l)) ∧
  (∀ l : Launch, l.params.memModel = .sequential → sequentialOrder (State.launch l)) ∧
  memoryCanonical State.reset

/-- No step writes `CC` of any thread or gives it a value, and no step takes a value away from a register, predicate or `CC`
(`10_state.md` rules R30, R40). -/
def Obligations.StepKeepsConditionCodes : Prop :=
  ∀ s t : State, step s = .next t → ∀ (i : Nat) (u v : Thread), s.threadList[i]? = some u →
    t.threadList[i]? = some v → v.cc = u.cc ∧ (∀ x ∈ v.unwritten, x ∈ u.unwritten) ∧
      (Source.cc ∈ u.unwritten → Source.cc ∈ v.unwritten)

/-- `GMem` changes only by one recorded access, at the step of a running thread before an ATOM or RED, and only in the
bytes of that access; no step records more than one event, and none changes one that is recorded (`10_state.md` rule
R38, `20_memory.md` rules R50, R54; where the event stands is log 14). -/
def Obligations.MemoryChangesByOneAtomicEvent : Prop :=
  (∀ s t : State, step s = .next t → t.history = s.history ∨ ∃ k e, t.history = insertEvent k e s.history) ∧
  (∀ s t : State, step s = .next t → t.gmem ≠ s.gmem →
    ∃ u w j p a n old new, threadMoves s u ∧ u.thread.status = .running ∧ u.fetch = .ok w ∧ decode w = .ok j ∧
      (j.row = .atom ∨ j.row = .red) ∧
      t.history = insertEvent u.later (.access u.index p a n old new) s.history ∧
      ∀ x, x < a ∨ a + n ≤ x → Memory.readByte t.gmem x = Memory.readByte s.gmem x)

/-- Who may write what: only ATOM and VOTE write registers, only VOTE writes predicates or touches another thread,
only the execution control instructions touch the control stack, only BAR touches barriers, only ATOM and RED touch
`GMem`, when an instruction itself runs; what BAR.RED writes comes at the release (`10_state.md`
rules R23, R28, `40_execution_control.md` rule R115). -/
def Obligations.InstructionsWriteOnlyTheirState : Prop :=
  ∀ (i : Instr) (s t : State), exec i s = .next t →
    (i.row ≠ .vote → t.lower = s.lower ∧ t.higher = s.higher ∧ t.thread.preds = s.thread.preds) ∧
    (i.row ≠ .vote → i.row ≠ .atom → t.thread.regs = s.thread.regs ∧ t.thread.unwritten = s.thread.unwritten) ∧
    (i.row = .bar ∨ i.row = .membar ∨ i.row = .atom ∨ i.row = .red ∨ i.row = .vote →
      t.thread.cs = s.thread.cs) ∧
    (i.row ≠ .bar → t.barriers = s.barriers) ∧
    (i.row ≠ .vote → t.record = s.record) ∧
    (i.row ≠ .atom → i.row ≠ .red → t.gmem = s.gmem ∧ t.thread.place = s.thread.place) ∧
    t.params = s.params ∧ t.code = s.code ∧ t.schedule = s.schedule ∧ t.tick = s.tick

/-! ## Launch and reset -/

/-- Every piece of state at launch (`10_state.md` rule R40, `70_reset_and_hazards.md` rule R200). -/
def Obligations.LaunchFollowsTheTable : Prop :=
  ∀ l : Launch,
    (State.launch l).blockSize = l.rest.length + 1 ∧ (State.launch l).gmem = l.params.launchMem ∧
    (State.launch l).code = l.program ∧ (State.launch l).record = [] ∧ (State.launch l).params = l.params ∧
    (∀ b : Fin 16, (State.launch l).barriers[b] = ⟨0, none, [], [], []⟩) ∧
    (∀ a n, ¬ allocated (State.launch l) a n → l.params.admits a n = false) ∧
    (∀ (i : Nat) (p : Premise), (l.first :: l.rest)[i]? = some p →
      ∃ t, (State.launch l).threadList[i]? = some t ∧ t.pc = l.params.entry ∧ t.cs = [] ∧ t.status = .running ∧
        (∀ (r : Fin 63) (v : Word), p.regs.lookup r = some v → t.readReg (BitVec.ofNat 6 r) = .ok v) ∧
        (∀ r : Fin 63, p.regs.lookup r = none →
          t.readReg (BitVec.ofNat 6 r) = .error (.fault (.unwrittenRegister (.reg r)))) ∧
        t.readReg rz = .ok 0#32 ∧
        (∀ (j : Fin 7) (v : Bool), p.preds.lookup j = some v → t.psrc ⟨false, BitVec.ofNat 3 j⟩ = .ok v) ∧
        (∀ j : Fin 7, p.preds.lookup j = none →
          t.psrc ⟨false, BitVec.ofNat 3 j⟩ = .error (.fault (.unwrittenRegister (.pred j)))) ∧
        t.psrc ⟨false, pt⟩ = .ok true ∧
        (∀ c, p.cc = some c → t.cc = c ∧ Source.cc ∉ t.unwritten) ∧ (p.cc = none → Source.cc ∈ t.unwritten))

/-- What reset leaves: the model's launch of one thread at 0, every register named zero, every predicate false,
all of `GMem` allocated and zero, no program (logs 2 to 6; the spec gives no value for these). -/
def Obligations.ResetReadsTheLaunchOfReset : Prop :=
  (∀ r : RegIdx, State.reset.thread.readReg r = .ok 0#32) ∧
  (∀ j : PredIdx, State.reset.thread.psrc ⟨false, j⟩ = .ok (decide (j = 7#3))) ∧
  State.reset.thread.pc = 0 ∧ State.reset.blockSize = 1 ∧ State.reset.code = [] ∧
  (∀ a, Memory.readByte State.reset.gmem a = 0#8) ∧ (∀ a n, a + n ≤ 2 ^ 64 → allocated State.reset a n)

/-! ## Registers and predicates -/

/-- `RZ` reads zero, is never unwritten and discards writes; every other register reads back what was written
and nothing else changes; a 64-bit operand is a pair, low half first, or `RZ` (`10_state.md` rules R24, R25). -/
def Obligations.RegistersAndPairs : Prop :=
  (∀ (t : Thread) (v : Word), t.readReg 63#6 = .ok 0#32 ∧ t.writeReg 63#6 v = t) ∧
  (∀ (t : Thread) (i : RegIdx) (v : Word), i ≠ 63#6 →
    (t.writeReg i v).readReg i = .ok v ∧ ∀ j, j ≠ i → (t.writeReg i v).readReg j = t.readReg j) ∧
  (∀ (t : Thread) (i : RegIdx) (v : Word), (t.writeReg i v).preds = t.preds ∧ (t.writeReg i v).cc = t.cc ∧
    (t.writeReg i v).pc = t.pc ∧ (t.writeReg i v).cs = t.cs ∧ (t.writeReg i v).status = t.status) ∧
  (∀ i : RegIdx, pairOk i = true ↔ i = 63#6 ∨ (i.toNat % 2 = 0 ∧ i.toNat ≤ 60)) ∧
  (∀ (t : Thread) (v : Wide), t.readPair 63#6 = .ok 0#64 ∧ t.writePair 63#6 v = t) ∧
  (∀ (t : Thread) (i : RegIdx) (v : Wide), i.toNat % 2 = 0 → i.toNat ≤ 60 →
    (t.writePair i v).readPair i = .ok v ∧ (t.writePair i v).readReg i = .ok (v.extractLsb' 0 32) ∧
    (t.writePair i v).readReg (i + 1#6) = .ok (v.extractLsb' 32 32) ∧
    ∀ j, j ≠ i → j ≠ i + 1#6 → (t.writePair i v).readReg j = t.readReg j)

/-- `pt` reads true and discards writes; every other predicate reads back what was written; a 4-bit source `f`
is `P[f[2:0]] xor f[3]`, and faults while that predicate is unwritten (`10_state.md` rules R28, R29). -/
def Obligations.PredicatesAndSources : Prop :=
  (∀ (t : Thread) (b : Bool), t.predValue 7#3 = true ∧ t.writePred 7#3 b = t) ∧
  (∀ (t : Thread) (i : PredIdx) (b : Bool), i ≠ 7#3 →
    (t.writePred i b).predValue i = b ∧ (t.writePred i b).predReadable i = true ∧
    ∀ j, j ≠ i → (t.writePred i b).predValue j = t.predValue j ∧
      (t.writePred i b).predReadable j = t.predReadable j) ∧
  (∀ (t : Thread) (i : PredIdx) (b : Bool), (t.writePred i b).regs = t.regs ∧ (t.writePred i b).cc = t.cc ∧
    (t.writePred i b).pc = t.pc ∧ (t.writePred i b).cs = t.cs ∧ (t.writePred i b).status = t.status) ∧
  (∀ (t : Thread) (f : BitVec 4), t.predReadable (f.extractLsb' 0 3) = true →
    t.psrc (PredSrc.ofCode f) = .ok (xor (t.predValue (f.extractLsb' 0 3)) (f.extractLsb' 3 1 == 1#1))) ∧
  (∀ (t : Thread) (f : BitVec 4), t.predReadable (f.extractLsb' 0 3) = false →
    ∃ j : Fin 7, j.val = (f.extractLsb' 0 3).toNat ∧ Source.pred j ∈ t.unwritten ∧
      t.psrc (PredSrc.ofCode f) = .error (.fault (.unwrittenRegister (.pred j))))

/-- `.T` is true and `.F` false for every `CC`, the unwritten one too; any other test faults while `CC` is
unwritten and otherwise has an answer (`10_state.md` rule R31; the answer is a free value, log 7). -/
def Obligations.ConditionTests : Prop :=
  ∀ t : Thread, t.condition .t = .ok true ∧ t.condition .f = .ok false ∧
    ∀ ccop, ccop ≠ .t → ccop ≠ .f →
      (Source.cc ∈ t.unwritten → t.condition ccop = .error (.fault (.unwrittenRegister .cc))) ∧
      (Source.cc ∉ t.unwritten → t.condition ccop = .ok (Config.ccTest ccop t.cc))

/-! ## Execution control -/

/-- SSY, PBK and PCNT push SYNC, BRK and CNT with the address `pc + 8 + s(imm24)` and go on; the constant form
is refused; a full stack faults (`40_execution_control.md` rules R103, R110, R112). -/
def Obligations.PushInstructions : Prop :=
  fixedBitsRefused "SSY" ∧ fixedBitsRefused "PBK" ∧ fixedBitsRefused "PCNT" ∧
  (∀ (s : State) (field24 : BitVec 24), exec (.ssy (.const field24)) s = .refused .constOperand ∧
    exec (.pbk (.const field24)) s = .refused .constOperand ∧
    exec (.pcnt (.const field24)) s = .refused .constOperand) ∧
  (∀ (s : State) (imm24 : BitVec 24), stackHasRoom s →
    exec (.ssy (.rel imm24)) s = .next { s with thread :=
      { s.thread with cs := ⟨.sync, s.thread.pc + 8 + imm24.toInt⟩ :: s.thread.cs, pc := s.thread.pc + 8 } } ∧
    exec (.pbk (.rel imm24)) s = .next { s with thread :=
      { s.thread with cs := ⟨.brk, s.thread.pc + 8 + imm24.toInt⟩ :: s.thread.cs, pc := s.thread.pc + 8 } } ∧
    exec (.pcnt (.rel imm24)) s = .next { s with thread :=
      { s.thread with cs := ⟨.cnt, s.thread.pc + 8 + imm24.toInt⟩ :: s.thread.cs, pc := s.thread.pc + 8 } }) ∧
  (∀ (s : State) (imm24 : BitVec 24), ¬ stackHasRoom s →
    exec (.ssy (.rel imm24)) s = .fault .controlStackOverflow ∧
    exec (.pbk (.rel imm24)) s = .fault .controlStackOverflow ∧
    exec (.pcnt (.rel imm24)) s = .fault .controlStackOverflow)

/-- BRA: the constant form and `.LMT` are refused; an unwritten `CC` that the condition reads faults; otherwise
it jumps to `pc + 8 + s(imm24)` where the condition holds and goes on where it does not, `.U` or not
(`40_execution_control.md` rule R104; what `.U` adds is `UniformBranchesGoOneWay`). -/
def Obligations.BraJumpsOnItsCondition : Prop :=
  (∀ (s : State) (ccop : CCop) (u lmt : Bool) (field24 : BitVec 24),
    exec (.bra ccop u lmt (.const field24)) s = .refused .constOperand) ∧
  (∀ (s : State) (ccop : CCop) (u : Bool) (imm24 : BitVec 24),
    exec (.bra ccop u true (.rel imm24)) s = .refused .modifierNotModelled) ∧
  (∀ (s : State) (ccop : CCop) (u : Bool) (imm24 : BitVec 24), ¬ conditionKnown ccop s.thread →
    exec (.bra ccop u false (.rel imm24)) s = .fault (.unwrittenRegister .cc)) ∧
  (∀ (s : State) (ccop : CCop) (u : Bool) (imm24 : BitVec 24), conditionKnown ccop s.thread →
    exec (.bra ccop u false (.rel imm24)) s = .next { s with thread := { s.thread with
      pc := if ccTest ccop s.thread.cc then s.thread.pc + 8 + imm24.toInt else s.thread.pc + 8 } })

/-- What `.U` adds to BRA: in a run that has its premise, the executions of one BRA `.U` by threads of one vote group,
at whatever steps, execute the same word and all go to the same address; and the condition a thread computes never
changes in a run, so it makes no difference which executions of two threads belong together (`40_execution_control.md`
rule R104, `10_state.md` rules R30, R39; that a program owes the premise of a whole run is log 10). -/
def Obligations.UniformBranchesGoOneWay : Prop :=
  (∀ (s u v : State) (ccop : CCop) (imm24 : BitVec 24), uniformBranches s → runMoves s u → runMoves s v →
    u.nextInstr = some (.bra ccop true false (.rel imm24)) → v.thread.pc = u.thread.pc →
    v.index / s.params.warpSize = u.index / s.params.warpSize → conditionKnown ccop u.thread →
    v.nextInstr = u.nextInstr ∧ conditionKnown ccop v.thread ∧ ∃ t r,
      exec (.bra ccop true false (.rel imm24)) u = .next t ∧ exec (.bra ccop true false (.rel imm24)) v = .next r ∧
      r.thread.pc = t.thread.pc) ∧
  (∀ (s u v : State) (ccop : CCop), runMoves s u → runMoves s v → v.index = u.index →
    v.thread.condition ccop = u.thread.condition ccop)

/-- CAL pushes RET with the address of the next instruction and jumps to `pc + 8 + s(imm24)`; the constant form
and `.NOINC` are refused; a full stack faults (`40_execution_control.md` rule R105). -/
def Obligations.CalPushesAndJumps : Prop :=
  fixedBitsRefused "CAL" ∧
  (∀ (s : State) (noinc : Bool) (field24 : BitVec 24),
    exec (.cal noinc (.const field24)) s = .refused .constOperand) ∧
  (∀ (s : State) (imm24 : BitVec 24), exec (.cal true (.rel imm24)) s = .refused .modifierNotModelled) ∧
  (∀ (s : State) (imm24 : BitVec 24), ¬ stackHasRoom s →
    exec (.cal false (.rel imm24)) s = .fault .controlStackOverflow) ∧
  (∀ (s : State) (imm24 : BitVec 24), stackHasRoom s →
    exec (.cal false (.rel imm24)) s = .next { s with thread := { s.thread with
      cs := ⟨.ret, s.thread.pc + 8⟩ :: s.thread.cs, pc := s.thread.pc + 8 + imm24.toInt } }) ∧
  (∀ (pc : CodeAddr) (imm24 : BitVec 24), calPrinted pc imm24 = pc + 8 + imm24.toInt)

/-- PRET pushes RET with the address `pc + 8 + s(imm24)` and goes on; the constant form and `.NOINC` are
refused; a full stack faults (`40_execution_control.md` rule R106). -/
def Obligations.PretPushesAReturn : Prop :=
  fixedBitsRefused "PRET" ∧
  (∀ (s : State) (noinc : Bool) (field24 : BitVec 24),
    exec (.pret noinc (.const field24)) s = .refused .constOperand) ∧
  (∀ (s : State) (imm24 : BitVec 24), exec (.pret true (.rel imm24)) s = .refused .modifierNotModelled) ∧
  (∀ (s : State) (imm24 : BitVec 24), ¬ stackHasRoom s →
    exec (.pret false (.rel imm24)) s = .fault .controlStackOverflow) ∧
  (∀ (s : State) (imm24 : BitVec 24), stackHasRoom s →
    exec (.pret false (.rel imm24)) s = .next { s with thread := { s.thread with
      cs := ⟨.ret, s.thread.pc + 8 + imm24.toInt⟩ :: s.thread.cs, pc := s.thread.pc + 8 } })

/-- RET, BRK and CONT, where the condition holds, discard the entries above the nearest of their kind, take it
and continue at its address; they fault where there is none; where the condition does not hold they go on
(`40_execution_control.md` rules R107, R111, R113, `10_state.md` rule R34). -/
def Obligations.UnwindInstructions : Prop :=
  ∀ (s : State) (ccop : CCop) (k : Kind) (i : Instr),
    (i = .ret ccop ∧ k = .ret) ∨ (i = .brk ccop ∧ k = .brk) ∨ (i = .cont ccop ∧ k = .cnt) →
    (¬ conditionKnown ccop s.thread → exec i s = .fault (.unwrittenRegister .cc)) ∧
    (conditionKnown ccop s.thread → ccTest ccop s.thread.cc = false →
      exec i s = .next { s with thread := { s.thread with pc := s.thread.pc + 8 } }) ∧
    (conditionKnown ccop s.thread → ccTest ccop s.thread.cc = true →
      ∀ (above below : List CsEntry) (a : CodeAddr), s.thread.cs = above ++ ⟨k, a⟩ :: below →
        (∀ x ∈ above, x.kind ≠ k) →
        exec i s = .next { s with thread := { s.thread with cs := below, pc := a } }) ∧
    (conditionKnown ccop s.thread → ccTest ccop s.thread.cc = true → (∀ x ∈ s.thread.cs, x.kind ≠ k) →
      exec i s = .fault .controlStackUnderflow)

/-- EXIT, where the condition holds, makes the thread Exited and changes nothing else; where it does not, the
thread goes on (`40_execution_control.md` rule R108). -/
def Obligations.ExitEndsTheThread : Prop :=
  ∀ (s : State) (ccop : CCop),
    (¬ conditionKnown ccop s.thread → exec (.exit ccop) s = .fault (.unwrittenRegister .cc)) ∧
    (conditionKnown ccop s.thread → ccTest ccop s.thread.cc = true →
      exec (.exit ccop) s = .next { s with thread := { s.thread with status := .exited } }) ∧
    (conditionKnown ccop s.thread → ccTest ccop s.thread.cc = false →
      exec (.exit ccop) s = .next { s with thread := { s.thread with pc := s.thread.pc + 8 } })

/-- NOP: the forms whose meaning the source does not give are refused; plain NOP only goes on; NOP.S takes the top
entry, which must be SYNC, and continues there (`40_execution_control.md` rules R109, R102). Where several refusals apply,
an `.Op` without a row comes before the modifiers without meaning (`30_encoding.md` rules R89, R92, R93), and of these
the condition first; that this is meant although rule R109 notes the `.Op` at its second line is DEDUCED (log 16). -/
def Obligations.NopAndTheJoin : Prop :=
  (∀ (s : State) (ccop : CCop) (join trig : Bool) (op : NopOp) (imm16 : BitVec 16),
    (∀ code, op ≠ .noRow code) → ccop ≠ .t →
    exec (.nop ccop join trig op imm16) s = .refused .ccopNotModelled) ∧
  (∀ (s : State) (ccop : CCop) (join trig : Bool) (code : BitVec 4) (imm16 : BitVec 16),
    exec (.nop ccop join trig (.noRow code) imm16) s = .refused .notShown) ∧
  (∀ (s : State) (join trig : Bool) (op : NopOp) (imm16 : BitVec 16), (∀ code, op ≠ .noRow code) →
    trig = true ∨ op ≠ .none ∨ imm16 ≠ 0#16 →
    exec (.nop .t join trig op imm16) s = .refused .modifierNotModelled) ∧
  (∀ s : State, exec (.nop .t false false .none 0#16) s =
    .next { s with thread := { s.thread with pc := s.thread.pc + 8 } }) ∧
  (∀ s : State, s.thread.cs = [] → exec (.nop .t true false .none 0#16) s = .fault .controlStackUnderflow) ∧
  (∀ (s : State) (k : Kind) (a : CodeAddr) (below : List CsEntry), s.thread.cs = ⟨k, a⟩ :: below → k ≠ .sync →
    exec (.nop .t true false .none 0#16) s = .fault (.controlStackMismatch k)) ∧
  (∀ (s : State) (a : CodeAddr) (below : List CsEntry), s.thread.cs = ⟨.sync, a⟩ :: below →
    exec (.nop .t true false .none 0#16) s = .next { s with thread := { s.thread with cs := below, pc := a } })

/-! ## Barriers and the fence -/

/-- BAR.RED at a barrier without a pending release: the count is fixed or equal, the reductions are equal; the
arrival and the vote are recorded and the thread waits, its `pc` not advanced (`41_sync_atomic.md` rules R140,
R141; the list of arrivers is the model's, log 14). -/
def Obligations.BarRedArrives : Prop :=
  ∀ (s : State) (redop : RedOp) (reg0 : RegIdx) (bar : BarSrc) (tcount : CountSrc) (c : PredSrc) (p : PredIdx)
    (b : Fin 16) (k n : Nat), barRedReady redop reg0 bar tcount c p b k s →
    n = (if k = 0 then s.blockSize else k) →
    s.barriers[b].expected ≠ some s.barriers[b].arrived →
    s.barriers[b].expected = none ∨ s.barriers[b].expected = some n →
    (∀ w ∈ s.barriers[b].waiters, w.redop = redop) →
    exec (.barRed redop reg0 bar tcount c p) s = .next { s with
      thread := { s.thread with status := .waiting b }
      barriers := s.barriers.set b.val
        ⟨s.barriers[b].arrived + 1, some n, s.barriers[b].waiters ++ [⟨s.index, redop, reg0, p⟩],
          s.barriers[b].votes ++ [xor (s.thread.predValue c.idx) c.neg],
          s.barriers[b].arrivers ++ [(s.index, s.thread.place)]⟩ }

/-- BAR.ARV at a barrier without a pending release: the arrival is counted, without a vote or a waiter, and the
thread goes on (`41_sync_atomic.md` rules R140, R142; the list of arrivers is the model's, log 14). -/
def Obligations.BarArvArrives : Prop :=
  ∀ (s : State) (reg0 : RegIdx) (bar : BarSrc) (tcount : CountSrc) (b : Fin 16) (k : Nat),
    barArvReady reg0 bar tcount b k s → s.barriers[b].expected ≠ some s.barriers[b].arrived →
    s.barriers[b].expected = none ∨ s.barriers[b].expected = some k →
    exec (.barArv .popc reg0 bar tcount ⟨false, pt⟩ pt) s = .next { s with
      thread := { s.thread with pc := s.thread.pc + 8 }
      barriers := s.barriers.set b.val
        ⟨s.barriers[b].arrived + 1, some k, s.barriers[b].waiters, s.barriers[b].votes,
          s.barriers[b].arrivers ++ [(s.index, s.thread.place)]⟩ }

/-- Where BAR.RED stops: an invalid reduction or barrier immediate; an operand the form does not show; an unwritten
operand, the first in the order barrier, count, predicate (log 16), by name; a barrier above 15; a count that is no
multiple of `WARP_SIZE`; a count or reduction other than that of the threads already there (`41_sync_atomic.md` rules
R140, R141; `30_encoding.md` rule R92). -/
def Obligations.BarRedStops : Prop :=
  ∀ (s : State) (redop : RedOp) (reg0 : RegIdx) (bar : BarSrc) (tcount : CountSrc) (c : PredSrc) (p : PredIdx),
    (redop = .invalid ∨ (∃ v : BitVec 6, bar = .imm v ∧ 15 < v.toNat) →
      exec (.barRed redop reg0 bar tcount c p) s = .fault .illegalEncoding) ∧
    (redop ≠ .invalid → bar.encodable = true →
      (redop = .popc ∧ p ≠ pt) ∨ (redop ≠ .popc ∧ reg0 ≠ rz) ∨
        (∃ r upper, tcount = .reg r upper ∧ upper ≠ 0#6) →
      exec (.barRed redop reg0 bar tcount c p) s = .refused .notShown) ∧
    (redop ≠ .invalid → bar.encodable = true → (redop = .popc → p = pt) → (redop ≠ .popc → reg0 = rz) →
      tcount.shown = true →
      (∀ x, ((missingBar s.thread bar).or (missingCount s.thread tcount)).or (missingPred s.thread c.idx) = some x →
        exec (.barRed redop reg0 bar tcount c p) s = .fault (.unwrittenRegister x)) ∧
      (s.thread.barReadable bar = true → s.thread.countReadable tcount = true → s.thread.psrcReadable c = true →
        (15 < s.thread.barValue bar →
          exec (.barRed redop reg0 bar tcount c p) s = .fault (.badBarrier (s.thread.barValue bar))) ∧
        (s.thread.barValue bar ≤ 15 → s.thread.countValue tcount ≠ 0 →
          s.thread.countValue tcount % s.params.warpSize ≠ 0 →
          exec (.barRed redop reg0 bar tcount c p) s = .fault (.badThreadCount (s.thread.countValue tcount))))) ∧
    (∀ (b : Fin 16) (k n : Nat), barRedReady redop reg0 bar tcount c p b k s →
      n = (if k = 0 then s.blockSize else k) → s.barriers[b].expected ≠ some s.barriers[b].arrived →
      (∃ m, s.barriers[b].expected = some m ∧ m ≠ n) ∨ (∃ w ∈ s.barriers[b].waiters, w.redop ≠ redop) →
      exec (.barRed redop reg0 bar tcount c p) s = .fault (.barrierMismatch b))

/-- Where BAR.ARV stops: as BAR.RED (the first unwritten register of barrier and count by name, log 16), with the form
of its own and a count of zero among the bad counts (`41_sync_atomic.md` rules R140, R142, R153; a `redop` of 3 is
`IllegalEncoding`, DEDUCED from `30_encoding.md` rule R92, log 15). -/
def Obligations.BarArvStops : Prop :=
  ∀ (s : State) (redop : RedOp) (reg0 : RegIdx) (bar : BarSrc) (tcount : CountSrc) (c : PredSrc) (p : PredIdx),
    (redop = .invalid ∨ (∃ v : BitVec 6, bar = .imm v ∧ 15 < v.toNat) →
      exec (.barArv redop reg0 bar tcount c p) s = .fault .illegalEncoding) ∧
    (redop ≠ .invalid → bar.encodable = true →
      redop ≠ .popc ∨ c ≠ ⟨false, pt⟩ ∨ p ≠ pt ∨ (reg0 ≠ 0#6 ∧ reg0 ≠ rz) ∨
        (∃ r upper, tcount = .reg r upper ∧ upper ≠ 0#6) →
      exec (.barArv redop reg0 bar tcount c p) s = .refused .notShown) ∧
    (bar.encodable = true → (reg0 = 0#6 ∨ reg0 = rz) → tcount.shown = true →
      (∀ x, (missingBar s.thread bar).or (missingCount s.thread tcount) = some x →
        exec (.barArv .popc reg0 bar tcount ⟨false, pt⟩ pt) s = .fault (.unwrittenRegister x)) ∧
      (s.thread.barReadable bar = true → s.thread.countReadable tcount = true →
        (15 < s.thread.barValue bar →
          exec (.barArv .popc reg0 bar tcount ⟨false, pt⟩ pt) s = .fault (.badBarrier (s.thread.barValue bar))) ∧
        (s.thread.barValue bar ≤ 15 →
          s.thread.countValue tcount = 0 ∨ s.thread.countValue tcount % s.params.warpSize ≠ 0 →
          exec (.barArv .popc reg0 bar tcount ⟨false, pt⟩ pt) s =
            .fault (.badThreadCount (s.thread.countValue tcount))))) ∧
    (∀ (b : Fin 16) (k m : Nat), barArvReady reg0 bar tcount b k s →
      s.barriers[b].expected ≠ some s.barriers[b].arrived → s.barriers[b].expected = some m → m ≠ k →
      exec (.barArv .popc reg0 bar tcount ⟨false, pt⟩ pt) s = .fault (.barrierMismatch b))

/-- An instruction that is held has no effect: `exec` answers the state itself; only BAR and VOTE are ever held, BAR
while a release of its barrier is pending, VOTE while its group is not assembled (`41_sync_atomic.md` rules R141, R142,
R150; `70_reset_and_hazards.md` rule R203; log 12). -/
def Obligations.HeldInstructionsChangeNothing : Prop :=
  (∀ (i : Instr) (s : State), holds i s = true → exec i s = .next s ∧ (i.row = .bar ∨ i.row = .vote)) ∧
  (∀ (s : State) (redop : RedOp) (reg0 : RegIdx) (bar : BarSrc) (tcount : CountSrc) (c : PredSrc) (p : PredIdx)
    (b : Fin 16) (k : Nat), barRedReady redop reg0 bar tcount c p b k s →
    (holds (.barRed redop reg0 bar tcount c p) s = true ↔
      s.barriers[b].expected = some s.barriers[b].arrived)) ∧
  (∀ (s : State) (reg0 : RegIdx) (bar : BarSrc) (tcount : CountSrc) (b : Fin 16) (k : Nat),
    barArvReady reg0 bar tcount b k s →
    (holds (.barArv .popc reg0 bar tcount ⟨false, pt⟩ pt) s = true ↔
      s.barriers[b].expected = some s.barriers[b].arrived)) ∧
  (∀ (s : State) (mode : VoteMode) (reg0 : RegIdx) (p1 : PredSrc) (imm28 : BitVec 28) (p0 : PredIdx),
    voteShown mode reg0 imm28 → (holds (.vote mode reg0 p1 imm28 p0) s = true ↔ ¬ voteAssembled s))

/-- A release is chosen only where the count is reached, and is one step of the block: every waiter gets its result,
runs again at the next instruction, the barrier is reinitialised, and no other thread or memory changes
(`41_sync_atomic.md` rule R143). -/
def Obligations.ReleaseFreesAllWaiters : Prop :=
  ∀ (s : State) (b : Fin 16) (rest : List Choice), waitersWait s → s.nextChoice = some (.release b, rest) →
    s.barriers[b].expected = some s.barriers[b].arrived ∧
    ∃ t, step s = .next t ∧ t.barriers = s.barriers.set b.val ⟨0, none, [], [], []⟩ ∧
      t.gmem = s.gmem ∧ t.code = s.code ∧ t.record = s.record ∧ t.params = s.params ∧ t.blockSize = s.blockSize ∧
      (∃ released, t.history = .release b s.barriers[b].arrivers released :: s.history ∧
        released.map Prod.fst = s.barriers[b].waiters.map Waiter.thread) ∧
      ∀ (i : Nat) (u : Thread), s.threadList[i]? = some u →
        ((∀ w ∈ s.barriers[b].waiters, w.thread ≠ i) → t.threadList[i]? = some u) ∧
        (∀ w ∈ s.barriers[b].waiters, w.thread = i →
          (w.redop = .popc → t.threadList[i]? = some
            { u.writeReg w.reg0 (BitVec.ofNat 32 (s.barriers[b].votes.count true)) with
              status := .running, pc := u.pc + 8 }) ∧
          (w.redop = .and → t.threadList[i]? = some
            { u.writePred w.p (decide (∀ v ∈ s.barriers[b].votes, v = true)) with
              status := .running, pc := u.pc + 8 }) ∧
          (w.redop = .or → t.threadList[i]? = some
            { u.writePred w.p (decide (∃ v ∈ s.barriers[b].votes, v = true)) with
              status := .running, pc := u.pc + 8 }))

/-- MEMBAR records its fence and goes on; the invalid level faults (`41_sync_atomic.md` rule R144; the place in the
event is the model's, log 14). -/
def Obligations.MembarRecordsAFence : Prop :=
  fixedBitsRefused "MEMBAR" ∧
  (∀ s : State, exec (.membar .invalid) s = .fault .illegalEncoding) ∧
  (∀ (s : State) (lvl : Lvl), lvl ≠ .invalid → exec (.membar lvl) s = .next { s with
    thread := { s.thread with pc := s.thread.pc + 8 }
    history := .fence s.index s.thread.place lvl :: s.history })

/-- What the memory order guarantees of two recorded accesses, and nothing else: one thread executed both in this
order and they overlap (b) or one of its fences that covers the observer stands between (c); or a release separates
the first, before its thread arrived, from the second, after its thread was released (`20_memory.md` rules R58, R59,
R63; places and observers are the model's, log 14). -/
def Obligations.MemoryOrderGuarantees : Prop :=
  (∀ (h : List Event) (o : Observer) (t p a n u q b m : Nat) (x y x' y' : Wide),
    guaranteed h o (.access t p a n x y) (.access u q b m x' y') = true ↔
      (t = u ∧ p < q ∧ ((a < b + m ∧ b < a + n) ∨
        ∃ k lvl, Event.fence t k lvl ∈ h ∧ fenceCovers lvl o = true ∧ p < k ∧ k ≤ q)) ∨
      ∃ c arrived released k l, Event.release c arrived released ∈ h ∧ (t, k) ∈ arrived ∧ p < k ∧
        (u, l) ∈ released ∧ l ≤ q) ∧
  (∀ (lvl : Lvl) (o : Observer), fenceCovers lvl o = true ↔
    (lvl = .cta ∧ o = .block) ∨ (lvl = .gl ∧ o ≠ .outside) ∨ lvl = .sys)

/-- Every step keeps the total order of the accesses within the guarantees of the memory order, for every observer,
with the places of the events in agreement with the threads (`20_memory.md` rules R58, R59, R63; log 14). -/
def Obligations.StepKeepsMemoryOrder : Prop :=
  ∀ s t : State, MemoryOrder s → step s = .next t → MemoryOrder t

/-- With the stronger `MemModel` every step keeps each thread's accesses in program order, and none may be placed
(`20_memory.md` rule R58: a model may replace (c) by sequential consistency; log 14). -/
def Obligations.StepKeepsSequentialOrder : Prop :=
  (∀ s t : State, sequentialOrder s → step s = .next t → sequentialOrder t) ∧
  (∀ (s : State) (i k : Nat) (v : Wide), s.params.memModel = .sequential → s.enabled (.placed i k v) = false)

/-- What rule R58 orders and no more: by default a running thread's access may stand before the last `k` events of the
total order, reading any value, exactly if none of them is an access that rule R58 guarantees to come before it
(`20_memory.md` rule R58: these guarantees "and no others"; which of these choices are made, so that the order is
complete after them, is log 14). -/
def Obligations.AccessMayStandWhereNotGuaranteed : Prop :=
  ∀ (s : State) (i k : Nat) (v : Wide) (t : Thread) (x : Access), s.params.memModel = .relaxed →
    s.threadList[i]? = some t → t.status = .running → (s.ready (.placed i k v)).nextAccess = some x →
    (s.enabled (.placed i k v) = true ↔ ∀ e ∈ s.history.take k,
      guaranteed s.history .block e (.access i t.place x.addr x.bytes 0#64 0#64) = false)

/-! ## ATOM and RED -/

/-- The offset and the effective address: 20 bits for ATOM, 32 for RED; zero-extended while the top bit is 0;
with the top bit 1 (RED: and `.E`) refused while `AtomOffsetSigned` is unset; the sum is modulo
`2^AWIDTH`, by default `2^32` and with `.E` `2^64` (`41_sync_atomic.md` rule R145, `30_encoding.md` rules R86, R87,
`00_scope.md` rule R5; what a set `AtomOffsetSigned` gives is log 8, another `AWIDTH` log 23). -/
def Obligations.EffectiveAddresses : Prop :=
  (∀ (s : State) (imm20 : BitVec 20), imm20.msb = false →
    s.atomOffset imm20 = .ok (BitVec.ofNat 64 imm20.toNat)) ∧
  (∀ (s : State) (imm20 : BitVec 20), imm20.msb = true →
    (s.params.atomOffsetSigned = none → s.atomOffset imm20 = .error (.refusal .offsetSignOpen)) ∧
    (s.params.atomOffsetSigned = some false → s.atomOffset imm20 = .ok (BitVec.ofNat 64 imm20.toNat)) ∧
    (s.params.atomOffsetSigned = some true → s.atomOffset imm20 = .ok (BitVec.ofInt 64 imm20.toInt))) ∧
  (∀ (s : State) (imm32 : BitVec 32), s.params.addrWidth ≤ 32 →
    s.redOffset false imm32 = .ok (BitVec.ofNat 64 imm32.toNat)) ∧
  (∀ (s : State) (imm32 : BitVec 32), imm32.msb = false →
    s.redOffset true imm32 = .ok (BitVec.ofNat 64 imm32.toNat)) ∧
  (∀ (s : State) (imm32 : BitVec 32), imm32.msb = true →
    (s.params.atomOffsetSigned = none → s.redOffset true imm32 = .error (.refusal .offsetSignOpen)) ∧
    (s.params.atomOffsetSigned = some false → s.redOffset true imm32 = .ok (BitVec.ofNat 64 imm32.toNat)) ∧
    (s.params.atomOffsetSigned = some true → s.redOffset true imm32 = .ok (BitVec.ofInt 64 imm32.toInt))) ∧
  (∀ (t : Thread) (reg1 : RegIdx) (off : Wide) (width : Nat), width ≤ 64 →
    effectiveAddress width (t.operandValue false reg1) off = ((t.regValue reg1).toNat + off.toNat) % 2 ^ width ∧
    effectiveAddress width (t.operandValue true reg1) off = ((t.pairValue reg1).toNat + off.toNat) % 2 ^ width) ∧
  (∀ ps : Params, ps.dataWidth false = ps.addrWidth ∧ ps.dataWidth true = ps.addrWidthE) ∧
  (State.reset.params.addrWidth = 32 ∧ State.reset.params.addrWidthE = 64) ∧
  (∀ (t : Thread) (e : Bool), t.operandValue e rz = 0#64)

/-- ATOM: one indivisible access, recorded as one event with both values; `reg3` gets the old value; the thread goes
on; no other byte of memory and no other register changes (`41_sync_atomic.md` rule R148, `20_memory.md` rules R53,
R54). Here the access is the last of the total order so far; `PlacedAccessesStandInTheOrder` is the other case (log
14). -/
def Obligations.AtomPerformsItsAccess : Prop :=
  ∀ (s : State) (op : AtomOp) (ty : AtomType) (e : Bool) (reg3 reg1 : RegIdx) (imm20 : BitVec 20)
    (reg0 reg4 : RegIdx) (off : Wide) (a : Nat) (old new : Wide),
    atomReady op ty e reg3 reg1 imm20 reg0 reg4 off s → s.placing = none →
    a = effectiveAddress (s.params.dataWidth e) (s.thread.operandValue e reg1) off → a % ty.bytes = 0 →
    allocated s a ty.bytes → old = Memory.read s.gmem a ty.bytes →
    new = atomApply op ty old (s.thread.operandValue ty.isWide reg0) (s.thread.operandValue ty.isWide reg4) →
    exec (.atom op ty e reg3 reg1 imm20 reg0 reg4) s = .next { s with
      thread := { s.thread.writeOperand ty.isWide reg3 old with pc := s.thread.pc + 8, place := s.thread.place + 1 }
      gmem := Memory.write s.gmem a ty.bytes new
      history := .access s.index s.thread.place a ty.bytes old new :: s.history } ∧
    (∀ x, x < a ∨ a + ty.bytes ≤ x →
      Memory.readByte (Memory.write s.gmem a ty.bytes new) x = Memory.readByte s.gmem x) ∧
    (∀ r, reg3 = rz ∨ (r ≠ reg3 ∧ (ty.isWide = true → r ≠ reg3 + 1#6)) →
      (s.thread.writeOperand ty.isWide reg3 old).readReg r = s.thread.readReg r) ∧
    (reg3 ≠ rz → (s.thread.writeOperand ty.isWide reg3 old).readOperand ty.isWide reg3 = .ok old)

/-- RED: the access of an ATOM with the old value dropped: no register changes and no other byte of memory
(`41_sync_atomic.md` rule R149, `20_memory.md` rules R53, R54). Here the access is the last of the total order so far
(log 14). -/
def Obligations.RedPerformsItsAccess : Prop :=
  ∀ (s : State) (op : AtomOp) (ty : AtomType) (e : Bool) (reg1 : RegIdx) (imm32 : BitVec 32) (reg0 : RegIdx)
    (off : Wide) (a : Nat) (old new : Wide), redReady op ty e reg1 imm32 reg0 off s → s.placing = none →
    a = effectiveAddress (s.params.dataWidth e) (s.thread.operandValue e reg1) off → a % ty.bytes = 0 →
    allocated s a ty.bytes → old = Memory.read s.gmem a ty.bytes →
    new = atomApply op ty old (s.thread.operandValue ty.isWide reg0) 0#64 →
    exec (.red op ty e reg1 imm32 reg0) s = .next { s with
      thread := { s.thread with pc := s.thread.pc + 8, place := s.thread.place + 1 }
      gmem := Memory.write s.gmem a ty.bytes new
      history := .access s.index s.thread.place a ty.bytes old new :: s.history } ∧
    (∀ x, x < a ∨ a + ty.bytes ≤ x →
      Memory.readByte (Memory.write s.gmem a ty.bytes new) x = Memory.readByte s.gmem x)

/-- An ATOM or RED whose access the step places before the last `k` events of the total order, reading `v`: `reg3` of
ATOM gets `v`, the access is recorded there with both values, the thread goes on, and a byte of it holds what it wrote
unless an access that stands later wrote it; nothing else changes (`20_memory.md` rules R54, R58, `41_sync_atomic.md`
rules R148, R149; that a step may place its access is log 14). -/
def Obligations.PlacedAccessesStandInTheOrder : Prop :=
  (∀ (s : State) (op : AtomOp) (ty : AtomType) (e : Bool) (reg3 reg1 : RegIdx) (imm20 : BitVec 20)
    (reg0 reg4 : RegIdx) (off v : Wide) (a k : Nat) (old new : Wide),
    atomReady op ty e reg3 reg1 imm20 reg0 reg4 off s → s.placing = some ⟨k, v⟩ →
    a = effectiveAddress (s.params.dataWidth e) (s.thread.operandValue e reg1) off → a % ty.bytes = 0 →
    allocated s a ty.bytes → old = (if ty.isWide then v else (v.setWidth 32).setWidth 64) →
    new = atomApply op ty old (s.thread.operandValue ty.isWide reg0) (s.thread.operandValue ty.isWide reg4) →
    ∃ m, exec (.atom op ty e reg3 reg1 imm20 reg0 reg4) s = .next { s with
        thread := { s.thread.writeOperand ty.isWide reg3 old with pc := s.thread.pc + 8, place := s.thread.place + 1 }
        gmem := m
        history := insertEvent k (.access s.index s.thread.place a ty.bytes old new) s.history } ∧
      showsUnder s m k a ty.bytes new) ∧
  (∀ (s : State) (op : AtomOp) (ty : AtomType) (e : Bool) (reg1 : RegIdx) (imm32 : BitVec 32) (reg0 : RegIdx)
    (off v : Wide) (a k : Nat) (old new : Wide), redReady op ty e reg1 imm32 reg0 off s → s.placing = some ⟨k, v⟩ →
    a = effectiveAddress (s.params.dataWidth e) (s.thread.operandValue e reg1) off → a % ty.bytes = 0 →
    allocated s a ty.bytes → old = (if ty.isWide then v else (v.setWidth 32).setWidth 64) →
    new = atomApply op ty old (s.thread.operandValue ty.isWide reg0) 0#64 →
    ∃ m, exec (.red op ty e reg1 imm32 reg0) s = .next { s with
        thread := { s.thread with pc := s.thread.pc + 8, place := s.thread.place + 1 }
        gmem := m
        history := insertEvent k (.access s.index s.thread.place a ty.bytes old new) s.history } ∧
      showsUnder s m k a ty.bytes new)

/-- Where ATOM stops, in the order of the rules: invalid values, pairs and operands not shown, an open offset, a bad
register pair, the first unwritten register of base, `reg0` and (`.CAS`) `reg4` by name (log 16), a misaligned or
unallocated address (`41_sync_atomic.md` rules R146, R148, R153, `10_state.md` rule R25, `20_memory.md` rules R52,
R56, `60_exceptions.md` rule R183). -/
def Obligations.AtomStops : Prop :=
  ∀ (s : State) (op : AtomOp) (ty : AtomType) (e : Bool) (reg3 reg1 : RegIdx) (imm20 : BitVec 20)
    (reg0 reg4 : RegIdx),
    ((∃ code, op = .invalid code) ∨ (∃ code, ty = .invalid code) →
      exec (.atom op ty e reg3 reg1 imm20 reg0 reg4) s = .fault .illegalEncoding) ∧
    ((∀ code, op ≠ .invalid code) → (∀ code, ty ≠ .invalid code) →
      admittedPair op ty = false ∨ (op ≠ .cas ∧ reg4 ≠ 0#6 ∧ reg4 ≠ rz) ∨
        (op = .cas ∧ reg4.toNat ≠ reg0.toNat + ty.bytes / 4) →
      exec (.atom op ty e reg3 reg1 imm20 reg0 reg4) s = .refused .notShown) ∧
    (admittedPair op ty = true → reg4Ok op ty reg0 reg4 = true →
      (imm20.msb = true → s.params.atomOffsetSigned = none →
        exec (.atom op ty e reg3 reg1 imm20 reg0 reg4) s = .refused .offsetSignOpen) ∧
      (∀ off, s.atomOffset imm20 = .ok off →
        ((e = true ∧ pairOk reg1 = false) ∨ (ty.isWide = true ∧ (pairOk reg0 = false ∨ pairOk reg3 = false ∨
            (op = .cas ∧ pairOk reg4 = false))) →
          exec (.atom op ty e reg3 reg1 imm20 reg0 reg4) s = .refused .badRegisterPair) ∧
        (operandOk e reg1 = true → operandOk ty.isWide reg0 = true → operandOk ty.isWide reg3 = true →
          (op = .cas → operandOk ty.isWide reg4 = true) →
          ∀ x, ((missingOperand s.thread e reg1).or (missingOperand s.thread ty.isWide reg0)).or
              (if op = .cas then missingOperand s.thread ty.isWide reg4 else none) = some x →
            exec (.atom op ty e reg3 reg1 imm20 reg0 reg4) s = .fault (.unwrittenRegister x)))) ∧
    (∀ (off : Wide) (a : Nat), atomReady op ty e reg3 reg1 imm20 reg0 reg4 off s →
      a = effectiveAddress (s.params.dataWidth e) (s.thread.operandValue e reg1) off →
      (a % ty.bytes ≠ 0 → exec (.atom op ty e reg3 reg1 imm20 reg0 reg4) s = .fault (.misalignedAddress a)) ∧
      (a % ty.bytes = 0 → ¬ allocated s a ty.bytes →
        exec (.atom op ty e reg3 reg1 imm20 reg0 reg4) s = .fault (.badAddress a)))

/-- Where RED stops, in the order of the rules, with the first unwritten register of base and `reg0` by name (log 16);
`.EXCH` and `.CAS` are no operations of RED (`41_sync_atomic.md` rules R146, R149, `10_state.md` rule R25,
`20_memory.md` rules R52, R56). -/
def Obligations.RedStops : Prop :=
  ∀ (s : State) (op : AtomOp) (ty : AtomType) (e : Bool) (reg1 : RegIdx) (imm32 : BitVec 32) (reg0 : RegIdx),
    ((∃ code, op = .invalid code) ∨ (∃ code, ty = .invalid code) ∨ op = .exch ∨ op = .cas →
      exec (.red op ty e reg1 imm32 reg0) s = .fault .illegalEncoding) ∧
    ((∀ code, op ≠ .invalid code) → (∀ code, ty ≠ .invalid code) → op ≠ .exch → op ≠ .cas →
      admittedPair op ty = false → exec (.red op ty e reg1 imm32 reg0) s = .refused .notShown) ∧
    (admittedPair op ty = true → op ≠ .exch → op ≠ .cas →
      (e = true ∨ 32 < s.params.addrWidth → imm32.msb = true → s.params.atomOffsetSigned = none →
        exec (.red op ty e reg1 imm32 reg0) s = .refused .offsetSignOpen) ∧
      (∀ off, s.redOffset e imm32 = .ok off →
        ((e = true ∧ pairOk reg1 = false) ∨ (ty.isWide = true ∧ pairOk reg0 = false) →
          exec (.red op ty e reg1 imm32 reg0) s = .refused .badRegisterPair) ∧
        (operandOk e reg1 = true → operandOk ty.isWide reg0 = true →
          ∀ x, (missingOperand s.thread e reg1).or (missingOperand s.thread ty.isWide reg0) = some x →
            exec (.red op ty e reg1 imm32 reg0) s = .fault (.unwrittenRegister x)))) ∧
    (∀ (off : Wide) (a : Nat), redReady op ty e reg1 imm32 reg0 off s →
      a = effectiveAddress (s.params.dataWidth e) (s.thread.operandValue e reg1) off →
      (a % ty.bytes ≠ 0 → exec (.red op ty e reg1 imm32 reg0) s = .fault (.misalignedAddress a)) ∧
      (a % ty.bytes = 0 → ¬ allocated s a ty.bytes →
        exec (.red op ty e reg1 imm32 reg0) s = .fault (.badAddress a)))

/-- The pairs of operation and type that are admitted, the integer operations on 32 and 64 bits, and that `.ADD.F32`
is `fadd_ftz_rn` (`41_sync_atomic.md` rules R146, R147, R151). -/
def Obligations.AtomicOperationTable : Prop :=
  (∀ (op : AtomOp) (ty : AtomType), admittedPair op ty = true ↔ (op, ty) ∈
    [(AtomOp.add, AtomType.u32), (.add, .u64), (.add, .s32), (.add, .f32), (.min, .u32), (.min, .s32),
      (.max, .u32), (.max, .s32), (.inc, .u32), (.dec, .u32), (.and, .u32), (.or, .u32), (.xor, .u32),
      (.exch, .u32), (.exch, .u64), (.cas, .u32), (.cas, .u64)]) ∧
  (∀ old b c : Wide, (atomApply .add .u64 old b c).toNat = (old.toNat + b.toNat) % 2 ^ 64 ∧
    atomApply .exch .u64 old b c = b ∧ atomApply .cas .u64 old b c = if old = b then c else old) ∧
  (∀ (old b : BitVec 32) (c : Wide),
    atomApply .add .f32 (old.setWidth 64) (b.setWidth 64) c = (faddFtzRn old b).setWidth 64) ∧
  (∀ old b c : BitVec 32,
    (atomApply .add .u32 (old.setWidth 64) (b.setWidth 64) (c.setWidth 64)).toNat =
      (old.toNat + b.toNat) % 2 ^ 32 ∧
    atomApply .add .s32 (old.setWidth 64) (b.setWidth 64) (c.setWidth 64) =
      atomApply .add .u32 (old.setWidth 64) (b.setWidth 64) (c.setWidth 64) ∧
    (atomApply .min .u32 (old.setWidth 64) (b.setWidth 64) (c.setWidth 64)).toNat = min old.toNat b.toNat ∧
    (atomApply .max .u32 (old.setWidth 64) (b.setWidth 64) (c.setWidth 64)).toNat = max old.toNat b.toNat ∧
    ((atomApply .min .s32 (old.setWidth 64) (b.setWidth 64) (c.setWidth 64)).setWidth 32).toInt =
      min old.toInt b.toInt ∧
    ((atomApply .max .s32 (old.setWidth 64) (b.setWidth 64) (c.setWidth 64)).setWidth 32).toInt =
      max old.toInt b.toInt ∧
    (atomApply .inc .u32 (old.setWidth 64) (b.setWidth 64) (c.setWidth 64)).toNat =
      (if b.toNat ≤ old.toNat then 0 else old.toNat + 1) ∧
    (atomApply .dec .u32 (old.setWidth 64) (b.setWidth 64) (c.setWidth 64)).toNat =
      (if old.toNat = 0 ∨ b.toNat < old.toNat then b.toNat else old.toNat - 1) ∧
    atomApply .and .u32 (old.setWidth 64) (b.setWidth 64) (c.setWidth 64) = (old &&& b).setWidth 64 ∧
    atomApply .or .u32 (old.setWidth 64) (b.setWidth 64) (c.setWidth 64) = (old ||| b).setWidth 64 ∧
    atomApply .xor .u32 (old.setWidth 64) (b.setWidth 64) (c.setWidth 64) = (old ^^^ b).setWidth 64 ∧
    atomApply .exch .u32 (old.setWidth 64) (b.setWidth 64) (c.setWidth 64) = b.setWidth 64 ∧
    atomApply .cas .u32 (old.setWidth 64) (b.setWidth 64) (c.setWidth 64) =
      (if old = b then c else old).setWidth 64)

/-- `fadd_ftz_rn` of two finite numbers whose exact sum, subnormals read as zeros, rounds to a normal number:
the answer is a normal number of the sum's sign that no finite number is nearer to the sum than, and on a tie
its fraction is even (`41_sync_atomic.md` rule R147). Values are in units of `2^-149`. -/
def Obligations.FaddRoundsToNearestEven : Prop :=
  ∀ (x y : BitVec 32) (v : Int), f32Exp x ≠ 255 → f32Exp y ≠ 255 → v = f32Value x + f32Value y →
    2 ^ 23 ≤ v.natAbs → v.natAbs < (2 ^ 25 - 1) * 2 ^ 252 →
    1 ≤ f32Exp (faddFtzRn x y) ∧ f32Exp (faddFtzRn x y) ≤ 254 ∧ (faddFtzRn x y).msb = decide (v < 0) ∧
    ∀ u : BitVec 32, f32Exp u ≠ 255 →
      (v - f32Value (faddFtzRn x y)).natAbs ≤ (v - f32Value u).natAbs ∧
      ((v - f32Value (faddFtzRn x y)).natAbs = (v - f32Value u).natAbs → f32Value u ≠ f32Value (faddFtzRn x y) →
        f32Frac (faddFtzRn x y) % 2 = 0)

/-- `fadd_ftz_rn` elsewhere: a subnormal sum becomes the zero of its sign; an exact zero sum is a zero; a NaN
operand, or infinities of opposite signs, give a NaN; the open values are free (`41_sync_atomic.md` rule R147;
log 9). -/
def Obligations.FaddFlushesAndKeepsNaN : Prop :=
  (∀ (x y : BitVec 32) (v : Int), f32Exp x ≠ 255 → f32Exp y ≠ 255 → v = f32Value x + f32Value y →
    0 < v.natAbs → v.natAbs < 2 ^ 23 → faddFtzRn x y = if v < 0 then 0x80000000#32 else 0#32) ∧
  (∀ x y : BitVec 32, f32Exp x ≠ 255 → f32Exp y ≠ 255 → f32Value x + f32Value y = 0 →
    faddFtzRn x y = 0#32 ∨ faddFtzRn x y = 0x80000000#32) ∧
  (∀ x y : BitVec 32, f32IsNaN x = true ∨ f32IsNaN y = true ∨
    (f32IsInf x = true ∧ f32IsInf y = true ∧ x.msb ≠ y.msb) → f32IsNaN (faddFtzRn x y) = true) ∧
  (∀ x : BitVec 32, f32Exp x = 0 → f32Value x = 0)

/-! ## VOTE -/

/-- VOTE, where every live thread of the group is running at it and each can read `p1`: one transition in which
every such thread gets the result in `P[p0]`, the ballot in `R[reg0]` and the next `pc`, and nothing else
changes (`41_sync_atomic.md` rule R150; a lane above 31 has no bit, log 18). -/
def Obligations.VoteCasts : Prop :=
  ∀ (s : State) (mode : VoteMode) (reg0 : RegIdx) (p1 : PredSrc) (imm28 : BitVec 28) (p0 : PredIdx),
    voteShown mode reg0 imm28 → voteAssembled s →
    (∀ j u, inVote s j u → u.predReadable p1.idx = true) → s.thread.status = .running →
    ∃ (t : State) (result : Bool) (ballot : Word), exec (.vote mode reg0 p1 imm28 p0) s = .next t ∧
      (mode = .all → (result = true ↔ ∀ j u, inVote s j u → xor (u.predValue p1.idx) p1.neg = true)) ∧
      (mode = .any → (result = true ↔ ∃ j u, inVote s j u ∧ xor (u.predValue p1.idx) p1.neg = true)) ∧
      (mode = .eq → (result = true ↔ ∀ j u k v, inVote s j u → inVote s k v →
        xor (u.predValue p1.idx) p1.neg = xor (v.predValue p1.idx) p1.neg)) ∧
      (∀ l, l < 32 → (ballot.getLsbD l = true ↔
        ∃ j u, inVote s j u ∧ j % s.params.warpSize = l ∧ xor (u.predValue p1.idx) p1.neg = true)) ∧
      (∀ (i : Nat) (u : Thread), s.threadList[i]? = some u →
        (inVote s i u → t.threadList[i]? = some
          { (u.writePred p0 result).writeReg reg0 ballot with pc := u.pc + 8 }) ∧
        (¬ inVote s i u → t.threadList[i]? = some u)) ∧
      t.index = s.index ∧ t.blockSize = s.blockSize ∧ t.barriers = s.barriers ∧ t.gmem = s.gmem ∧
      t.code = s.code ∧ t.history = s.history ∧ t.record = s.record ∧ t.params = s.params

/-- Where VOTE stops: the unconfirmed modes and the forms not shown are refused, by the word alone; in an
assembled group the voting thread's own unwritten predicate faults it, and another thread's is recorded for that
thread while nothing is written in any other (`41_sync_atomic.md` rule R150; which of several is recorded is
log 13). -/
def Obligations.VoteStops : Prop :=
  ∀ (s : State) (reg0 : RegIdx) (p1 : PredSrc) (imm28 : BitVec 28) (p0 : PredIdx),
    (∀ mode : VoteMode, mode = .vtgR ∨ mode = .vtgA ∨ mode = .vtgRA →
      exec (.vote mode reg0 p1 imm28 p0) s = .refused .unconfirmed) ∧
    (∀ mode : VoteMode, (∃ code, mode = .noRow code) ∨
        ((mode = .all ∨ mode = .any ∨ mode = .eq) ∧ ((mode ≠ .any ∧ reg0 ≠ rz) ∨ imm28 ≠ 0#28)) →
      exec (.vote mode reg0 p1 imm28 p0) s = .refused .notShown) ∧
    (∀ mode : VoteMode, voteShown mode reg0 imm28 → voteAssembled s → s.thread.predReadable p1.idx = false →
      ∃ j : Fin 7, j.val = p1.idx.toNat ∧
        exec (.vote mode reg0 p1 imm28 p0) s = .fault (.unwrittenRegister (.pred j))) ∧
    (∀ (mode : VoteMode) (k : Nat) (u : Thread), voteShown mode reg0 imm28 → voteAssembled s →
      s.thread.predReadable p1.idx = true → inVote s k u → u.predReadable p1.idx = false →
      (∀ j v, j < k → inVote s j v → v.predReadable p1.idx = true) →
      ∃ (t : State) (q : Fin 7), q.val = p1.idx.toNat ∧ exec (.vote mode reg0 p1 imm28 p0) s = .next t ∧
        t.threadList[k]? = some { u with status := .faulted (.unwrittenRegister (.pred q)) } ∧
        (∀ j v, j ≠ k → s.threadList[j]? = some v → t.threadList[j]? = some v) ∧
        t.record = ⟨k, s.thread.pc, some (encode (.vote mode reg0 p1 imm28 p0)),
          .fault (.unwrittenRegister (.pred q))⟩ :: s.record ∧
        t.blockSize = s.blockSize ∧ t.barriers = s.barriers ∧ t.gmem = s.gmem ∧ t.code = s.code ∧
        t.history = s.history ∧ t.params = s.params)
end

