-- ==== Sys2Proof/Laws/Encoding.lean ====
section
/-!
SUPPORT. Small lemmas of the encoding: every modifier value reads back, and a field of a word written as a row
of fields is found by splitting the row.
-/

namespace Sys2Proof

/-! ## Modifier values read back -/

@[simp] theorem CCop.ofCode_code (c : CCop) : CCop.ofCode c.code = c := by cases c <;> rfl

@[simp] theorem CCop.code_ofCode (v : BitVec 5) : (CCop.ofCode v).code = v := by revert v; decide

@[simp] theorem RedOp.ofCode_code (c : RedOp) : RedOp.ofCode c.code = c := by cases c <;> decide

@[simp] theorem RedOp.code_ofCode (v : BitVec 2) : (RedOp.ofCode v).code = v := by revert v; decide

@[simp] theorem Lvl.ofCode_code (c : Lvl) : Lvl.ofCode c.code = c := by cases c <;> decide

@[simp] theorem Lvl.code_ofCode (v : BitVec 2) : (Lvl.ofCode v).code = v := by revert v; decide

theorem NopOp.ofCode_code {c : NopOp} (h : c.wellFormed = true) : NopOp.ofCode c.code = c := by
  cases c with
  | noRow v => revert v; decide
  | _ => rfl

@[simp] theorem NopOp.code_ofCode (v : BitVec 4) : (NopOp.ofCode v).code = v := by revert v; decide

@[simp] theorem NopOp.ofCode_wellFormed (v : BitVec 4) : (NopOp.ofCode v).wellFormed = true := by revert v; decide

theorem AtomOp.ofCode_code {c : AtomOp} (h : c.wellFormed = true) : AtomOp.ofCode c.code = c := by
  cases c with
  | invalid v => revert v; decide
  | _ => rfl

@[simp] theorem AtomOp.code_ofCode (v : BitVec 4) : (AtomOp.ofCode v).code = v := by revert v; decide

@[simp] theorem AtomOp.ofCode_wellFormed (v : BitVec 4) : (AtomOp.ofCode v).wellFormed = true := by revert v; decide

theorem AtomType.ofCode_code {c : AtomType} (h : c.wellFormed = true) : AtomType.ofCode c.code = c := by
  cases c with
  | invalid v => revert v; decide
  | _ => rfl

@[simp] theorem AtomType.code_ofCode (v : BitVec 4) : (AtomType.ofCode v).code = v := by revert v; decide

@[simp] theorem AtomType.ofCode_wellFormed (v : BitVec 4) : (AtomType.ofCode v).wellFormed = true := by
  revert v; decide

theorem VoteMode.ofCode_code {c : VoteMode} (h : c.wellFormed = true) : VoteMode.ofCode c.code = c := by
  cases c with
  | noRow v => revert v; decide
  | _ => rfl

@[simp] theorem VoteMode.code_ofCode (v : BitVec 3) : (VoteMode.ofCode v).code = v := by revert v; decide

@[simp] theorem VoteMode.ofCode_wellFormed (v : BitVec 3) : (VoteMode.ofCode v).wellFormed = true := by
  revert v; decide

@[simp] theorem PredSrc.ofCode_code (c : PredSrc) : PredSrc.ofCode c.code = c := by
  rcases c with ⟨n, i⟩; revert i; cases n <;> decide

@[simp] theorem PredSrc.code_ofCode (v : BitVec 4) : (PredSrc.ofCode v).code = v := by revert v; decide

@[simp] theorem bit_beq_one (b : Bool) : (bit b == 1#1) = b := by cases b <;> rfl

@[simp] theorem bit_eq_one (b : Bool) : (bit b = 1#1) = (b = true) := by cases b <;> simp [bit]

/-- `mod3` reassembled from the two fields it is split over (rule R82). -/
@[simp] theorem AtomType.t321_append_t0 (ty : AtomType) : ty.t321 ++ ty.t0 = ty.code := by
  unfold AtomType.t321 AtomType.t0; generalize ty.code = v; revert v; decide

/-- `imm20` reassembled from its two parts (rule R86). -/
@[simp] theorem imm20_append (v : BitVec 20) : (v.extractLsb' 17 3 ++ v.extractLsb' 0 17 : BitVec 20) = v := by
  rw [BitVec.extractLsb'_append_extractLsb'_eq_extractLsb'] <;> simp

/-- The two halves of a register-form thread count (rule R80). -/
theorem count_halves (upper r : BitVec 6) :
    (upper ++ r).extractLsb' 0 6 = r ∧ (upper ++ r).extractLsb' 6 6 = upper := by
  constructor
  · rw [BitVec.extractLsb'_append_eq_of_add_le (by decide)]; simp
  · rw [BitVec.extractLsb'_append_eq_of_le (by decide)]; simp

/-! ## Fields of a row of fields -/

/-- A field of a word written as a row of fields. Rewrite with this, then split the row with
`BitVec.extractLsb'_append_eq_of_le` and `BitVec.extractLsb'_append_eq_of_add_le` (discharged by `decide`). -/
theorem field_wordOf {n : Nat} (x : BitVec n) (lo len : Nat) (h : n = 64) :
    field (wordOf x) lo len = x.extractLsb' lo len := by
  subst h; simp [field, wordOf]

/-- A field that crosses the border of a row of fields. -/
theorem extract_across {v w : Nat} (x : BitVec v) (y : BitVec w) (lo len : Nat) (h : lo < w)
    (h' : ¬lo + len ≤ w) :
    (x ++ y).extractLsb' lo len
      = BitVec.cast (by omega) (x.extractLsb' (lo - w) (len - (w - lo)) ++ y.extractLsb' lo (w - lo)) := by
  rw [BitVec.extractLsb'_append_eq_ite]; simp [h, h']

end Sys2Proof
end

