-- ==== Sys2Proof/Laws/Memory.lean ====
section
/-!
SUPPORT. The laws of the byte lists: a read after a write, the canonical form, and what a wide write leaves alone.
-/

namespace Sys2Proof.Machine

open Sys2Proof

/-! ## Listing and removing one byte -/

@[simp] theorem cellsLookup_insert_same (a : Nat) (v : Byte) (m : List Host.Cell) :
    cellsLookup a (cellsInsert a v m) = some v := by
  induction m with
  | nil => simp [cellsInsert, cellsLookup]
  | cons c rest ih =>
    obtain ⟨b, u⟩ := c
    simp only [cellsInsert]
    split
    · simp [cellsLookup]
    · split
      · simp [cellsLookup]
      · next h => simp [cellsLookup, h, ih]

theorem cellsLookup_insert_other {a b : Nat} (h : b ≠ a) (v : Byte) (m : List Host.Cell) :
    cellsLookup b (cellsInsert a v m) = cellsLookup b m := by
  induction m with
  | nil => simp [cellsInsert, cellsLookup, Ne.symm h]
  | cons c rest ih =>
    obtain ⟨k, u⟩ := c
    simp only [cellsInsert]
    split
    · simp [cellsLookup, Ne.symm h]
    · split
      · next hk => subst hk; simp [cellsLookup, Ne.symm h]
      · simp only [cellsLookup, ih]

@[simp] theorem cellsLookup_erase_same (a : Nat) (m : List Host.Cell) : cellsLookup a (cellsErase a m) = none := by
  induction m with
  | nil => rfl
  | cons c rest ih =>
    obtain ⟨k, u⟩ := c
    simp only [cellsErase]
    split
    · exact ih
    · next h => simp [cellsLookup, h, ih]

theorem cellsLookup_erase_other {a b : Nat} (h : b ≠ a) (m : List Host.Cell) :
    cellsLookup b (cellsErase a m) = cellsLookup b m := by
  induction m with
  | nil => rfl
  | cons c rest ih =>
    obtain ⟨k, u⟩ := c
    simp only [cellsErase]
    split
    · next hk => subst hk; simp [cellsLookup, Ne.symm h, ih]
    · simp only [cellsLookup, ih]

/-! ## The order of the addresses -/

theorem cellsAbove_insert {a b : Nat} (hb : b < a) (v : Byte) {m : List Host.Cell} (h : cellsAbove b m = true) :
    cellsAbove b (cellsInsert a v m) = true := by
  induction m with
  | nil => simpa [cellsInsert, cellsAbove] using hb
  | cons c rest ih =>
    obtain ⟨k, u⟩ := c
    simp only [cellsAbove, List.all_cons, Bool.and_eq_true, decide_eq_true_eq] at h ih ⊢
    simp only [cellsInsert]
    split
    · simpa [hb] using h
    · split
      · simpa [hb] using h.2
      · simpa [h.1] using ih h.2

theorem cellsAbove_erase {a b : Nat} {m : List Host.Cell} (h : cellsAbove b m = true) :
    cellsAbove b (cellsErase a m) = true := by
  induction m with
  | nil => rfl
  | cons c rest ih =>
    obtain ⟨k, u⟩ := c
    simp only [cellsAbove, List.all_cons, Bool.and_eq_true, decide_eq_true_eq] at h ih ⊢
    simp only [cellsErase]
    split
    · exact ih h.2
    · simpa [h.1] using ih h.2

theorem cellsAbove_mono {a b : Nat} (hab : a < b) {m : List Host.Cell} (h : cellsAbove b m = true) :
    cellsAbove a m = true := by
  simp only [cellsAbove, List.all_eq_true, decide_eq_true_eq] at h ⊢
  exact fun x hx => Nat.lt_trans hab (h x hx)

/-- Listing a byte keeps the addresses rising. -/
theorem cellsRising_insert (a : Nat) (v : Byte) {m : List Host.Cell} (h : cellsRising m = true) :
    cellsRising (cellsInsert a v m) = true := by
  induction m with
  | nil => rfl
  | cons c rest ih =>
    obtain ⟨k, u⟩ := c
    simp only [cellsRising, Bool.and_eq_true] at h
    simp only [cellsInsert]
    split
    · next hk =>
      have ha : cellsAbove a ((k, u) :: rest) = true := by
        have := cellsAbove_mono hk h.1
        simp only [cellsAbove, List.all_cons, Bool.and_eq_true, decide_eq_true_eq] at this ⊢
        exact ⟨hk, this⟩
      simp only [cellsRising, Bool.and_eq_true]
      exact ⟨ha, h.1, h.2⟩
    · split
      · next hk => subst hk; simp [cellsRising, h.1, h.2]
      · next h1 h2 => simp [cellsRising, ih h.2, cellsAbove_insert (show k < a by omega) v h.1]

/-- Removing a byte keeps the addresses rising. -/
theorem cellsRising_erase (a : Nat) {m : List Host.Cell} (h : cellsRising m = true) :
    cellsRising (cellsErase a m) = true := by
  induction m with
  | nil => rfl
  | cons c rest ih =>
    obtain ⟨k, u⟩ := c
    simp only [cellsRising, Bool.and_eq_true] at h
    simp only [cellsErase]
    split
    · exact ih h.2
    · simp [cellsRising, ih h.2, cellsAbove_erase h.1]

/-! ## `GMem`: one byte -/

@[simp] theorem Memory.readByte_writeByte_same (m : List Host.Cell) (a : Nat) (v : Byte) :
    Memory.readByte (Memory.writeByte m a v) a = v := by
  unfold Memory.readByte Memory.writeByte
  split
  · next h => simp [h]
  · simp

theorem Memory.readByte_writeByte_other (m : List Host.Cell) {a b : Nat} (h : b ≠ a) (v : Byte) :
    Memory.readByte (Memory.writeByte m a v) b = Memory.readByte m b := by
  unfold Memory.readByte Memory.writeByte
  split
  · rw [cellsLookup_erase_other h]
  · rw [cellsLookup_insert_other h]

theorem all_cellsErase {p : Host.Cell → Bool} (a : Nat) {m : List Host.Cell} (h : m.all p = true) :
    (cellsErase a m).all p = true := by
  induction m with
  | nil => rfl
  | cons c rest ih =>
    obtain ⟨k, u⟩ := c
    simp only [List.all_cons, Bool.and_eq_true] at h
    simp only [cellsErase]
    split
    · exact ih h.2
    · simp [h.1, ih h.2]

theorem all_cellsInsert {p : Host.Cell → Bool} {a : Nat} {v : Byte} (hv : p (a, v) = true) {m : List Host.Cell}
    (h : m.all p = true) : (cellsInsert a v m).all p = true := by
  induction m with
  | nil => simp [cellsInsert, hv]
  | cons c rest ih =>
    obtain ⟨k, u⟩ := c
    simp only [List.all_cons, Bool.and_eq_true] at h
    simp only [cellsInsert]
    split
    · simp [hv, h.1, h.2]
    · split
      · simp [hv, h.2]
      · simp [h.1, ih h.2]

/-- Writing a byte keeps the canonical form. -/
theorem Memory.wf_writeByte {m : List Host.Cell} (h : Memory.wf m = true) (a : Nat) (v : Byte) :
    Memory.wf (Memory.writeByte m a v) = true := by
  simp only [Memory.wf, Bool.and_eq_true] at h ⊢
  unfold Memory.writeByte
  split
  · exact ⟨cellsRising_erase a h.1, all_cellsErase a h.2⟩
  · next hv => exact ⟨cellsRising_insert a v h.1, all_cellsInsert (by simpa using hv) h.2⟩

/-! ## `GMem`: a wide access -/

@[simp] theorem Memory.write_zero (m : List Host.Cell) (a : Nat) (v : Wide) : Memory.write m a 0 v = m := rfl

theorem Memory.write_succ (m : List Host.Cell) (a n : Nat) (v : Wide) :
    Memory.write m a (n + 1) v = Memory.writeByte (Memory.write m (a + 1) n (v >>> 8)) a (v.setWidth 8) := rfl

@[simp] theorem Memory.read_zero (m : List Host.Cell) (a : Nat) : Memory.read m a 0 = 0#64 := rfl

theorem Memory.read_succ (m : List Host.Cell) (a n : Nat) :
    Memory.read m a (n + 1) = (Memory.readByte m a).setWidth 64 ||| (Memory.read m (a + 1) n <<< 8) := rfl

/-- Writing a value keeps the canonical form. -/
theorem Memory.wf_write {m : List Host.Cell} (h : Memory.wf m = true) (a n : Nat) (v : Wide) :
    Memory.wf (Memory.write m a n v) = true := by
  induction n generalizing a v with
  | zero => exact h
  | succ n ih => exact Memory.wf_writeByte (ih (a + 1) (v >>> 8)) a _

/-- A write leaves every byte outside its bytes alone. -/
theorem Memory.readByte_write_outside (m : List Host.Cell) {a n b : Nat} (h : b < a ∨ a + n ≤ b) (v : Wide) :
    Memory.readByte (Memory.write m a n v) b = Memory.readByte m b := by
  induction n generalizing a v with
  | zero => rfl
  | succ n ih =>
    rw [Memory.write_succ, Memory.readByte_writeByte_other _ (show b ≠ a by omega), ih (by omega)]

/-- Where nothing is to keep, every byte is written. -/
theorem Memory.writeUnder_eq_write {keep : Nat → Bool} (h : ∀ a, keep a = false) (m : List Host.Cell) (a n : Nat)
    (v : Wide) : Memory.writeUnder m a n v keep = Memory.write m a n v := by
  induction n generalizing a v with
  | zero => rfl
  | succ n ih => simp [Memory.writeUnder, Memory.write_succ, ih, h]

/-- Writing a value under others keeps the canonical form. -/
theorem Memory.wf_writeUnder {m : List Host.Cell} (h : Memory.wf m = true) (a n : Nat) (v : Wide)
    (keep : Nat → Bool) : Memory.wf (Memory.writeUnder m a n v keep) = true := by
  induction n generalizing a v with
  | zero => exact h
  | succ n ih =>
    simp only [Memory.writeUnder]
    split
    · exact ih _ _
    · exact Memory.wf_writeByte (ih _ _) a _

/-- One byte after a write under others. -/
theorem Memory.readByte_writeUnder (m : List Host.Cell) (a n x : Nat) (v : Wide) (keep : Nat → Bool) :
    Memory.readByte (Memory.writeUnder m a n v keep) x =
      if a ≤ x ∧ x < a + n ∧ keep x = false then (v >>> (8 * (x - a))).setWidth 8 else Memory.readByte m x := by
  induction n generalizing a v with
  | zero => rw [if_neg (by omega)]; rfl
  | succ n ih =>
    simp only [Memory.writeUnder]
    by_cases hx : x = a
    · subst hx
      cases hk : keep x with
      | true => rw [if_pos rfl, ih, if_neg (by omega), if_neg (by simp)]
      | false => simp
    · have hs : v >>> 8 >>> (8 * (x - (a + 1))) = v >>> (8 * (x - a)) ∨ ¬ a + 1 ≤ x := by
        by_cases h : a + 1 ≤ x
        · left
          rw [← BitVec.shiftRight_add, show 8 + 8 * (x - (a + 1)) = 8 * (x - a) by omega]
        · exact .inr h
      have hi : Memory.readByte (Memory.writeUnder m (a + 1) n (v >>> 8) keep) x =
          if a ≤ x ∧ x < a + (n + 1) ∧ keep x = false then (v >>> (8 * (x - a))).setWidth 8
          else Memory.readByte m x := by
        rw [ih]
        rcases hs with h | h
        · rw [h]
          exact if_congr ⟨fun ⟨h1, h2, h3⟩ => ⟨by omega, by omega, h3⟩, fun ⟨h1, h2, h3⟩ => ⟨by omega, by omega, h3⟩⟩
            rfl rfl
        · rw [if_neg (by omega), if_neg (by omega)]
      split
      · exact hi
      · rw [Memory.readByte_writeByte_other _ hx]
        exact hi

/-- One byte after a write. -/
theorem Memory.readByte_write (m : List Host.Cell) (a n x : Nat) (v : Wide) :
    Memory.readByte (Memory.write m a n v) x =
      if a ≤ x ∧ x < a + n then (v >>> (8 * (x - a))).setWidth 8 else Memory.readByte m x := by
  rw [← Memory.writeUnder_eq_write (keep := fun _ => false) (fun _ => rfl), Memory.readByte_writeUnder]
  simp

/-- Equal bytes read as equal values. -/
theorem Memory.read_congr {m m' : List Host.Cell} {a n : Nat}
    (h : ∀ k, k < n → Memory.readByte m (a + k) = Memory.readByte m' (a + k)) :
    Memory.read m a n = Memory.read m' a n := by
  induction n generalizing a with
  | zero => rfl
  | succ n ih =>
    have h0 := h 0 (by omega)
    rw [Memory.read_succ, Memory.read_succ, ih (fun k hk => by
      have := h (k + 1) (by omega)
      simpa [Nat.add_assoc, Nat.add_comm 1 k] using this)]
    simp only [Nat.add_zero] at h0
    rw [h0]

/-! ## The state after reset -/

theorem State.reset_gmem_wf : Memory.wf State.reset.gmem = true := by decide

theorem State.reset_code_rising : cellsRising State.reset.code = true := by decide

end Sys2Proof.Machine
end

