-- ==== Sys2Proof/Laws/State.lean ====
section
/-!
SUPPORT. One lemma per field per update, so that no proof unfolds a record update.
-/

namespace Sys2Proof.Machine

open Sys2Proof

/-! ## `State` -/

@[simp] theorem State.setPc_lower (s : State) (t : CodeAddr) : (s.setPc t).lower = s.lower := rfl
@[simp] theorem State.setPc_thread (s : State) (t : CodeAddr) : (s.setPc t).thread = { s.thread with pc := t } := rfl
@[simp] theorem State.setPc_higher (s : State) (t : CodeAddr) : (s.setPc t).higher = s.higher := rfl
@[simp] theorem State.setPc_barriers (s : State) (t : CodeAddr) : (s.setPc t).barriers = s.barriers := rfl
@[simp] theorem State.setPc_gmem (s : State) (t : CodeAddr) : (s.setPc t).gmem = s.gmem := rfl
@[simp] theorem State.setPc_code (s : State) (t : CodeAddr) : (s.setPc t).code = s.code := rfl
@[simp] theorem State.setPc_history (s : State) (t : CodeAddr) : (s.setPc t).history = s.history := rfl
@[simp] theorem State.setPc_record (s : State) (t : CodeAddr) : (s.setPc t).record = s.record := rfl
@[simp] theorem State.setPc_params (s : State) (t : CodeAddr) : (s.setPc t).params = s.params := rfl
@[simp] theorem State.setPc_schedule (s : State) (t : CodeAddr) : (s.setPc t).schedule = s.schedule := rfl
@[simp] theorem State.setPc_tick (s : State) (t : CodeAddr) : (s.setPc t).tick = s.tick := rfl
@[simp] theorem State.setPc_placing (s : State) (t : CodeAddr) : (s.setPc t).placing = s.placing := rfl

@[simp] theorem State.advance_lower (s : State) : (s.advance).lower = s.lower := rfl
@[simp] theorem State.advance_thread (s : State) :
    (s.advance).thread = { s.thread with pc := s.thread.pc + Config.ibytes } := rfl
@[simp] theorem State.advance_higher (s : State) : (s.advance).higher = s.higher := rfl
@[simp] theorem State.advance_barriers (s : State) : (s.advance).barriers = s.barriers := rfl
@[simp] theorem State.advance_gmem (s : State) : (s.advance).gmem = s.gmem := rfl
@[simp] theorem State.advance_code (s : State) : (s.advance).code = s.code := rfl
@[simp] theorem State.advance_history (s : State) : (s.advance).history = s.history := rfl
@[simp] theorem State.advance_record (s : State) : (s.advance).record = s.record := rfl
@[simp] theorem State.advance_params (s : State) : (s.advance).params = s.params := rfl
@[simp] theorem State.advance_schedule (s : State) : (s.advance).schedule = s.schedule := rfl
@[simp] theorem State.advance_tick (s : State) : (s.advance).tick = s.tick := rfl
@[simp] theorem State.advance_placing (s : State) : (s.advance).placing = s.placing := rfl

@[simp] theorem State.exitThread_lower (s : State) : (s.exitThread).lower = s.lower := rfl
@[simp] theorem State.exitThread_thread (s : State) :
    (s.exitThread).thread = { s.thread with status := .exited } := rfl
@[simp] theorem State.exitThread_higher (s : State) : (s.exitThread).higher = s.higher := rfl
@[simp] theorem State.exitThread_barriers (s : State) : (s.exitThread).barriers = s.barriers := rfl
@[simp] theorem State.exitThread_gmem (s : State) : (s.exitThread).gmem = s.gmem := rfl
@[simp] theorem State.exitThread_code (s : State) : (s.exitThread).code = s.code := rfl
@[simp] theorem State.exitThread_history (s : State) : (s.exitThread).history = s.history := rfl
@[simp] theorem State.exitThread_record (s : State) : (s.exitThread).record = s.record := rfl
@[simp] theorem State.exitThread_params (s : State) : (s.exitThread).params = s.params := rfl
@[simp] theorem State.exitThread_schedule (s : State) : (s.exitThread).schedule = s.schedule := rfl
@[simp] theorem State.exitThread_tick (s : State) : (s.exitThread).tick = s.tick := rfl
@[simp] theorem State.exitThread_placing (s : State) : (s.exitThread).placing = s.placing := rfl

@[simp] theorem State.setBarrier_lower (s : State) (b : Fin 16) (x : Barrier) :
    (s.setBarrier b x).lower = s.lower := rfl
@[simp] theorem State.setBarrier_thread (s : State) (b : Fin 16) (x : Barrier) :
    (s.setBarrier b x).thread = s.thread := rfl
@[simp] theorem State.setBarrier_higher (s : State) (b : Fin 16) (x : Barrier) :
    (s.setBarrier b x).higher = s.higher := rfl
@[simp] theorem State.setBarrier_barriers (s : State) (b : Fin 16) (x : Barrier) :
    (s.setBarrier b x).barriers = s.barriers.set b.val x := rfl
@[simp] theorem State.setBarrier_gmem (s : State) (b : Fin 16) (x : Barrier) : (s.setBarrier b x).gmem = s.gmem := rfl
@[simp] theorem State.setBarrier_code (s : State) (b : Fin 16) (x : Barrier) : (s.setBarrier b x).code = s.code := rfl
@[simp] theorem State.setBarrier_history (s : State) (b : Fin 16) (x : Barrier) :
    (s.setBarrier b x).history = s.history := rfl
@[simp] theorem State.setBarrier_record (s : State) (b : Fin 16) (x : Barrier) :
    (s.setBarrier b x).record = s.record := rfl
@[simp] theorem State.setBarrier_params (s : State) (b : Fin 16) (x : Barrier) :
    (s.setBarrier b x).params = s.params := rfl
@[simp] theorem State.setBarrier_schedule (s : State) (b : Fin 16) (x : Barrier) :
    (s.setBarrier b x).schedule = s.schedule := rfl
@[simp] theorem State.setBarrier_tick (s : State) (b : Fin 16) (x : Barrier) : (s.setBarrier b x).tick = s.tick := rfl
@[simp] theorem State.setBarrier_placing (s : State) (b : Fin 16) (x : Barrier) :
    (s.setBarrier b x).placing = s.placing := rfl

@[simp] theorem State.addEvent_lower (s : State) (e : Event) : (s.addEvent e).lower = s.lower := rfl
@[simp] theorem State.addEvent_thread (s : State) (e : Event) : (s.addEvent e).thread = s.thread := rfl
@[simp] theorem State.addEvent_higher (s : State) (e : Event) : (s.addEvent e).higher = s.higher := rfl
@[simp] theorem State.addEvent_barriers (s : State) (e : Event) : (s.addEvent e).barriers = s.barriers := rfl
@[simp] theorem State.addEvent_gmem (s : State) (e : Event) : (s.addEvent e).gmem = s.gmem := rfl
@[simp] theorem State.addEvent_code (s : State) (e : Event) : (s.addEvent e).code = s.code := rfl
@[simp] theorem State.addEvent_history (s : State) (e : Event) : (s.addEvent e).history = e :: s.history := rfl
@[simp] theorem State.addEvent_record (s : State) (e : Event) : (s.addEvent e).record = s.record := rfl
@[simp] theorem State.addEvent_params (s : State) (e : Event) : (s.addEvent e).params = s.params := rfl
@[simp] theorem State.addEvent_schedule (s : State) (e : Event) : (s.addEvent e).schedule = s.schedule := rfl
@[simp] theorem State.addEvent_tick (s : State) (e : Event) : (s.addEvent e).tick = s.tick := rfl
@[simp] theorem State.addEvent_placing (s : State) (e : Event) : (s.addEvent e).placing = s.placing := rfl

@[simp] theorem State.addRecord_lower (s : State) (i : Nat) (pc : CodeAddr) (w : Option InstrWord) (e : Stop) :
    (s.addRecord i pc w e).lower = s.lower := rfl
@[simp] theorem State.addRecord_thread (s : State) (i : Nat) (pc : CodeAddr) (w : Option InstrWord) (e : Stop) :
    (s.addRecord i pc w e).thread = s.thread := rfl
@[simp] theorem State.addRecord_higher (s : State) (i : Nat) (pc : CodeAddr) (w : Option InstrWord) (e : Stop) :
    (s.addRecord i pc w e).higher = s.higher := rfl
@[simp] theorem State.addRecord_barriers (s : State) (i : Nat) (pc : CodeAddr) (w : Option InstrWord) (e : Stop) :
    (s.addRecord i pc w e).barriers = s.barriers := rfl
@[simp] theorem State.addRecord_gmem (s : State) (i : Nat) (pc : CodeAddr) (w : Option InstrWord) (e : Stop) :
    (s.addRecord i pc w e).gmem = s.gmem := rfl
@[simp] theorem State.addRecord_code (s : State) (i : Nat) (pc : CodeAddr) (w : Option InstrWord) (e : Stop) :
    (s.addRecord i pc w e).code = s.code := rfl
@[simp] theorem State.addRecord_history (s : State) (i : Nat) (pc : CodeAddr) (w : Option InstrWord) (e : Stop) :
    (s.addRecord i pc w e).history = s.history := rfl
@[simp] theorem State.addRecord_record (s : State) (i : Nat) (pc : CodeAddr) (w : Option InstrWord) (e : Stop) :
    (s.addRecord i pc w e).record = ⟨i, pc, w, e⟩ :: s.record := rfl
@[simp] theorem State.addRecord_params (s : State) (i : Nat) (pc : CodeAddr) (w : Option InstrWord) (e : Stop) :
    (s.addRecord i pc w e).params = s.params := rfl
@[simp] theorem State.addRecord_schedule (s : State) (i : Nat) (pc : CodeAddr) (w : Option InstrWord) (e : Stop) :
    (s.addRecord i pc w e).schedule = s.schedule := rfl
@[simp] theorem State.addRecord_tick (s : State) (i : Nat) (pc : CodeAddr) (w : Option InstrWord) (e : Stop) :
    (s.addRecord i pc w e).tick = s.tick := rfl
@[simp] theorem State.addRecord_placing (s : State) (i : Nat) (pc : CodeAddr) (w : Option InstrWord) (e : Stop) :
    (s.addRecord i pc w e).placing = s.placing := rfl

@[simp] theorem State.stopThread_lower (s : State) (w : Option InstrWord) (e : Stop) :
    (s.stopThread w e).lower = s.lower := rfl
@[simp] theorem State.stopThread_thread (s : State) (w : Option InstrWord) (e : Stop) :
    (s.stopThread w e).thread = { s.thread with status := e.status } := rfl
@[simp] theorem State.stopThread_higher (s : State) (w : Option InstrWord) (e : Stop) :
    (s.stopThread w e).higher = s.higher := rfl
@[simp] theorem State.stopThread_barriers (s : State) (w : Option InstrWord) (e : Stop) :
    (s.stopThread w e).barriers = s.barriers := rfl
@[simp] theorem State.stopThread_gmem (s : State) (w : Option InstrWord) (e : Stop) :
    (s.stopThread w e).gmem = s.gmem := rfl
@[simp] theorem State.stopThread_code (s : State) (w : Option InstrWord) (e : Stop) :
    (s.stopThread w e).code = s.code := rfl
@[simp] theorem State.stopThread_history (s : State) (w : Option InstrWord) (e : Stop) :
    (s.stopThread w e).history = s.history := rfl
@[simp] theorem State.stopThread_record (s : State) (w : Option InstrWord) (e : Stop) :
    (s.stopThread w e).record = ⟨s.index, s.thread.pc, w, e⟩ :: s.record := rfl
@[simp] theorem State.stopThread_params (s : State) (w : Option InstrWord) (e : Stop) :
    (s.stopThread w e).params = s.params := rfl
@[simp] theorem State.stopThread_schedule (s : State) (w : Option InstrWord) (e : Stop) :
    (s.stopThread w e).schedule = s.schedule := rfl
@[simp] theorem State.stopThread_tick (s : State) (w : Option InstrWord) (e : Stop) :
    (s.stopThread w e).tick = s.tick := rfl
@[simp] theorem State.stopThread_placing (s : State) (w : Option InstrWord) (e : Stop) :
    (s.stopThread w e).placing = s.placing := rfl

@[simp] theorem State.mapThreads_lower (s : State) (f : Nat → Thread → Thread) :
    (s.mapThreads f).lower = s.lower.mapIdx f := rfl
@[simp] theorem State.mapThreads_thread (s : State) (f : Nat → Thread → Thread) :
    (s.mapThreads f).thread = f s.index s.thread := rfl
@[simp] theorem State.mapThreads_higher (s : State) (f : Nat → Thread → Thread) :
    (s.mapThreads f).higher = s.higher.mapIdx (fun k => f (s.index + 1 + k)) := rfl
@[simp] theorem State.mapThreads_barriers (s : State) (f : Nat → Thread → Thread) :
    (s.mapThreads f).barriers = s.barriers := rfl
@[simp] theorem State.mapThreads_gmem (s : State) (f : Nat → Thread → Thread) : (s.mapThreads f).gmem = s.gmem := rfl
@[simp] theorem State.mapThreads_code (s : State) (f : Nat → Thread → Thread) : (s.mapThreads f).code = s.code := rfl
@[simp] theorem State.mapThreads_history (s : State) (f : Nat → Thread → Thread) :
    (s.mapThreads f).history = s.history := rfl
@[simp] theorem State.mapThreads_record (s : State) (f : Nat → Thread → Thread) :
    (s.mapThreads f).record = s.record := rfl
@[simp] theorem State.mapThreads_params (s : State) (f : Nat → Thread → Thread) :
    (s.mapThreads f).params = s.params := rfl
@[simp] theorem State.mapThreads_schedule (s : State) (f : Nat → Thread → Thread) :
    (s.mapThreads f).schedule = s.schedule := rfl
@[simp] theorem State.mapThreads_tick (s : State) (f : Nat → Thread → Thread) : (s.mapThreads f).tick = s.tick := rfl
@[simp] theorem State.mapThreads_placing (s : State) (f : Nat → Thread → Thread) :
    (s.mapThreads f).placing = s.placing := rfl

@[simp] theorem State.releaseBarrier_lower (s : State) (b : Fin 16) :
    (s.releaseBarrier b).lower = s.lower.mapIdx s.barriers[b].releaseThread := rfl
@[simp] theorem State.releaseBarrier_thread (s : State) (b : Fin 16) :
    (s.releaseBarrier b).thread = s.barriers[b].releaseThread s.index s.thread := rfl
@[simp] theorem State.releaseBarrier_higher (s : State) (b : Fin 16) :
    (s.releaseBarrier b).higher = s.higher.mapIdx (fun k => s.barriers[b].releaseThread (s.index + 1 + k)) := rfl
@[simp] theorem State.releaseBarrier_barriers (s : State) (b : Fin 16) :
    (s.releaseBarrier b).barriers = s.barriers.set b.val Barrier.idle := rfl
@[simp] theorem State.releaseBarrier_gmem (s : State) (b : Fin 16) : (s.releaseBarrier b).gmem = s.gmem := rfl
@[simp] theorem State.releaseBarrier_code (s : State) (b : Fin 16) : (s.releaseBarrier b).code = s.code := rfl
@[simp] theorem State.releaseBarrier_history (s : State) (b : Fin 16) :
    (s.releaseBarrier b).history = .release b s.barriers[b].arrivers
      (s.barriers[b].waiters.map (fun w => (w.thread, s.placeOf w.thread))) :: s.history := rfl
@[simp] theorem State.releaseBarrier_record (s : State) (b : Fin 16) : (s.releaseBarrier b).record = s.record := rfl
@[simp] theorem State.releaseBarrier_params (s : State) (b : Fin 16) : (s.releaseBarrier b).params = s.params := rfl
@[simp] theorem State.releaseBarrier_schedule (s : State) (b : Fin 16) :
    (s.releaseBarrier b).schedule = s.schedule := rfl
@[simp] theorem State.releaseBarrier_tick (s : State) (b : Fin 16) : (s.releaseBarrier b).tick = s.tick := rfl
@[simp] theorem State.releaseBarrier_placing (s : State) (b : Fin 16) :
    (s.releaseBarrier b).placing = s.placing := rfl

@[simp] theorem State.atomicRMW_old (s : State) (p a n : Nat) (f : Wide → Wide) :
    (s.atomicRMW p a n f).1 = s.valueRead a n := rfl
@[simp] theorem State.atomicRMW_lower (s : State) (p a n : Nat) (f : Wide → Wide) :
    (s.atomicRMW p a n f).2.lower = s.lower := rfl
@[simp] theorem State.atomicRMW_thread (s : State) (p a n : Nat) (f : Wide → Wide) :
    (s.atomicRMW p a n f).2.thread = s.thread := rfl
@[simp] theorem State.atomicRMW_higher (s : State) (p a n : Nat) (f : Wide → Wide) :
    (s.atomicRMW p a n f).2.higher = s.higher := rfl
@[simp] theorem State.atomicRMW_barriers (s : State) (p a n : Nat) (f : Wide → Wide) :
    (s.atomicRMW p a n f).2.barriers = s.barriers := rfl
@[simp] theorem State.atomicRMW_gmem (s : State) (p a n : Nat) (f : Wide → Wide) :
    (s.atomicRMW p a n f).2.gmem = Memory.writeUnder s.gmem a n (f (s.valueRead a n)) s.overwritten := rfl
@[simp] theorem State.atomicRMW_code (s : State) (p a n : Nat) (f : Wide → Wide) :
    (s.atomicRMW p a n f).2.code = s.code := rfl
@[simp] theorem State.atomicRMW_history (s : State) (p a n : Nat) (f : Wide → Wide) :
    (s.atomicRMW p a n f).2.history = insertEvent s.later
      (.access s.index p a n (s.valueRead a n) (f (s.valueRead a n))) s.history := rfl
@[simp] theorem State.atomicRMW_record (s : State) (p a n : Nat) (f : Wide → Wide) :
    (s.atomicRMW p a n f).2.record = s.record := rfl
@[simp] theorem State.atomicRMW_params (s : State) (p a n : Nat) (f : Wide → Wide) :
    (s.atomicRMW p a n f).2.params = s.params := rfl
@[simp] theorem State.atomicRMW_schedule (s : State) (p a n : Nat) (f : Wide → Wide) :
    (s.atomicRMW p a n f).2.schedule = s.schedule := rfl
@[simp] theorem State.atomicRMW_tick (s : State) (p a n : Nat) (f : Wide → Wide) :
    (s.atomicRMW p a n f).2.tick = s.tick := rfl
@[simp] theorem State.atomicRMW_placing (s : State) (p a n : Nat) (f : Wide → Wide) :
    (s.atomicRMW p a n f).2.placing = s.placing := rfl

@[simp] theorem State.access_old (s : State) (x : Access) : (s.access x).1 = s.valueRead x.addr x.bytes := rfl
@[simp] theorem State.access_lower (s : State) (x : Access) : (s.access x).2.lower = s.lower := rfl
@[simp] theorem State.access_thread (s : State) (x : Access) :
    (s.access x).2.thread = { s.thread with place := s.thread.place + 1 } := rfl
@[simp] theorem State.access_higher (s : State) (x : Access) : (s.access x).2.higher = s.higher := rfl
@[simp] theorem State.access_barriers (s : State) (x : Access) : (s.access x).2.barriers = s.barriers := rfl
@[simp] theorem State.access_gmem (s : State) (x : Access) :
    (s.access x).2.gmem = Memory.writeUnder s.gmem x.addr x.bytes
      (x.result (s.valueRead x.addr x.bytes)) s.overwritten := rfl
@[simp] theorem State.access_code (s : State) (x : Access) : (s.access x).2.code = s.code := rfl
@[simp] theorem State.access_history (s : State) (x : Access) :
    (s.access x).2.history = insertEvent s.later (.access s.index s.thread.place x.addr x.bytes
      (s.valueRead x.addr x.bytes) (x.result (s.valueRead x.addr x.bytes))) s.history := rfl
@[simp] theorem State.access_record (s : State) (x : Access) : (s.access x).2.record = s.record := rfl
@[simp] theorem State.access_params (s : State) (x : Access) : (s.access x).2.params = s.params := rfl
@[simp] theorem State.access_schedule (s : State) (x : Access) : (s.access x).2.schedule = s.schedule := rfl
@[simp] theorem State.access_tick (s : State) (x : Access) : (s.access x).2.tick = s.tick := rfl
@[simp] theorem State.access_placing (s : State) (x : Access) : (s.access x).2.placing = s.placing := rfl

/-! ## `Thread` -/

@[simp] theorem Thread.writeReg_preds (t : Thread) (i : RegIdx) (v : Word) : (t.writeReg i v).preds = t.preds := by
  unfold Thread.writeReg; split <;> rfl
@[simp] theorem Thread.writeReg_cc (t : Thread) (i : RegIdx) (v : Word) : (t.writeReg i v).cc = t.cc := by
  unfold Thread.writeReg; split <;> rfl
@[simp] theorem Thread.writeReg_pc (t : Thread) (i : RegIdx) (v : Word) : (t.writeReg i v).pc = t.pc := by
  unfold Thread.writeReg; split <;> rfl
@[simp] theorem Thread.writeReg_cs (t : Thread) (i : RegIdx) (v : Word) : (t.writeReg i v).cs = t.cs := by
  unfold Thread.writeReg; split <;> rfl
@[simp] theorem Thread.writeReg_status (t : Thread) (i : RegIdx) (v : Word) : (t.writeReg i v).status = t.status := by
  unfold Thread.writeReg; split <;> rfl
@[simp] theorem Thread.writeReg_place (t : Thread) (i : RegIdx) (v : Word) : (t.writeReg i v).place = t.place := by
  unfold Thread.writeReg; split <;> rfl
@[simp] theorem Thread.writePred_regs (t : Thread) (i : PredIdx) (v : Bool) : (t.writePred i v).regs = t.regs := by
  unfold Thread.writePred; split <;> rfl
@[simp] theorem Thread.writePred_cc (t : Thread) (i : PredIdx) (v : Bool) : (t.writePred i v).cc = t.cc := by
  unfold Thread.writePred; split <;> rfl
@[simp] theorem Thread.writePred_pc (t : Thread) (i : PredIdx) (v : Bool) : (t.writePred i v).pc = t.pc := by
  unfold Thread.writePred; split <;> rfl
@[simp] theorem Thread.writePred_cs (t : Thread) (i : PredIdx) (v : Bool) : (t.writePred i v).cs = t.cs := by
  unfold Thread.writePred; split <;> rfl
@[simp] theorem Thread.writePred_status (t : Thread) (i : PredIdx) (v : Bool) :
    (t.writePred i v).status = t.status := by
  unfold Thread.writePred; split <;> rfl
@[simp] theorem Thread.writePred_place (t : Thread) (i : PredIdx) (v : Bool) : (t.writePred i v).place = t.place := by
  unfold Thread.writePred; split <;> rfl
@[simp] theorem Thread.writePair_preds (t : Thread) (i : RegIdx) (v : Wide) : (t.writePair i v).preds = t.preds := by
  unfold Thread.writePair; split <;> simp
@[simp] theorem Thread.writePair_cc (t : Thread) (i : RegIdx) (v : Wide) : (t.writePair i v).cc = t.cc := by
  unfold Thread.writePair; split <;> simp
@[simp] theorem Thread.writePair_pc (t : Thread) (i : RegIdx) (v : Wide) : (t.writePair i v).pc = t.pc := by
  unfold Thread.writePair; split <;> simp
@[simp] theorem Thread.writePair_cs (t : Thread) (i : RegIdx) (v : Wide) : (t.writePair i v).cs = t.cs := by
  unfold Thread.writePair; split <;> simp
@[simp] theorem Thread.writePair_status (t : Thread) (i : RegIdx) (v : Wide) :
    (t.writePair i v).status = t.status := by
  unfold Thread.writePair; split <;> simp
@[simp] theorem Thread.writePair_place (t : Thread) (i : RegIdx) (v : Wide) : (t.writePair i v).place = t.place := by
  unfold Thread.writePair; split <;> simp
@[simp] theorem Thread.writeOperand_preds (t : Thread) (wide : Bool) (i : RegIdx) (v : Wide) :
    (t.writeOperand wide i v).preds = t.preds := by
  unfold Thread.writeOperand; split <;> simp
@[simp] theorem Thread.writeOperand_cc (t : Thread) (wide : Bool) (i : RegIdx) (v : Wide) :
    (t.writeOperand wide i v).cc = t.cc := by
  unfold Thread.writeOperand; split <;> simp
@[simp] theorem Thread.writeOperand_pc (t : Thread) (wide : Bool) (i : RegIdx) (v : Wide) :
    (t.writeOperand wide i v).pc = t.pc := by
  unfold Thread.writeOperand; split <;> simp
@[simp] theorem Thread.writeOperand_cs (t : Thread) (wide : Bool) (i : RegIdx) (v : Wide) :
    (t.writeOperand wide i v).cs = t.cs := by
  unfold Thread.writeOperand; split <;> simp
@[simp] theorem Thread.writeOperand_status (t : Thread) (wide : Bool) (i : RegIdx) (v : Wide) :
    (t.writeOperand wide i v).status = t.status := by
  unfold Thread.writeOperand; split <;> simp
@[simp] theorem Thread.writeOperand_place (t : Thread) (wide : Bool) (i : RegIdx) (v : Wide) :
    (t.writeOperand wide i v).place = t.place := by
  unfold Thread.writeOperand; split <;> simp
end Sys2Proof.Machine
end

