-- ==== Sys2Proof/Laws/Ops.lean ====
section
/-!
SUPPORT. One lemma per shared operation that says what it does: checks, register and predicate reads and
writes, operands, the control stack, the threads of the block, and the choice of what comes next.
-/

namespace Sys2Proof.Machine

open Sys2Proof Sys2Proof.Safety

/-! ## Checks and outcomes -/

@[simp] theorem check_true (e : Stop) : check true e = .ok () := rfl

@[simp] theorem check_false (e : Stop) : check false e = .error e := rfl

@[simp] theorem checkFault_true (r : Fault) : checkFault true r = .ok () := rfl

@[simp] theorem checkFault_false (r : Fault) : checkFault false r = .error (.fault r) := rfl

@[simp] theorem checkRefuse_true (r : Refusal) : checkRefuse true r = .ok () := rfl

@[simp] theorem checkRefuse_false (r : Refusal) : checkRefuse false r = .error (.refusal r) := rfl

@[simp] theorem except_ok_bind {α β : Type} (a : α) (f : α → Except Stop β) : (Except.ok a >>= f) = f a := rfl

@[simp] theorem except_error_bind {α β : Type} (e : Stop) (f : α → Except Stop β) :
    ((Except.error e : Except Stop α) >>= f) = .error e := rfl

/-- A computation that succeeds is peeled apart at its first step. -/
theorem except_bind_eq_ok {α β : Type} {x : Except Stop α} {f : α → Except Stop β} {b : β} :
    (x >>= f) = .ok b ↔ ∃ a, x = .ok a ∧ f a = .ok b := by
  cases x with
  | error e => simp
  | ok a => simp

/-- A check that succeeds has its condition. -/
theorem check_eq_ok {c : Bool} {e : Stop} {u : Unit} : check c e = .ok u ↔ c = true := by cases c <;> simp

theorem checkFault_eq_ok {c : Bool} {r : Fault} {u : Unit} : checkFault c r = .ok u ↔ c = true := check_eq_ok

theorem checkRefuse_eq_ok {c : Bool} {r : Refusal} {u : Unit} : checkRefuse c r = .ok u ↔ c = true := check_eq_ok

@[simp] theorem outcome_ok (s : State) : outcome (.ok s) = .next s := rfl

@[simp] theorem outcome_fault (r : Fault) : outcome (.error (.fault r)) = .fault r := rfl

@[simp] theorem outcome_refusal (r : Refusal) : outcome (.error (.refusal r)) = .refused r := rfl

/-- An instruction that answers a next state computed it without a stop. -/
theorem outcome_eq_next {x : Except Stop State} {t : State} : outcome x = .next t ↔ x = .ok t := by
  cases x with
  | ok s => simp
  | error e => cases e <;> simp

/-! ## Registers -/

theorem regSource_rz : regSource rz = none := by decide

/-- A readable register reads as its contents. -/
theorem Thread.readReg_of_readable {t : Thread} {i : RegIdx} (h : t.regReadable i = true) :
    t.readReg i = .ok (t.regValue i) := by
  unfold Thread.regReadable at h
  unfold Thread.readReg
  cases hs : regSource i with
  | none =>
    have : ¬i.toNat < 63 := by
      intro hlt
      simp [regSource, hlt] at hs
    simp [Thread.regValue, this]
  | some src => rw [hs] at h; simp at h; simp [h]

/-- A register that is not readable faults. -/
theorem Thread.readReg_of_unwritten {t : Thread} {i : RegIdx} (h : t.regReadable i = false) :
    ∃ src, regSource i = some src ∧ t.readReg i = .error (.fault (.unwrittenRegister src)) := by
  unfold Thread.regReadable at h
  unfold Thread.readReg
  cases hs : regSource i with
  | none => rw [hs] at h; simp at h
  | some src => rw [hs] at h; simp at h; exact ⟨src, rfl, by simp [h]⟩

/-- Reading a register answers its contents or an unwritten fault, and nothing else. -/
theorem Thread.readReg_eq_ok {t : Thread} {i : RegIdx} {v : Word} :
    t.readReg i = .ok v ↔ t.regReadable i = true ∧ v = t.regValue i := by
  cases h : t.regReadable i with
  | true => rw [Thread.readReg_of_readable h]; simp [eq_comm]
  | false => obtain ⟨src, _, he⟩ := Thread.readReg_of_unwritten h; simp [he]

@[simp] theorem Thread.regReadable_rz (t : Thread) : t.regReadable rz = true := by
  simp [Thread.regReadable, regSource_rz]

@[simp] theorem Thread.regValue_rz (t : Thread) : t.regValue rz = 0#32 := by
  simp [Thread.regValue, rz]

@[simp] theorem Thread.writeReg_rz (t : Thread) (v : Word) : t.writeReg rz v = t := by
  simp [Thread.writeReg, rz]

theorem Thread.regValue_writeReg_same (t : Thread) {i : RegIdx} (h : i ≠ rz) (v : Word) :
    (t.writeReg i v).regValue i = v := by
  have : i.toNat < 63 := by
    have h1 := i.isLt
    have h2 : i.toNat ≠ 63 := fun hc => h (BitVec.eq_of_toNat_eq (by simpa [rz] using hc))
    omega
  simp [Thread.regValue, Thread.writeReg, this]

theorem Thread.regValue_writeReg_other (t : Thread) {i j : RegIdx} (h : j ≠ i) (v : Word) :
    (t.writeReg i v).regValue j = t.regValue j := by
  have hne : i.toNat ≠ j.toNat := fun hc => h (BitVec.eq_of_toNat_eq hc.symm)
  unfold Thread.regValue Thread.writeReg
  split
  · split
    · simp [hne]
    · rfl
  · rfl

theorem Thread.regReadable_writeReg_same (t : Thread) (i : RegIdx) (v : Word) :
    (t.writeReg i v).regReadable i = true := by
  by_cases h : i.toNat < 63 <;> simp [Thread.regReadable, regSource, Thread.writeReg, h]

/-- A readable pair reads as its contents. -/
theorem Thread.readPair_of_readable {t : Thread} {i : RegIdx} (h : t.pairReadable i = true) :
    t.readPair i = .ok (t.pairValue i) := by
  unfold Thread.pairReadable at h
  unfold Thread.readPair Thread.pairValue
  split
  · rfl
  · next hi =>
    simp [hi] at h
    rw [Thread.readReg_of_readable h.1, Thread.readReg_of_readable h.2]

/-- A readable operand reads as its contents. -/
theorem Thread.readOperand_of_readable {t : Thread} {wide : Bool} {i : RegIdx}
    (h : t.operandReadable wide i = true) : t.readOperand wide i = .ok (t.operandValue wide i) := by
  unfold Thread.operandReadable at h
  unfold Thread.readOperand Thread.operandValue
  cases wide with
  | true => simpa using Thread.readPair_of_readable (by simpa using h)
  | false => simp at h; simp [Thread.readReg_of_readable h, Except.map]

/-! ## Predicates and conditions -/

theorem predSource_pt : predSource pt = none := by decide

@[simp] theorem Thread.predValue_pt (t : Thread) : t.predValue pt = true := by simp [Thread.predValue, pt]

@[simp] theorem Thread.predReadable_pt (t : Thread) : t.predReadable pt = true := by
  simp [Thread.predReadable, predSource_pt]

@[simp] theorem Thread.writePred_pt (t : Thread) (v : Bool) : t.writePred pt v = t := by
  simp [Thread.writePred, pt]

theorem Thread.predValue_writePred_same (t : Thread) {i : PredIdx} (h : i ≠ pt) (v : Bool) :
    (t.writePred i v).predValue i = v := by
  have : i.toNat < 7 := by
    have h1 := i.isLt
    have h2 : i.toNat ≠ 7 := fun hc => h (BitVec.eq_of_toNat_eq (by simpa [pt] using hc))
    omega
  simp [Thread.predValue, Thread.writePred, this]

theorem Thread.predValue_writePred_other (t : Thread) {i j : PredIdx} (h : j ≠ i) (v : Bool) :
    (t.writePred i v).predValue j = t.predValue j := by
  have hne : i.toNat ≠ j.toNat := fun hc => h (BitVec.eq_of_toNat_eq hc.symm)
  unfold Thread.predValue Thread.writePred
  split
  · split
    · simp [hne]
    · rfl
  · rfl

/-- A readable predicate source reads as its value. -/
theorem Thread.psrc_of_readable {t : Thread} {c : PredSrc} (h : t.psrcReadable c = true) :
    t.psrc c = .ok (t.psrcValue c) := by
  unfold Thread.psrcReadable Thread.predReadable at h
  unfold Thread.psrc
  cases hs : predSource c.idx with
  | none => rfl
  | some src => rw [hs] at h; simp at h; simp [h]

/-- A condition that can be read is the test's value. -/
theorem Thread.condition_of_readable {t : Thread} {ccop : CCop} (h : t.condReadable ccop = true) :
    t.condition ccop = .ok (ccTest ccop t.cc) := by
  simp [Thread.condition, h]

@[simp] theorem ccTest_t (cc : CCState) : ccTest .t cc = true := rfl

@[simp] theorem ccTest_f (cc : CCState) : ccTest .f cc = false := rfl

@[simp] theorem Thread.condReadable_t (t : Thread) : t.condReadable .t = true := by
  simp [Thread.condReadable, CCop.readsCC]

@[simp] theorem Thread.condReadable_f (t : Thread) : t.condReadable .f = true := by
  simp [Thread.condReadable, CCop.readsCC]

/-! ## BAR's operands -/

theorem Thread.readBar_of_readable {t : Thread} {b : BarSrc} (h : t.barReadable b = true) :
    t.readBar b = .ok (t.barValue b) := by
  cases b with
  | reg r => simp [Thread.barReadable] at h; simp [Thread.readBar, Thread.barValue, Thread.readReg_of_readable h, Except.map]
  | imm v => rfl

theorem Thread.readCount_of_readable {t : Thread} {k : CountSrc} (h : t.countReadable k = true) :
    t.readCount k = .ok (t.countValue k) := by
  cases k with
  | reg r u =>
    simp [Thread.countReadable] at h
    simp [Thread.readCount, Thread.countValue, Thread.readReg_of_readable h, Except.map]
  | imm v => rfl

/-! ## Reads that fault name what is missing -/

/-- What a read of `missing` answers: its fault, or the value. -/
def readOr {α : Type} (missing : Option Source) (v : α) : Except Stop α :=
  match missing with
  | some x => .error (.fault (.unwrittenRegister x))
  | none => .ok v

@[simp] theorem readOr_some {α : Type} (x : Source) (v : α) :
    readOr (some x) v = .error (.fault (.unwrittenRegister x)) := rfl

@[simp] theorem readOr_none {α : Type} (v : α) : readOr none v = .ok v := rfl

theorem Thread.readReg_eq (t : Thread) (i : RegIdx) : t.readReg i = readOr (missingReg t i) (t.regValue i) := by
  unfold Thread.readReg missingReg regSource Thread.regValue
  by_cases h : i.toNat < 63
  · by_cases hm : Source.reg ⟨i.toNat, h⟩ ∈ t.unwritten <;> simp [h, hm]
  · simp [h]

theorem Thread.readOperand_eq (t : Thread) (wide : Bool) (i : RegIdx) :
    t.readOperand wide i = readOr (missingOperand t wide i) (t.operandValue wide i) := by
  unfold Thread.readOperand missingOperand Thread.operandValue
  cases wide with
  | false => simp only [Thread.readReg_eq]; cases missingReg t i <;> simp [Except.map]
  | true =>
    by_cases h : i = rz
    · subst h
      simp [Thread.readPair, Thread.pairValue, missingReg, rz]
    · simp only [Thread.readPair, Thread.pairValue, Thread.readReg_eq, h]
      cases missingReg t i <;> cases missingReg t (i + 1#6) <;> simp [h]

theorem Thread.psrc_eq (t : Thread) (c : PredSrc) : t.psrc c = readOr (missingPred t c.idx) (t.psrcValue c) := by
  unfold Thread.psrc missingPred predSource
  by_cases h : c.idx.toNat < 7
  · by_cases hm : Source.pred ⟨c.idx.toNat, h⟩ ∈ t.unwritten <;> simp [h, hm]
  · simp [h]

theorem Thread.readBar_eq (t : Thread) (b : BarSrc) : t.readBar b = readOr (missingBar t b) (t.barValue b) := by
  cases b with
  | reg r => simp only [Thread.readBar, missingBar, Thread.barValue, Thread.readReg_eq]; cases missingReg t r <;> rfl
  | imm v => rfl

theorem Thread.readCount_eq (t : Thread) (k : CountSrc) :
    t.readCount k = readOr (missingCount t k) (t.countValue k) := by
  cases k with
  | reg r u =>
    simp only [Thread.readCount, missingCount, Thread.countValue, Thread.readReg_eq]
    cases missingReg t r <;> rfl
  | imm v => rfl

/-! ## The control stack -/

/-- A push that has room puts its entry on top; one without room overflows. -/
theorem State.csPush_eq (s : State) (k : Kind) (a : CodeAddr) :
    s.csPush k a =
      if s.csHasRoom then .ok { s with thread := { s.thread with cs := ⟨k, a⟩ :: s.thread.cs } }
      else .error (.fault .controlStackOverflow) := rfl

/-- Unwinding takes the first entry of the kind and drops what stands above it. -/
theorem csUnwindTo_append {k : Kind} {a : CodeAddr} {above rest : List CsEntry} (h : ∀ e ∈ above, e.kind ≠ k) :
    csUnwindTo k (above ++ ⟨k, a⟩ :: rest) = some (a, rest) := by
  induction above with
  | nil => simp [csUnwindTo]
  | cons e above ih =>
    simp only [List.cons_append, csUnwindTo, h e (by simp), if_false]
    exact ih (fun e' he' => h e' (by simp [he']))

/-- Unwinding fails exactly where no entry is of the kind. -/
theorem csUnwindTo_eq_none {k : Kind} {l : List CsEntry} : csUnwindTo k l = none ↔ ∀ e ∈ l, e.kind ≠ k := by
  induction l with
  | nil => simp [csUnwindTo]
  | cons e l ih =>
    simp only [csUnwindTo]
    split
    · next h => simp [h]
    · next h => simp [h, ih]

/-! ## The threads of the block -/

@[simp] theorem State.index_lt_blockSize (s : State) : s.index < s.blockSize := by
  simp [State.index, State.blockSize, State.threadList]

@[simp] theorem State.threadList_index (s : State) : s.threadList[s.index]? = some s.thread := by
  simp [State.threadList, State.index]

/-- Changing every thread by its index changes the thread list entry by entry. -/
theorem State.mapThreads_threadList (s : State) (f : Nat → Thread → Thread) :
    (s.mapThreads f).threadList = s.threadList.mapIdx f := by
  simp [State.threadList, State.index, List.mapIdx_append, List.mapIdx_cons, Nat.add_comm, Nat.add_left_comm]

theorem State.focus_threadList (s : State) (i : Nat) : (s.focus i).threadList = s.threadList := by
  unfold State.focus
  split
  · rfl
  · next t rest h =>
    show s.threadList.take i ++ t :: rest = s.threadList
    rw [← h, List.take_append_drop]

theorem State.focus_thread {s : State} {i : Nat} {t : Thread} (h : s.threadList[i]? = some t) :
    (s.focus i).thread = t ∧ (s.focus i).index = i := by
  have hlt : i < s.threadList.length := (List.getElem?_eq_some_iff.mp h).1
  have hget : s.threadList[i] = t := (List.getElem?_eq_some_iff.mp h).2
  have hd : s.threadList.drop i = t :: s.threadList.drop (i + 1) := by
    rw [List.drop_eq_getElem_cons hlt, hget]
  unfold State.focus State.index
  rw [hd]
  simp [Nat.le_of_lt hlt]

/-! ## Threads and barriers after a change -/

/-- Where only the thread that steps changed, every other thread is as before. -/
theorem State.threadList_of_sides {s u : State} (hl : u.lower = s.lower) (hh : u.higher = s.higher) (i : Nat) :
    u.threadList[i]? = if i = s.index then some u.thread else s.threadList[i]? := by
  unfold State.threadList State.index
  rw [hl, hh, List.getElem?_append, List.getElem?_append]
  by_cases h : i < s.lower.length
  · have : i ≠ s.lower.length := by omega
    simp [h, this]
  · by_cases h2 : i = s.lower.length
    · simp [h2]
    · obtain ⟨k, hk⟩ : ∃ k, i - s.lower.length = k + 1 := ⟨i - s.lower.length - 1, by omega⟩
      simp [h, h2, hk]

/-- Thread `i` after a release. -/
theorem State.releaseBarrier_threadList (s : State) (b : Fin 16) (i : Nat) :
    (s.releaseBarrier b).threadList[i]? = (s.threadList[i]?).map (s.barriers[b].releaseThread i) := by
  have h : (s.releaseBarrier b).threadList = s.threadList.mapIdx s.barriers[b].releaseThread :=
    State.mapThreads_threadList s _
  rw [h, List.getElem?_mapIdx]

/-- Thread `i` after a vote. -/
theorem State.castVote_threadList (s : State) (mode : VoteMode) (reg0 : RegIdx) (p1 : PredSrc) (p0 : PredIdx)
    (i : Nat) :
    (s.castVote mode reg0 p1 p0).threadList[i]? = (s.threadList[i]?).map (fun t =>
      if s.votes i t then t.voted p0 (voteResult mode (s.voters.map (fun p => p.2.psrcValue p1))) reg0 (s.ballot p1)
      else t) := by
  have h : (s.castVote mode reg0 p1 p0).threadList = _ := State.mapThreads_threadList s _
  rw [h, List.getElem?_mapIdx]

/-- Thread `k` after another thread of the vote group was stopped. -/
theorem State.stopVoter_threadList (s : State) (i : Nat) (pc : CodeAddr) (w : InstrWord) (e : Stop) (k : Nat) :
    (s.stopVoter i pc w e).threadList[k]? =
      (s.threadList[k]?).map (fun t => if k = i then { t with status := e.status } else t) := by
  have h : (s.stopVoter i pc w e).threadList = _ := State.mapThreads_threadList s _
  rw [h, List.getElem?_mapIdx]

/-- Setting one barrier leaves the others. -/
theorem barriers_set_get (v : Vector Barrier 16) (b c : Fin 16) (x : Barrier) :
    (v.set b.val x)[c] = if b = c then x else v[c] := by
  by_cases h : b = c
  · subst h
    simp
  · have : b.val ≠ c.val := fun hv => h (Fin.ext hv)
    simp [this, h]

/-- A release gives a thread what the waiter that stands for it says, or nothing. -/
theorem Barrier.releaseThread_cases (x : Barrier) (i : Nat) (t : Thread) :
    (∃ w ∈ x.waiters, w.thread = i ∧ x.releaseThread i t = t.released x.votes w) ∨
      ((∀ w ∈ x.waiters, w.thread ≠ i) ∧ x.releaseThread i t = t) := by
  unfold Barrier.releaseThread
  cases h : x.waiters.find? (fun w => w.thread == i) with
  | some w => exact .inl ⟨w, List.mem_of_find?_eq_some h, by simpa using List.find?_some h, rfl⟩
  | none => exact .inr ⟨by simpa using h, rfl⟩

/-- The set `S` of a vote, by index. -/
theorem State.mem_voters {s : State} {i : Nat} {t : Thread} : (i, t) ∈ s.voters ↔ inVote s i t := by
  unfold State.voters inVote State.votes Params.groupOf
  simp only [List.mem_filter, List.mem_mapIdx, Bool.and_eq_true, bne_iff_ne, beq_iff_eq]
  constructor
  · rintro ⟨⟨k, hk, he⟩, h⟩
    cases he
    exact ⟨by simp [hk], h⟩
  · rintro ⟨h1, h⟩
    obtain ⟨hk, he⟩ := List.getElem?_eq_some_iff.1 h1
    exact ⟨⟨i, hk, by simp [he]⟩, h⟩

theorem State.assembled_iff {s : State} : s.assembled = true ↔ voteAssembled s := by
  unfold State.assembled voteAssembled
  simp only [List.all_eq_true, Bool.and_eq_true, beq_iff_eq]
  exact ⟨fun h i t hv => h (i, t) (State.mem_voters.2 hv), fun h p hp => h p.1 p.2 (State.mem_voters.1 hp)⟩

/-! ## Accesses -/

/-- Two ranges that do not meet lie one below the other. -/
theorem rangesMeet_eq_false {a n b m : Nat} : rangesMeet a n b m = false ↔ b + m ≤ a ∨ a + n ≤ b := by
  simp [rangesMeet]
  omega

@[simp] theorem insertEvent_zero (e : Event) (h : List Event) : insertEvent 0 e h = e :: h := rfl

theorem mem_insertEvent {k : Nat} {e f : Event} {h : List Event} :
    f ∈ insertEvent k e h ↔ f = e ∨ f ∈ h := by
  have := List.mem_append (a := f) (s := h.take k) (t := h.drop k)
  rw [List.take_append_drop] at this
  simp only [insertEvent, List.mem_append, List.mem_cons, this]
  tauto

@[simp] theorem State.later_none {s : State} (h : s.placing = none) : s.later = 0 := by simp [State.later, h]

@[simp] theorem State.valueRead_none {s : State} (h : s.placing = none) (a n : Nat) :
    s.valueRead a n = Memory.read s.gmem a n := by simp [State.valueRead, h]

theorem State.overwritten_none {s : State} (h : s.placing = none) (a : Nat) : s.overwritten a = false := by
  simp [State.overwritten, State.later_none h]

/-- Writing a register or a pair has nothing to do with the thread's accesses. -/
theorem Thread.writeOperand_counted (t : Thread) (wide : Bool) (i : RegIdx) (v : Wide) (n : Nat) :
    { t with place := n }.writeOperand wide i v = { t.writeOperand wide i v with place := n } := by
  simp only [Thread.writeOperand, Thread.writePair, Thread.writeReg]
  split <;> (try split) <;> (try split) <;> (try split) <;> rfl

/-- What ATOM's access does. -/
theorem State.atomAccess_eq (s : State) (x : Access) (reg3 : RegIdx) :
    s.atomAccess x reg3 = { s with
      thread := { s.thread.writeOperand x.ty.isWide reg3 (s.valueRead x.addr x.bytes) with
        pc := s.thread.pc + Config.ibytes
        place := s.thread.place + 1 }
      gmem := Memory.writeUnder s.gmem x.addr x.bytes (x.result (s.valueRead x.addr x.bytes)) s.overwritten
      history := insertEvent s.later (.access s.index s.thread.place x.addr x.bytes (s.valueRead x.addr x.bytes)
        (x.result (s.valueRead x.addr x.bytes))) s.history } := by
  unfold State.atomAccess
  have h := s.thread.writeOperand_counted x.ty.isWide reg3 (s.valueRead x.addr x.bytes) (s.thread.place + 1)
  simp only [State.access_thread, State.access_old, h, State.advance, State.setPc, Thread.writeOperand_pc]
  rfl

/-- What RED's access does. -/
theorem State.redAccess_eq (s : State) (x : Access) :
    s.redAccess x = { s with
      thread := { s.thread with pc := s.thread.pc + Config.ibytes, place := s.thread.place + 1 }
      gmem := Memory.writeUnder s.gmem x.addr x.bytes (x.result (s.valueRead x.addr x.bytes)) s.overwritten
      history := insertEvent s.later (.access s.index s.thread.place x.addr x.bytes (s.valueRead x.addr x.bytes)
        (x.result (s.valueRead x.addr x.bytes))) s.history } := rfl

/-- A memory that was written where the step places its access shows it under the later ones. -/
theorem State.writeUnder_shows {s : State} {p : Placement} (h : s.placing = some p) (a n : Nat) (new : Wide) :
    showsUnder s (Memory.writeUnder s.gmem a n new s.overwritten) p.later a n new := by
  have hl : s.later = p.later := by simp [State.later, h]
  refine ⟨fun j hj hk => ?_, fun x hx => ?_⟩
  · rw [Memory.readByte_writeUnder, if_pos ⟨by omega, by omega, by rw [State.overwritten, hl]; exact hk⟩,
      Nat.add_sub_cancel_left]
    exact BitVec.eq_of_getLsbD_eq (by simp)
  · rw [Memory.readByte_writeUnder, if_neg]
    rintro ⟨h1, h2, h3⟩
    rw [State.overwritten, hl] at h3
    rcases hx with hx | hx | hx
    · omega
    · omega
    · rw [hx] at h3; cases h3

/-! ## The memory order -/

/-- What is guaranteed for some observer is guaranteed for the threads of the block. -/
theorem guaranteed_block {h : List Event} {o : Observer} {e f : Event} (hg : guaranteed h o e f = true) :
    guaranteed h .block e f = true := by
  have hc : ∀ lvl, fenceCovers lvl o = true → fenceCovers lvl .block = true := by
    intro lvl; cases lvl <;> cases o <;> simp [fenceCovers]
  have hf : ∀ t p q, fenceBetween h o t p q = true → fenceBetween h .block t p q = true := by
    intro t p q
    simp only [fenceBetween, List.any_eq_true]
    rintro ⟨e, he, hx⟩
    refine ⟨e, he, ?_⟩
    cases e with
    | fence u m lvl =>
      simp only [Bool.and_eq_true] at hx ⊢
      exact ⟨⟨hx.1.1, hc lvl hx.1.2⟩, hx.2⟩
    | access => cases hx
    | release => cases hx
  cases e <;> cases f <;> simp only [guaranteed, Bool.or_eq_true, Bool.and_eq_true] at hg ⊢ <;> try exact hg
  rcases hg with ⟨h1, h2 | h2⟩ | h1
  · exact .inl ⟨h1, .inl h2⟩
  · exact .inl ⟨h1, .inr (hf _ _ _ h2)⟩
  · exact .inr h1

/-- An access may stand before the last `k` events exactly if rule R58 guarantees none of them to come before it. -/
theorem State.mayStand_iff {s : State} {x : Access} {k : Nat} :
    s.mayStand x k = true ↔ ∀ e ∈ s.history.take k,
      guaranteed s.history .block e (.access s.index s.thread.place x.addr x.bytes 0#64 0#64) = false := by
  simp [State.mayStand]

/-- A thread may place its access where `MemModel` is relaxed, it runs, and the access may stand there. -/
theorem State.canPlace_iff {s : State} {k : Nat} :
    s.canPlace k = true ↔ s.params.memModel = .relaxed ∧ s.thread.status = .running ∧
      ∃ x, s.nextAccess = some x ∧ s.mayStand x k = true := by
  unfold State.canPlace
  cases s.nextAccess <;> simp [and_assoc]

/-- The guarantees do not depend on the values. -/
theorem guaranteed_values (h : List Event) (o : Observer) (e : Event) (t p a n : Nat) (u v x y : Wide) :
    guaranteed h o e (.access t p a n u v) = guaranteed h o e (.access t p a n x y) := by
  cases e <;> rfl

/-- A byte after a replay depends on where the replay began only if no access touches it. -/
theorem readByte_replay_congr {m m' : List Host.Cell} {x : Nat} (h : List Event)
    (hx : h.any (Event.touches x) = true ∨ Memory.readByte m x = Memory.readByte m' x) :
    Memory.readByte (replay m h) x = Memory.readByte (replay m' h) x := by
  induction h with
  | nil => simpa [replay] using hx
  | cons e h ih =>
    cases e with
    | access t p b n old new =>
      simp only [replay, Memory.readByte_write]
      by_cases hb : b ≤ x ∧ x < b + n
      · rw [if_pos hb, if_pos hb]
      · rw [if_neg hb, if_neg hb]
        exact ih (by simpa [Event.touches, hb] using hx)
    | fence => exact ih (by simpa [Event.touches] using hx)
    | release => exact ih (by simpa [Event.touches] using hx)

theorem replay_append (m : List Host.Cell) (h h' : List Event) : replay m (h ++ h') = replay (replay m h') h := by
  induction h with
  | nil => rfl
  | cons e h ih => cases e <;> simp [replay, ih]

/-- A byte that no access touches is as where the replay began. -/
theorem readByte_replay_untouched {m : List Host.Cell} {x : Nat} (h : List Event)
    (hx : h.any (Event.touches x) = false) : Memory.readByte (replay m h) x = Memory.readByte m x := by
  induction h with
  | nil => rfl
  | cons e h ih =>
    rw [List.any_cons, Bool.or_eq_false_iff] at hx
    cases e with
    | access t p b n old new =>
      have hb := hx.1
      simp only [Event.touches, decide_eq_false_iff_not] at hb
      simp only [replay]
      rw [Memory.readByte_write_outside _ (by omega), ih hx.2]
    | fence => exact ih hx.2
    | release => exact ih hx.2

/-- Replaying an access before the last `k` events is writing it under them. -/
theorem readByte_replay_insert (m : List Host.Cell) (k : Nat) (h : List Event) (t p a n x : Nat) (old new : Wide) :
    Memory.readByte (replay m (insertEvent k (.access t p a n old new) h)) x =
      Memory.readByte (Memory.writeUnder (replay m h) a n new (fun b => (h.take k).any (Event.touches b))) x := by
  have hh : replay m h = replay (replay m (h.drop k)) (h.take k) := by rw [← replay_append, List.take_append_drop]
  rw [insertEvent, replay_append, replay, Memory.readByte_writeUnder]
  cases hk : (h.take k).any (Event.touches x) with
  | true => rw [if_neg (by simp), hh]; exact readByte_replay_congr _ (.inl hk)
  | false =>
    rw [readByte_replay_untouched _ hk, hh, readByte_replay_untouched _ hk, Memory.readByte_write]
    simp

/-! ## What comes next -/

theorem sameMachine_refl (s : State) : SameMachine s s := ⟨rfl, rfl, rfl, rfl, rfl, rfl, rfl⟩

theorem State.focus_same (s : State) (i : Nat) : SameMachine s (s.focus i) := by
  refine ⟨s.focus_threadList i, ?_, ?_, ?_, ?_, ?_, ?_⟩ <;> (unfold State.focus; split <;> rfl)

theorem State.ready_same (s : State) (c : Choice) : SameMachine s (s.ready c) := by
  cases c with
  | thread i => have h := s.focus_same i; exact ⟨h.threads, h.barriers, h.gmem, h.code, h.history, h.record, h.params⟩
  | placed i k v =>
    have h := s.focus_same i; exact ⟨h.threads, h.barriers, h.gmem, h.code, h.history, h.record, h.params⟩
  | release b => exact sameMachine_refl s

/-- Beginning a step changes only who moves. -/
theorem State.begin_same (s : State) (c : Choice) (rest : List Choice) : SameMachine s (s.begin c rest) :=
  have h := s.ready_same c
  ⟨h.threads, h.barriers, h.gmem, h.code, h.history, h.record, h.params⟩

/-- The first enabled choice of a list is enabled and stands in it. -/
theorem State.firstEnabled_spec {s : State} {l rest : List Choice} {c : Choice}
    (h : s.firstEnabled l = some (c, rest)) : s.enabled c = true ∧ c ∈ l := by
  induction l with
  | nil => simp [State.firstEnabled] at h
  | cons d l ih =>
    simp only [State.firstEnabled] at h
    split at h
    · next hd => simp at h; exact ⟨h.1 ▸ hd, by simp [h.1]⟩
    · exact ⟨(ih h).1, by simp [(ih h).2]⟩

theorem State.firstEnabled_eq_none {s : State} {l : List Choice} :
    s.firstEnabled l = none ↔ ∀ c ∈ l, s.enabled c = false := by
  induction l with
  | nil => simp [State.firstEnabled]
  | cons d l ih =>
    simp only [State.firstEnabled]
    split
    · next hd => simp [hd]
    · next hd => simp [hd, ih]

/-- The next instruction depends on the `pc`, the code and the parameters alone. -/
theorem State.nextInstr_congr {s u : State} (ht : u.thread.pc = s.thread.pc) (hc : u.code = s.code)
    (hp : u.params = s.params) : u.nextInstr = s.nextInstr := by
  unfold State.nextInstr State.fetch
  rw [ht, hc, hp]

/-- Only a BAR or a VOTE is ever held. -/
theorem holds_of_accessOf {i : Instr} {s u : State} {x : Access} (h : accessOf i s = some x) : holds i u = false := by
  cases i <;> first | rfl | cases h

/-- A thread that may place its access may step without placing it. -/
theorem State.enabled_thread_of_placed {s : State} {i k : Nat} {v : Wide} (h : s.enabled (.placed i k v) = true) :
    s.enabled (.thread i) = true := by
  simp only [State.enabled, State.canPlace, State.canStep, Bool.and_eq_true] at h ⊢
  obtain ⟨hi, ⟨-, hr⟩, hx⟩ := h
  refine ⟨hi, hr, ?_⟩
  have hn : (s.ready (.thread i)).nextInstr = (s.ready (.placed i k v)).nextInstr := State.nextInstr_congr rfl rfl rfl
  unfold State.held
  unfold State.nextAccess at hx
  rw [hn]
  split at hx
  · cases hx
  · next x ha =>
    split at ha
    · cases ha
    · next j hj => simp only [holds_of_accessOf ha, Bool.not_false]

/-- A choice that is enabled stands in the menu, or its thread's step does. -/
theorem State.menu_spec {s : State} {c : Choice} (h : s.enabled c = true) :
    c ∈ s.menu ∨ ∃ i k v, c = .placed i k v ∧ .thread i ∈ s.menu := by
  have ht : ∀ i, s.enabled (.thread i) = true → .thread i ∈ s.menu := fun i h => by
    have hi : i < s.blockSize := by simp [State.enabled] at h; exact h.1
    exact List.mem_filter.2 ⟨by simp [State.plainChoices, hi], h⟩
  cases c with
  | release b => exact .inl (List.mem_filter.2 ⟨by simp [State.plainChoices], h⟩)
  | thread i => exact .inl (ht i h)
  | placed i k v => exact .inr ⟨i, k, v, rfl, ht i (State.enabled_thread_of_placed h)⟩

/-- What stands in the menu is enabled and places no access. -/
theorem State.mem_menu {s : State} {c : Choice} (h : c ∈ s.menu) :
    s.enabled c = true ∧ ((∃ i, c = .thread i) ∨ ∃ b, c = .release b) := by
  obtain ⟨h1, h2⟩ := List.mem_filter.1 h
  refine ⟨h2, ?_⟩
  simp only [State.plainChoices, List.mem_append, List.mem_map] at h1
  rcases h1 with ⟨b, -, rfl⟩ | ⟨i, -, rfl⟩
  · exact .inr ⟨b, rfl⟩
  · exact .inl ⟨i, rfl⟩

/-- What is chosen places no access and fixes nothing after it, or it is the plan, which completes the memory order. -/
theorem State.chooseFrom_cases {s : State} {plan : List Choice} {c : Choice} {rest : List Choice}
    (h : s.chooseFrom plan = some (c, rest)) :
    (c ∈ s.menu ∧ rest = []) ∨ (plan = c :: rest ∧ s.completes (c :: rest) = true) := by
  unfold State.chooseFrom at h
  split at h
  · cases h
  · next d others hm =>
    have hd : d ∈ s.menu := hm ▸ List.mem_cons_self
    split at h
    · cases h; exact .inl ⟨hd, rfl⟩
    · split at h
      · cases h; exact .inl ⟨hd, rfl⟩
      · next e l =>
        split at h
        · next hc => cases h; exact .inr ⟨rfl, hc⟩
        · cases h; exact .inl ⟨hd, rfl⟩

/-- What is chosen is enabled. -/
theorem State.chooseFrom_enabled {s : State} {plan : List Choice} {c : Choice} {rest : List Choice}
    (h : s.chooseFrom plan = some (c, rest)) : s.enabled c = true := by
  rcases State.chooseFrom_cases h with ⟨h, -⟩ | ⟨-, h⟩
  · exact (State.mem_menu h).1
  · exact (Bool.and_eq_true_iff.1 h).1

/-- Nothing is chosen exactly where nothing is enabled. -/
theorem State.chooseFrom_eq_none {s : State} {plan : List Choice} :
    s.chooseFrom plan = none ↔ ∀ c, s.enabled c = false := by
  constructor
  · intro h c
    refine Bool.eq_false_iff.2 fun hc => ?_
    obtain ⟨d, hd⟩ : ∃ d, d ∈ s.menu := by
      rcases State.menu_spec hc with h | ⟨i, k, v, -, h⟩ <;> exact ⟨_, h⟩
    unfold State.chooseFrom at h
    split at h
    · next hm => rw [hm] at hd; cases hd
    · split at h
      · cases h
      · split at h
        · cases h
        · split at h <;> cases h
  · intro h
    cases hc : s.chooseFrom plan with
    | none => rfl
    | some c => exact absurd (State.chooseFrom_enabled (rest := c.2) hc) (by rw [h c.1]; exact Bool.false_ne_true)

/-- A plan that completes the memory order is taken, but for what it fixes after an only choice. -/
theorem State.chooseFrom_plan {s : State} {c : Choice} {rest : List Choice} (h : s.completes (c :: rest) = true) :
    s.chooseFrom (c :: rest) = some (c, rest) ∨ (s.menu = [c] ∧ s.chooseFrom (c :: rest) = some (c, [])) := by
  have he := (Bool.and_eq_true_iff.1 h).1
  unfold State.chooseFrom
  split
  · next hm => rcases State.menu_spec he with h | ⟨i, k, v, -, h⟩ <;> rw [hm] at h <;> cases h
  · next d others hm =>
    split
    · next ho =>
      obtain ⟨h1, h2⟩ := Bool.and_eq_true_iff.1 ho
      rw [List.isEmpty_iff.1 h1] at hm
      right
      cases c with
      | placed i k v =>
        simp only [State.enabled, State.canPlace, Bool.and_eq_true, decide_eq_true_eq] at he
        have ha : s.accessNext = true := by
          refine List.any_eq_true.2 ⟨i, List.mem_range.2 he.1, ?_⟩
          simp only [State.enabled, State.canPlace, Bool.and_eq_true, decide_eq_true_eq]
          have hn : (s.ready (.placed i 0 0#64)).nextAccess = (s.ready (.placed i k v)).nextAccess := rfl
          refine ⟨he.1, he.2.1, ?_⟩
          rw [hn]
          have hx := he.2.2
          split at hx
          · cases hx
          · rfl
        rw [ha] at h2; cases h2
      | thread i =>
        rcases State.menu_spec he with h | ⟨j, k, v, h, -⟩
        · rw [hm] at h; cases List.mem_singleton.1 h; exact ⟨hm, rfl⟩
        · cases h
      | release b =>
        rcases State.menu_spec he with h | ⟨j, k, v, h, -⟩
        · rw [hm] at h; cases List.mem_singleton.1 h; exact ⟨hm, rfl⟩
        · cases h
    · simp [h]

/-- The next choice is the schedule's, or a free one where the schedule names nothing enabled. -/
theorem State.nextChoice_cases {s : State} {c : Choice} {rest : List Choice} (h : s.nextChoice = some (c, rest)) :
    s.firstEnabled s.schedule = some (c, rest) ∨
      ((∀ d ∈ s.schedule, s.enabled d = false) ∧ s.chooseFrom (Config.pick s.tick) = some (c, rest)) := by
  unfold State.nextChoice at h
  split at h
  · next hf => cases h; exact .inl hf
  · next hf => exact .inr ⟨State.firstEnabled_eq_none.1 hf, h⟩

/-- The next choice is enabled. -/
theorem State.nextChoice_enabled {s : State} {c : Choice} {rest : List Choice} (h : s.nextChoice = some (c, rest)) :
    s.enabled c = true := by
  rcases State.nextChoice_cases h with h | ⟨-, h⟩
  · exact (State.firstEnabled_spec h).1
  · exact State.chooseFrom_enabled h

/-- There is no next choice exactly where nothing is enabled. -/
theorem State.nextChoice_eq_none {s : State} : s.nextChoice = none ↔ ∀ c, s.enabled c = false := by
  unfold State.nextChoice
  constructor
  · intro h
    split at h
    · cases h
    · exact State.chooseFrom_eq_none.1 h
  · intro h
    rw [State.firstEnabled_eq_none.2 fun c _ => h c]
    exact State.chooseFrom_eq_none.2 h

end Sys2Proof.Machine
end

