-- ==== Sys2Proof/Laws/PerInstr.lean ====
section
/-!
SUPPORT. Statements made once per constructor of `Instr`. Family `Identified`: the word the encoder writes is
identified as the instruction's own row (`spec/30_encoding.md` rules R75, R89), so no two rows share a word.
-/

namespace Sys2Proof.Laws.Identified

open Sys2Proof

/-- The encoded word is identified as the row of its instruction. -/
def Statement (i : Instr) : Prop := identify (encode i) = some i.row

theorem ssy (target : FlowTarget) :
    Statement (.ssy target) := by
  simp (disch := decide) only [Statement, encode, encodeFlow, identify, field_wordOf,
    BitVec.extractLsb'_append_eq_of_add_le, BitVec.extractLsb'_append_eq_of_le]
  simp [Instr.row]

theorem bra (ccop : CCop) (u lmt : Bool) (target : FlowTarget) :
    Statement (.bra ccop u lmt target) := by
  simp (disch := decide) only [Statement, encode, encodeFlow, identify, field_wordOf,
    BitVec.extractLsb'_append_eq_of_add_le, BitVec.extractLsb'_append_eq_of_le]
  simp [Instr.row]

theorem cal (noinc : Bool) (target : FlowTarget) :
    Statement (.cal noinc target) := by
  simp (disch := decide) only [Statement, encode, encodeFlow, identify, field_wordOf,
    BitVec.extractLsb'_append_eq_of_add_le, BitVec.extractLsb'_append_eq_of_le]
  simp [Instr.row]

theorem pret (noinc : Bool) (target : FlowTarget) :
    Statement (.pret noinc target) := by
  simp (disch := decide) only [Statement, encode, encodeFlow, identify, field_wordOf,
    BitVec.extractLsb'_append_eq_of_add_le, BitVec.extractLsb'_append_eq_of_le]
  simp [Instr.row]

theorem ret (ccop : CCop) :
    Statement (.ret ccop) := by
  simp (disch := decide) only [Statement, encode, encodeNoArg, identify, field_wordOf,
    BitVec.extractLsb'_append_eq_of_add_le, BitVec.extractLsb'_append_eq_of_le]
  simp [Instr.row]

theorem exit (ccop : CCop) :
    Statement (.exit ccop) := by
  simp (disch := decide) only [Statement, encode, encodeNoArg, identify, field_wordOf,
    BitVec.extractLsb'_append_eq_of_add_le, BitVec.extractLsb'_append_eq_of_le]
  simp [Instr.row]

theorem nop (ccop : CCop) (s trig : Bool) (op : NopOp) (imm16 : BitVec 16) :
    Statement (.nop ccop s trig op imm16) := by
  simp (disch := decide) only [Statement, encode, identify, field_wordOf,
    BitVec.extractLsb'_append_eq_of_add_le, BitVec.extractLsb'_append_eq_of_le]
  simp [Instr.row]

theorem pbk (target : FlowTarget) :
    Statement (.pbk target) := by
  simp (disch := decide) only [Statement, encode, encodeFlow, identify, field_wordOf,
    BitVec.extractLsb'_append_eq_of_add_le, BitVec.extractLsb'_append_eq_of_le]
  simp [Instr.row]

theorem brk (ccop : CCop) :
    Statement (.brk ccop) := by
  simp (disch := decide) only [Statement, encode, encodeNoArg, identify, field_wordOf,
    BitVec.extractLsb'_append_eq_of_add_le, BitVec.extractLsb'_append_eq_of_le]
  simp [Instr.row]

theorem pcnt (target : FlowTarget) :
    Statement (.pcnt target) := by
  simp (disch := decide) only [Statement, encode, encodeFlow, identify, field_wordOf,
    BitVec.extractLsb'_append_eq_of_add_le, BitVec.extractLsb'_append_eq_of_le]
  simp [Instr.row]

theorem cont (ccop : CCop) :
    Statement (.cont ccop) := by
  simp (disch := decide) only [Statement, encode, encodeNoArg, identify, field_wordOf,
    BitVec.extractLsb'_append_eq_of_add_le, BitVec.extractLsb'_append_eq_of_le]
  simp [Instr.row]

theorem barRed (redop : RedOp) (reg0 : RegIdx) (bar : BarSrc) (tcount : CountSrc) (c : PredSrc) (p : PredIdx) :
    Statement (.barRed redop reg0 bar tcount c p) := by
  simp (disch := decide) only [Statement, encode, encodeBar, identify, field_wordOf,
    BitVec.extractLsb'_append_eq_of_add_le, BitVec.extractLsb'_append_eq_of_le]
  simp [Instr.row]

theorem barArv (redop : RedOp) (reg0 : RegIdx) (bar : BarSrc) (tcount : CountSrc) (c : PredSrc) (p : PredIdx) :
    Statement (.barArv redop reg0 bar tcount c p) := by
  simp (disch := decide) only [Statement, encode, encodeBar, identify, field_wordOf,
    BitVec.extractLsb'_append_eq_of_add_le, BitVec.extractLsb'_append_eq_of_le]
  simp [Instr.row]

theorem membar (lvl : Lvl) :
    Statement (.membar lvl) := by
  simp (disch := decide) only [Statement, encode, identify, field_wordOf,
    BitVec.extractLsb'_append_eq_of_add_le, BitVec.extractLsb'_append_eq_of_le]
  simp [Instr.row]

theorem atom (op : AtomOp) (ty : AtomType) (e : Bool) (reg3 reg1 : RegIdx) (imm20 : BitVec 20) (reg0 reg4 : RegIdx) :
    Statement (.atom op ty e reg3 reg1 imm20 reg0 reg4) := by
  simp (disch := decide) only [Statement, encode, identify, field_wordOf,
    BitVec.extractLsb'_append_eq_of_add_le, BitVec.extractLsb'_append_eq_of_le]
  simp [Instr.row]

theorem red (op : AtomOp) (ty : AtomType) (e : Bool) (reg1 : RegIdx) (imm32 : BitVec 32) (reg0 : RegIdx) :
    Statement (.red op ty e reg1 imm32 reg0) := by
  simp (disch := decide) only [Statement, encode, identify, field_wordOf,
    BitVec.extractLsb'_append_eq_of_add_le, BitVec.extractLsb'_append_eq_of_le]
  simp [Instr.row]

theorem vote (mode : VoteMode) (reg0 : RegIdx) (p1 : PredSrc) (imm28 : BitVec 28) (p0 : PredIdx) :
    Statement (.vote mode reg0 p1 imm28 p0) := by
  simp (disch := decide) only [Statement, encode, identify, field_wordOf,
    BitVec.extractLsb'_append_eq_of_add_le, BitVec.extractLsb'_append_eq_of_le]
  simp [Instr.row]

end Sys2Proof.Laws.Identified
end

