-- ==== Sys2Proof/Laws/Step.lean ====
section
/-!
SUPPORT. What one instruction and one step can do, said once: the cases of `exec` and of `step`, from which the
invariants follow without unfolding either again.
-/

namespace Sys2Proof.Machine

open Sys2Proof Sys2Proof.Safety

/-! ## Registers of a thread -/

theorem Thread.writeReg_unwritten_sub (t : Thread) (i : RegIdx) (v : Word) {x : Source}
    (h : x ∈ (t.writeReg i v).unwritten) : x ∈ t.unwritten := by
  unfold Thread.writeReg at h
  split at h
  · exact List.mem_of_mem_filter h
  · exact h

theorem Thread.writePred_unwritten_sub (t : Thread) (i : PredIdx) (v : Bool) {x : Source}
    (h : x ∈ (t.writePred i v).unwritten) : x ∈ t.unwritten := by
  unfold Thread.writePred at h
  split at h
  · exact List.mem_of_mem_filter h
  · exact h

theorem Thread.writeOperand_unwritten_sub (t : Thread) (wide : Bool) (i : RegIdx) (v : Wide) {x : Source}
    (h : x ∈ (t.writeOperand wide i v).unwritten) : x ∈ t.unwritten := by
  unfold Thread.writeOperand Thread.writePair at h
  split at h
  · split at h
    · exact h
    · exact t.writeReg_unwritten_sub _ _ (Thread.writeReg_unwritten_sub _ _ _ h)
  · exact t.writeReg_unwritten_sub _ _ h

@[simp] theorem Thread.writeReg_cc_unwritten (t : Thread) (i : RegIdx) (v : Word) :
    Source.cc ∈ (t.writeReg i v).unwritten ↔ Source.cc ∈ t.unwritten := by
  unfold Thread.writeReg
  split <;> simp

@[simp] theorem Thread.writePred_cc_unwritten (t : Thread) (i : PredIdx) (v : Bool) :
    Source.cc ∈ (t.writePred i v).unwritten ↔ Source.cc ∈ t.unwritten := by
  unfold Thread.writePred
  split <;> simp

@[simp] theorem Thread.writeOperand_cc_unwritten (t : Thread) (wide : Bool) (i : RegIdx) (v : Wide) :
    Source.cc ∈ (t.writeOperand wide i v).unwritten ↔ Source.cc ∈ t.unwritten := by
  unfold Thread.writeOperand Thread.writePair
  split
  · split <;> simp
  · simp

/-- A condition depends on `CC` alone. -/
theorem Thread.condition_congr {t u : Thread} (h : u.cc = t.cc)
    (hw : Source.cc ∈ u.unwritten ↔ Source.cc ∈ t.unwritten) (ccop : CCop) : u.condition ccop = t.condition ccop := by
  simp only [Thread.condition, Thread.condReadable, List.contains_eq_mem, h, hw]

/-! ## What an instruction can do -/

/-- The registers, predicates, `CC` and place of a thread are those of another, and it runs or waits as that one does
or has exited. -/
structure Thread.SameData (u t : Thread) : Prop where
  regs : t.regs = u.regs
  preds : t.preds = u.preds
  cc : t.cc = u.cc
  unwritten : t.unwritten = u.unwritten
  place : t.place = u.place
  status : t.status = u.status ∨ t.status = .exited

/-- The next states an instruction can answer with. -/
inductive Effect (s : State) (i : Instr) : State → Prop where
  /-- Nothing: a BAR or a VOTE that is held. -/
  | held (h : i.row = .bar ∨ i.row = .vote) : Effect s i s
  /-- Execution control: the thread's `pc`, control stack or status. -/
  | control (t : Thread) (h : s.thread.SameData t)
      (hr : i.row ≠ .bar ∧ i.row ≠ .membar ∧ i.row ≠ .atom ∧ i.row ≠ .red ∧ i.row ≠ .vote) :
      Effect s i { s with thread := t }
  | fence (lvl : Lvl) (hr : i.row = .membar) :
      Effect s i (s.addEvent (.fence s.index s.thread.place lvl)).advance
  /-- A BAR.RED arrives and waits. -/
  | join (hr : i.row = .bar) (b : Fin 16) (n : Nat) (w : Waiter) (vote : Bool) (h : s.barriers[b].pending = false)
      (ha : s.barriers[b].agrees n = true) (hn : 0 < n) (hw : w.thread = s.index) :
      Effect s i
        { s.setBarrier b (s.barriers[b].join n (s.index, s.thread.place) w vote) with
          thread := { s.thread with status := .waiting b } }
  /-- A BAR.ARV arrives and goes on. -/
  | arrive (hr : i.row = .bar) (b : Fin 16) (n : Nat) (h : s.barriers[b].pending = false)
      (ha : s.barriers[b].agrees n = true) (hn : 0 < n) :
      Effect s i (s.setBarrier b (s.barriers[b].arrive n (s.index, s.thread.place))).advance
  | atom (hr : i.row = .atom) (x : Access) (reg3 : RegIdx) (hx : accessOf i s = some x) :
      Effect s i (s.atomAccess x reg3)
  | red (hr : i.row = .red) (x : Access) (hx : accessOf i s = some x) : Effect s i (s.redAccess x)
  | castVote (hr : i.row = .vote) (mode : VoteMode) (reg0 : RegIdx) (p1 : PredSrc) (p0 : PredIdx)
      (h : s.assembled = true) : Effect s i (s.castVote mode reg0 p1 p0)
  | stopVoter (hr : i.row = .vote) (k : Nat) (t : Thread) (w : InstrWord) (e : Stop) (h : s.assembled = true)
      (hv : (k, t) ∈ s.voters) : Effect s i (s.stopVoter k t.pc w e)

theorem State.csPush_effect {s t : State} {k : Kind} {a pc : CodeAddr} (h : s.csPush k a = .ok t) :
    ∃ u, t.setPc pc = { s with thread := u } ∧ s.thread.SameData u := by
  rw [State.csPush_eq] at h
  split at h
  · cases h
    exact ⟨_, rfl, rfl, rfl, rfl, rfl, rfl, .inl rfl⟩
  · cases h

theorem State.pushAndAdvance_effect {s t : State} {k : Kind} {a : CodeAddr} (h : s.pushAndAdvance k a = .ok t) :
    ∃ u, t = { s with thread := u } ∧ s.thread.SameData u := by
  obtain ⟨t', h1, h2⟩ := except_bind_eq_ok.1 h
  obtain ⟨u, e, hu⟩ := State.csPush_effect (pc := t'.thread.pc + Config.ibytes) h1
  exact ⟨u, by cases h2; exact e, hu⟩

theorem State.whenCondition_effect {s t : State} {ccop : CCop} {act : State → Except Stop State}
    (ha : ∀ t, act s = .ok t → ∃ u, t = { s with thread := u } ∧ s.thread.SameData u)
    (h : s.whenCondition ccop act = .ok t) : ∃ u, t = { s with thread := u } ∧ s.thread.SameData u := by
  obtain ⟨c, -, h2⟩ := except_bind_eq_ok.1 h
  cases c with
  | true => exact ha t h2
  | false => cases h2; exact ⟨_, rfl, rfl, rfl, rfl, rfl, rfl, .inl rfl⟩

theorem State.csUnwind_effect {s t : State} {k : Kind} (h : s.csUnwind k = .ok t) :
    ∃ u, t = { s with thread := u } ∧ s.thread.SameData u := by
  unfold State.csUnwind at h
  split at h <;> cases h
  exact ⟨_, rfl, rfl, rfl, rfl, rfl, rfl, .inl rfl⟩

theorem State.csJoin_effect {s t : State} (h : s.csJoin = .ok t) :
    ∃ u, t = { s with thread := u } ∧ s.thread.SameData u := by
  unfold State.csJoin at h
  split at h
  · cases h
  · split at h <;> cases h
    exact ⟨_, rfl, rfl, rfl, rfl, rfl, rfl, .inl rfl⟩

/-- The count of an arrival is at least one. -/
theorem State.barRedArrival_pos {s : State} {redop : RedOp} {reg0 : RegIdx} {bar : BarSrc} {tcount : CountSrc}
    {c : PredSrc} {p : PredIdx} {a : Arrival} (h : s.barRedArrival redop reg0 bar tcount c p = .ok a) :
    0 < a.count := by
  simp only [State.barRedArrival, except_bind_eq_ok] at h
  obtain ⟨-, -, -, -, -, -, -, -, -, -, _, -, k, -, _, -, _, -, -, -, h⟩ := h
  cases h
  show 0 < s.arrivalCount k
  unfold State.arrivalCount
  split
  · exact Nat.lt_of_le_of_lt (Nat.zero_le _) s.index_lt_blockSize
  · omega

/-- The count of an arrival is at least one. -/
theorem State.barArvArrival_pos {s : State} {redop : RedOp} {reg0 : RegIdx} {bar : BarSrc} {tcount : CountSrc}
    {c : PredSrc} {p : PredIdx} {a : Arrival} (h : s.barArvArrival redop reg0 bar tcount c p = .ok a) :
    0 < a.count := by
  simp only [State.barArvArrival, except_bind_eq_ok] at h
  obtain ⟨-, -, -, -, -, -, -, -, -, -, _, -, k, -, _, -, _, hk, h⟩ := h
  cases h
  have := (Bool.and_eq_true _ _ ▸ checkFault_eq_ok.1 hk).1
  simp only [bne_iff_ne] at this
  show 0 < k
  omega

/-- The voter whose fault is recorded is one of the group. -/
theorem State.failedVoter_mem {s : State} {p1 : PredSrc} {i : Nat} {pc : CodeAddr} {e : Stop}
    (h : s.failedVoter p1 = some (i, pc, e)) : ∃ t, (i, t) ∈ s.voters ∧ t.pc = pc ∧ t.voteFault p1 = some e := by
  obtain ⟨q, hq, hf⟩ := List.exists_of_findSome?_eq_some h
  obtain ⟨e', he, hp⟩ := Option.map_eq_some_iff.1 hf
  cases hp
  exact ⟨q.2, hq, rfl, he⟩

/-- What `exec` can answer with. -/
theorem exec_effect {i : Instr} {s t : State} (h : exec i s = .next t) : Effect s i t := by
  have ctl : ∀ {x : Except Stop State} {i : Instr}, outcome x = .next t →
      (∀ t, x = .ok t → ∃ u, t = { s with thread := u } ∧ s.thread.SameData u) →
      (i.row ≠ .bar ∧ i.row ≠ .membar ∧ i.row ≠ .atom ∧ i.row ≠ .red ∧ i.row ≠ .vote) → Effect s i t := by
    intro x i hx hc hr
    obtain ⟨u, rfl, hu⟩ := hc t (outcome_eq_next.1 hx)
    exact .control u hu hr
  cases i with
  | ssy target =>
    refine ctl h (fun t h => ?_) (by simp [Instr.row])
    obtain ⟨_, -, h⟩ := except_bind_eq_ok.1 h
    exact State.pushAndAdvance_effect h
  | bra ccop u lmt target =>
    refine ctl h (fun t h => ?_) (by simp [Instr.row])
    obtain ⟨_, -, h⟩ := except_bind_eq_ok.1 h
    obtain ⟨_, -, h⟩ := except_bind_eq_ok.1 h
    refine State.whenCondition_effect (fun t h => ?_) h
    cases h
    exact ⟨_, rfl, rfl, rfl, rfl, rfl, rfl, .inl rfl⟩
  | cal noinc target =>
    refine ctl h (fun t h => ?_) (by simp [Instr.row])
    obtain ⟨_, -, h⟩ := except_bind_eq_ok.1 h
    obtain ⟨_, -, h⟩ := except_bind_eq_ok.1 h
    obtain ⟨t', h1, h2⟩ := except_bind_eq_ok.1 h
    cases h2
    exact State.csPush_effect h1
  | pret noinc target =>
    refine ctl h (fun t h => ?_) (by simp [Instr.row])
    obtain ⟨_, -, h⟩ := except_bind_eq_ok.1 h
    obtain ⟨_, -, h⟩ := except_bind_eq_ok.1 h
    exact State.pushAndAdvance_effect h
  | ret ccop =>
    exact ctl h (fun t h => State.whenCondition_effect (fun t h => State.csUnwind_effect h) h) (by simp [Instr.row])
  | exit ccop =>
    refine ctl h (fun t h => State.whenCondition_effect (fun t h => ?_) h) (by simp [Instr.row])
    cases h
    exact ⟨_, rfl, rfl, rfl, rfl, rfl, rfl, .inr rfl⟩
  | nop ccop join trig op imm16 =>
    refine ctl h (fun t h => ?_) (by simp [Instr.row])
    obtain ⟨_, -, h⟩ := except_bind_eq_ok.1 h
    obtain ⟨_, -, h⟩ := except_bind_eq_ok.1 h
    obtain ⟨_, -, h⟩ := except_bind_eq_ok.1 h
    obtain ⟨_, -, h⟩ := except_bind_eq_ok.1 h
    split at h
    · exact State.csJoin_effect h
    · cases h
      exact ⟨_, rfl, rfl, rfl, rfl, rfl, rfl, .inl rfl⟩
  | pbk target =>
    refine ctl h (fun t h => ?_) (by simp [Instr.row])
    obtain ⟨_, -, h⟩ := except_bind_eq_ok.1 h
    exact State.pushAndAdvance_effect h
  | brk ccop =>
    exact ctl h (fun t h => State.whenCondition_effect (fun t h => State.csUnwind_effect h) h) (by simp [Instr.row])
  | pcnt target =>
    refine ctl h (fun t h => ?_) (by simp [Instr.row])
    obtain ⟨_, -, h⟩ := except_bind_eq_ok.1 h
    exact State.pushAndAdvance_effect h
  | cont ccop =>
    exact ctl h (fun t h => State.whenCondition_effect (fun t h => State.csUnwind_effect h) h) (by simp [Instr.row])
  | barRed redop reg0 bar tcount c p =>
    obtain ⟨a, ha, h⟩ := except_bind_eq_ok.1 (outcome_eq_next.1 h)
    split at h
    · cases h
      exact .held (.inl rfl)
    · rename_i hp
      simp only [State.joinBarrier, except_bind_eq_ok] at h
      obtain ⟨_, h1, _, h2, h⟩ := h
      cases h
      exact .join rfl a.bar a.count ⟨s.index, redop, reg0, p⟩ a.vote (Bool.eq_false_iff.2 hp) (checkFault_eq_ok.1 h1)
        (State.barRedArrival_pos ha) rfl
  | barArv redop reg0 bar tcount c p =>
    obtain ⟨a, ha, h⟩ := except_bind_eq_ok.1 (outcome_eq_next.1 h)
    split at h
    · cases h
      exact .held (.inl rfl)
    · rename_i hp
      simp only [State.arriveBarrier, except_bind_eq_ok] at h
      obtain ⟨_, h1, h⟩ := h
      cases h
      exact .arrive rfl a.bar a.count (Bool.eq_false_iff.2 hp) (checkFault_eq_ok.1 h1) (State.barArvArrival_pos ha)
  | membar lvl =>
    obtain ⟨_, -, h⟩ := except_bind_eq_ok.1 (outcome_eq_next.1 h)
    cases h
    exact .fence lvl rfl
  | atom op ty e reg3 reg1 imm20 reg0 reg4 =>
    obtain ⟨x, hx, h⟩ := except_bind_eq_ok.1 (outcome_eq_next.1 h)
    cases h
    exact .atom rfl x reg3 (by simp [accessOf, hx, Except.toOption])
  | red op ty e reg1 imm32 reg0 =>
    obtain ⟨x, hx, h⟩ := except_bind_eq_ok.1 (outcome_eq_next.1 h)
    cases h
    exact .red rfl x (by simp [accessOf, hx, Except.toOption])
  | vote mode reg0 p1 imm28 p0 =>
    obtain ⟨_, -, h⟩ := except_bind_eq_ok.1 (outcome_eq_next.1 h)
    split at h
    · rename_i ha
      obtain ⟨_, -, h⟩ := except_bind_eq_ok.1 h
      split at h
      · rename_i i pc e hf
        cases h
        obtain ⟨t, hm, rfl, -⟩ := State.failedVoter_mem hf
        exact .stopVoter rfl i t _ e ha hm
      · cases h
        exact .castVote rfl _ _ _ _ ha
    · cases h
      exact .held (.inr rfl)

/-! ## What a step can do -/

/-- A choice that lets the thread that steps move, in the state in which it acts. -/
inductive State.Acts (u : State) : Choice → Prop where
  /-- Its access would stand last in the total order. -/
  | thread (i : Nat) (h : u.placing = none) : u.Acts (.thread i)
  /-- Its access stands before later ones, where `MemModel` is relaxed and no guarantee is against it. -/
  | placed (i k : Nat) (v : Wide) (h : u.placing = some ⟨k, v⟩) (hm : u.params.memModel = .relaxed) (x : Access)
      (hx : u.nextAccess = some x) (hs : u.mayStand x k = true) : u.Acts (.placed i k v)

/-- What a choice can do in the state in which it acts. -/
inductive Moved (u : State) : Choice → State → Prop where
  /-- A running thread stops: a bad fetch, a word without an instruction, a fault or a refusal. -/
  | stop {c : Choice} (hc : u.Acts c) (h : u.thread.status = .running) (w : Option InstrWord) (e : Stop) :
      Moved u c (u.stopThread w e)
  /-- A running thread executes its instruction. -/
  | instr {c : Choice} (hc : u.Acts c) (h : u.thread.status = .running) (w : InstrWord) (i : Instr) (t : State)
      (hf : u.fetch = .ok w) (hd : decode w = .ok i) (hi : u.nextInstr = some i) (he : Effect u i t) : Moved u c t
  /-- A barrier whose release is pending is released. -/
  | release {b : Fin 16} (h : u.barriers[b].pending = true) : Moved u (.release b) (u.releaseBarrier b)

/-- A running thread's step is a stop or its instruction. -/
theorem State.stepThread_moved {u : State} {c : Choice} (hc : u.Acts c) (h : u.thread.status = .running) :
    Moved u c u.stepThread := by
  unfold State.stepThread
  split
  · exact .stop hc h _ _
  · next w hf =>
    split
    · exact .stop hc h _ _
    · next i hi =>
      have hd : decode w = .ok i := by
        unfold decodeOrRefuse at hi
        split at hi
        · next j hj => cases hi; exact hj
        · cases hi
      split
      · next t ht => exact .instr hc h w i t hf hd (by simp [State.nextInstr, hf, hi]) (exec_effect ht)
      · exact .stop hc h _ _
      · exact .stop hc h _ _

/-- What a choice that is enabled does. -/
theorem State.act_moved {s : State} {c : Choice} (rest : List Choice) (he : s.enabled c = true) :
    Moved (s.begin c rest) c ((s.begin c rest).act c) := by
  cases c with
  | thread i =>
    simp only [State.enabled, State.canStep, Bool.and_eq_true, beq_iff_eq] at he
    exact State.stepThread_moved (.thread i rfl) he.2.1
  | placed i k v =>
    simp only [State.enabled, Bool.and_eq_true] at he
    obtain ⟨hm, hr, x, hx, hs⟩ := State.canPlace_iff.1 he.2
    exact State.stepThread_moved (.placed i k v rfl hm x hx hs) hr
  | release b => exact .release he

/-- What `step` can answer with: what the next choice can do. -/
theorem step_moved {s t : State} (h : step s = .next t) :
    ∃ c rest, s.nextChoice = some (c, rest) ∧ t = (s.begin c rest).act c ∧ Moved (s.begin c rest) c t := by
  unfold step at h
  split at h
  · cases h
  · next c rest hc =>
    cases h
    exact ⟨c, rest, hc, rfl, State.act_moved rest (State.nextChoice_enabled hc)⟩

/-- What a choice that is next and lets a thread move leads to. -/
theorem threadMoves_step {s u : State} (h : threadMoves s u) : step s = .next u.stepThread := by
  obtain ⟨c, rest, hc, h | h, rfl⟩ := h
  · obtain ⟨i, rfl⟩ := h
    simp only [step, hc, State.act]
  · obtain ⟨i, k, v, rfl⟩ := h
    simp only [step, hc, State.act]

/-- A choice that acts lets its thread move. -/
theorem threadMoves_of_acts {s : State} {c : Choice} {rest : List Choice} (h : s.nextChoice = some (c, rest))
    (ha : (s.begin c rest).Acts c) : threadMoves s (s.begin c rest) := by
  refine ⟨c, rest, h, ?_, rfl⟩
  generalize s.begin c rest = u at ha
  cases ha with
  | thread i => exact .inl ⟨i, rfl⟩
  | placed i k v => exact .inr ⟨i, k, v, rfl⟩

/-! ## Runs -/

/-- What every step keeps holds along a run. -/
theorem stateAfter_induct {P : State → Prop} (hs : ∀ {t u}, step t = .next u → P t → P u) {s : State} (h0 : P s) :
    ∀ {n : Nat} {t : State}, stateAfter s n = some t → P t := by
  intro n
  induction n with
  | zero =>
    intro t h
    cases h
    exact h0
  | succ n ih =>
    intro t h
    unfold stateAfter at h
    split at h
    · cases h
    · next u hu =>
      split at h
      · next v hv =>
        cases h
        exact hs hv (ih hu)
      · cases h
      · cases h

/-- A run that has ended goes no further. -/
theorem stateAfter_end {s : State} {n m : Nat} (h : stateAfter s n = none) (hm : n ≤ m) : stateAfter s m = none := by
  induction hm with
  | refl => exact h
  | step _ ih => simp [stateAfter, ih]

/-- What every step keeps, and what beginning a step keeps, holds where a thread's step acts. -/
theorem runMoves_induct {P : State → Prop} (hs : ∀ {t u}, step t = .next u → P t → P u)
    (hb : ∀ {t u}, SameMachine t u → P t → P u) {s u : State} (h0 : P s) (h : runMoves s u) : P u := by
  obtain ⟨n, t, ht, c, rest, -, -, rfl⟩ := h
  exact hb (t.begin_same c rest) (stateAfter_induct hs h0 ht)

end Sys2Proof.Machine
end

