-- ==== Sys2Proof/Tests/Slice0.lean ====
section
/-!
SUPPORT. Tests of the model and witnesses of the statements' hypotheses. Expected results come from the spec:
`95_test_vectors.md` sections 1.1, 2.1, 3 and 4, and the rules' own examples. Each test is one step or less; one witness
is of a run of four.
-/

namespace Sys2Proof.Tests

open Sys2Proof Sys2Proof.Machine Sys2Proof.Safety

/-! ## Helpers -/

/-- The next state satisfies a test. -/
def next (o : Host.Outcome State Fault Refusal) (p : State → Bool) : Bool :=
  match o with
  | .next s => p s
  | _ => false

/-- The outcome is this fault. -/
def faults (o : Host.Outcome State Fault Refusal) (r : Fault) : Bool :=
  match o with
  | .fault q => q == r
  | _ => false

/-- The outcome is this refusal. -/
def refuses (o : Host.Outcome State Fault Refusal) (r : Refusal) : Bool :=
  match o with
  | .refused q => q == r
  | _ => false

/-- Reset with the thread at `pc` and a control stack. -/
def atPc (pc : CodeAddr) (cs : List CsEntry) : State :=
  { State.reset with thread := { State.reset.thread with pc := pc, cs := cs } }

/-- Reset with registers and memory bytes. -/
def withData (regs : List (RegIdx × Word)) (cells : List Host.Cell) : State :=
  { State.reset with
    thread := regs.foldl (fun t p => t.writeReg p.1 p.2) State.reset.thread
    gmem := cells.foldl (fun m c => Memory.writeByte m c.1 c.2) [] }

/-- Reset with some names unwritten. -/
def unwriting (names : List Source) : State :=
  { State.reset with thread := { State.reset.thread with unwritten := names } }

/-- A block of two threads, thread 0 stepping; thread 1 as given. -/
def two (t : Thread) : State := { State.reset with higher := [t] }

/-- Reset with barrier 2 as given. -/
def withBarrier (b : Barrier) : State := State.reset.setBarrier 2 b

/-- A word fetched by the next step of reset. -/
def fetching (w : Nat) : State := State.reset.withFetchWord 64 w

/-- The next step of a word stops its thread with this outcome, and only that. -/
def stops (w : Nat) (e : Stop) : Bool :=
  next (step (fetching w)) (fun s => s.record == [⟨0, 0, some (BitVec.ofNat 64 w), e⟩] && s.thread.pc == 0)

/-! ## Well-formedness refuses what no word encodes -/

theorem test_wellFormed_refuses : NopOp.wellFormed (.noRow 8#4) = false ∧ AtomOp.wellFormed (.invalid 9#4) = false ∧
    AtomType.wellFormed (.invalid 4#4) = false ∧ AtomType.wellFormed (.invalid 11#4) = false ∧
    VoteMode.wellFormed (.noRow 0#3) = false ∧ VoteMode.wellFormed (.noRow 5#3) = false := by decide

theorem test_wellFormed_accepts : NopOp.wellFormed (.noRow 9#4) = true ∧ AtomOp.wellFormed (.invalid 10#4) = true ∧
    AtomType.wellFormed (.invalid 6#4) = true ∧ VoteMode.wellFormed (.noRow 3#3) = true := by decide

/-- An instruction with an ill-formed field is ill-formed. -/
theorem test_wellFormed_instr : Instr.wellFormed (.nop .t false false (.noRow 0#4) 0#16) = false ∧
    Instr.wellFormed (.atom (.invalid 0#4) .u32 false 0#6 0#6 0#20 0#6 0#6) = false ∧
    Instr.wellFormed (.red .add (.invalid 5#4) false 0#6 0#32 0#6) = false ∧
    Instr.wellFormed (.vote (.noRow 7#3) 0#6 ⟨false, 0#3⟩ 0#28 0#3) = false := by decide

/-! ## Decoding: the sixteen templates (section 1.1) and one word with operands per constructor (section 2.1) -/

theorem test_templates_flow :
    decodeTableWord 64 0x6000000000000007 = some (.ssy (.rel 0#24)) ∧
    decodeTableWord 64 0x4000000000001DE7 = some (.bra .t false false (.rel 0#24)) ∧
    decodeTableWord 64 0x5000000000010007 = some (.cal false (.rel 0#24)) ∧
    decodeTableWord 64 0x7800000000008007 = some (.pret false (.rel 0#24)) ∧
    decodeTableWord 64 0x9000000000001DE7 = some (.ret .t) ∧
    decodeTableWord 64 0x8000000000001DE7 = some (.exit .t) ∧
    decodeTableWord 64 0x4000000000001DE4 = some (.nop .t false false .none 0#16) ∧
    decodeTableWord 64 0x6800000000001C07 = some (.pbk (.rel 0#24)) ∧
    decodeTableWord 64 0xA800000000001DE7 = some (.brk .t) ∧
    decodeTableWord 64 0x7000000000001C07 = some (.pcnt (.rel 0#24)) ∧
    decodeTableWord 64 0xB000000000001DE7 = some (.cont .t) := by decide

theorem test_templates_sync :
    decodeTableWord 64 0x50EE0000FC001C04 = some (.barRed .popc 0#6 (.reg 0#6) countUnspecified ⟨false, pt⟩ pt) ∧
    decodeTableWord 64 0xE000000000001C05 = some (.membar .cta) ∧
    decodeTableWord 64 0x5000000000001C05 = some (.atom .add .u32 false 0#6 0#6 0#20 0#6 0#6) ∧
    decodeTableWord 64 0x1000000000001C05 = some (.red .add .u32 false 0#6 0#32 0#6) ∧
    decodeTableWord 64 0x4800000000001C04 = some (.vote .all 0#6 ⟨false, 0#3⟩ 0#28 0#3) := by decide

theorem test_decode_flow :
    decodeTableWord 64 0x6003FFFFE0000007 = some (.ssy (.rel 0xFFFFF8#24)) ∧
    decodeTableWord 64 0x4000000040011DE7 = some (.bra .t false true (.rel 0x10#24)) ∧
    decodeTableWord 64 0x4000000040001CA7 = some (.bra .ne false false (.rel 0x10#24)) ∧
    decodeTableWord 64 0x4000000000005DE7 = some (.bra .t false false (.const 0#24)) ∧
    decodeTableWord 64 0x5000000060000007 = some (.cal true (.rel 0x18#24)) ∧
    decodeTableWord 64 0x78000000C0000007 = some (.pret true (.rel 0x30#24)) ∧
    decodeTableWord 64 0x9000000000001C47 = some (.ret .eq) ∧
    decodeTableWord 64 0x8000000000001C07 = some (.exit .f) ∧
    decodeTableWord 64 0x4040000000001DE4 = some (.nop .t false false .fmul 0#16) ∧
    decodeTableWord 64 0x4048000000001DE4 = some (.nop .t false false (.noRow 9#4) 0#16) ∧
    decodeTableWord 64 0x40000048D0001DE4 = some (.nop .t false false .none 0x1234#16) ∧
    decodeTableWord 64 0x6800000100001C07 = some (.pbk (.rel 0x40#24)) ∧
    decodeTableWord 64 0x70000000A0001C07 = some (.pcnt (.rel 0x28#24)) := by decide

theorem test_decode_bar :
    decodeTableWord 64 0x50EE8000FC0FDC04 = some (barSync (.imm 0#6) countUnspecified) ∧
    decodeTableWord 64 0x50EEC001001FDC04 = some (barSync (.imm 1#6) (.imm 0x40#12)) ∧
    decodeTableWord 64 0x50F28000FC215C04 = some (barRedPopc 5#6 (.imm 2#6) countUnspecified ⟨true, 1#3⟩) ∧
    decodeTableWord 64 0x50408000FC3FDC44 = some (barRedPred .or 2#3 (.imm 3#6) countUnspecified ⟨false, 0#3⟩) ∧
    decodeTableWord 64 0x50EE0000207FDC04 = some (barSync (.reg 7#6) (.reg 8#6 0#6)) ∧
    decodeTableWord 64 0x50EEC00200401C84 = some (barArrive (.imm 4#6) (.imm 0x80#12)) ∧
    decodeTableWord 64 0xE000000000001C25 = some (.membar .gl) ∧
    decodeTableWord 64 0xE000000000001C65 = some (.membar .invalid) := by decide

theorem test_decode_atomic :
    decodeTableWord 64 0x5800180000101E25 = some (.atom .min .s32 false 3#6 1#6 0#20 0#6 0#6) ∧
    decodeTableWord 64 0x540C100000A11F25 = some (.atom .cas .u64 true 2#6 10#6 0#20 4#6 6#6) ∧
    decodeTableWord 64 0x7000180000101E05 = some (.atom .add (.invalid 13#4) false 3#6 1#6 0#20 0#6 0#6) ∧
    decodeTableWord 64 0x2800000000101E05 = some (.red .add .f32 false 1#6 0#32 0#6) ∧
    decodeTableWord 64 0x1400000000319E05 = some (.red .add .u64 true 3#6 0#32 6#6) ∧
    decodeTableWord 64 0x48800000009FDC24 = some (votePred .any 2#3 ⟨true, 1#3⟩) ∧
    decodeTableWord 64 0x49C0000000115C24 = some (voteBallot 5#6 ⟨false, 1#3⟩) ∧
    decodeTableWord 64 0x4800000004001CA4 = some (.vote .vtgR 0#6 ⟨false, 0#3⟩ 1#28 0#3) := by decide

theorem test_words_without_instruction :
    decode 0x40000000400001E7#64 = .error .notShown ∧ decode 0x8000000000001DF7#64 = .error .notShown ∧
    decode 0#64 = .error .unknownOpcode ∧ decode 0xFFFFFFFFFFFFFFFF#64 = .error .unknownOpcode ∧
    decode 0x8000000000001C05#64 = .error .unknownOpcode ∧ decode 0x2800000000001DE4#64 = .error .unknownOpcode := by
  decide

theorem test_bytes : bytesOfWord 8 0x4003FFFFC0001DE7#64 =
    [0xE7#8, 0x1D#8, 0x00#8, 0xC0#8, 0xFF#8, 0xFF#8, 0x03#8, 0x40#8] := by decide

/-! ## Execution control (section 3.1) -/

theorem test_ssy : next (exec (.ssy (.rel 0x20#24)) (atPc 0x100 []))
    (fun s => s.thread.cs == [⟨.sync, 0x128⟩] && s.thread.pc == 0x108) := by decide

theorem test_ssy_negative : next (exec (.ssy (.rel 0xFFFFF8#24)) (atPc 0x100 []))
    (fun s => s.thread.cs == [⟨.sync, 0x100⟩]) := by decide

theorem test_bra_back : next (exec (.bra .t false false (.rel 0xFFFFF0#24)) (atPc 0x40 []))
    (fun s => s.thread.pc == 0x38) := by decide

/-- `BRA CC.F` never branches, even while `CC` is unwritten. -/
theorem test_bra_false : next (exec (.bra .f false false (.rel 0x10#24)) (unwriting [.cc]))
    (fun s => s.thread.pc == 8) := by decide

theorem test_cal : next (exec (.cal false (.rel 0x18#24)) (atPc 0x10 []))
    (fun s => s.thread.cs == [⟨.ret, 0x18⟩] && s.thread.pc == 0x30) ∧ calPrinted 0x10 0x18#24 = 0x30 := by decide

theorem test_pret : next (exec (.pret false (.rel 0x30#24)) (atPc 0 []))
    (fun s => s.thread.cs == [⟨.ret, 0x38⟩] && s.thread.pc == 8) := by decide

theorem test_ret_drops_sync : next (exec (.ret .t) (atPc 0x50 [⟨.sync, 0x90⟩, ⟨.ret, 0x18⟩]))
    (fun s => s.thread.cs == [] && s.thread.pc == 0x18) := by decide

theorem test_ret_without_entry : faults (exec (.ret .t) (atPc 0x50 [⟨.brk, 0x70⟩])) .controlStackUnderflow := by decide

theorem test_exit : next (exec (.exit .t) (atPc 0x60 []))
    (fun s => s.thread == { (atPc 0x60 []).thread with status := .exited }) := by decide

theorem test_nop_join : next (exec (.nop .t true false .none 0#16) (atPc 0x60 [⟨.sync, 0x128⟩]))
    (fun s => s.thread.cs == [] && s.thread.pc == 0x128) := by decide

theorem test_nop_join_mismatch :
    faults (exec (.nop .t true false .none 0#16) (atPc 0x60 [⟨.brk, 0x70⟩])) (.controlStackMismatch .brk) := by decide

theorem test_pbk : next (exec (.pbk (.rel 0x40#24)) (atPc 0 []))
    (fun s => s.thread.cs == [⟨.brk, 0x48⟩] && s.thread.pc == 8) := by decide

theorem test_brk : next (exec (.brk .t) (atPc 0x20 [⟨.sync, 0x30⟩, ⟨.cnt, 0x10⟩, ⟨.brk, 0x48⟩]))
    (fun s => s.thread.cs == [] && s.thread.pc == 0x48) := by decide

theorem test_pcnt : next (exec (.pcnt (.rel 0x28#24)) (atPc 8 [⟨.brk, 0x48⟩]))
    (fun s => s.thread.cs == [⟨.cnt, 0x38⟩, ⟨.brk, 0x48⟩] && s.thread.pc == 0x10) := by decide

theorem test_cont : next (exec (.cont .t) (atPc 0x20 [⟨.cnt, 0x38⟩, ⟨.brk, 0x48⟩]))
    (fun s => s.thread.cs == [⟨.brk, 0x48⟩] && s.thread.pc == 0x38) := by decide

/-! ## Words that stop, run by `step` from reset (section 2.1) -/

theorem test_stops_flow :
    stops 0x4000000040011DE7 (.refusal .modifierNotModelled) ∧ stops 0x4000000000005DE7 (.refusal .constOperand) ∧
    stops 0x40000000400001E7 (.refusal .notShown) ∧ stops 0x9000000000001DE7 (.fault .controlStackUnderflow) ∧
    stops 0x4000000000001CA4 (.refusal .ccopNotModelled) ∧ stops 0x4048000000001DE4 (.refusal .notShown) ∧
    stops 0x4048000000001CA4 (.refusal .notShown) ∧ stops 0x4008000000001CA4 (.refusal .ccopNotModelled) ∧
    stops 0 (.refusal .unknownOpcode) := by decide

theorem test_stops_sync :
    stops 0x50EE8000FC0FDC64 (.fault .illegalEncoding) ∧ stops 0x50EE8000FD0FDC04 (.fault .illegalEncoding) ∧
    stops 0x50EEC000C01FDC04 (.fault (.badThreadCount 48)) ∧ stops 0x50EEC00000401C84 (.fault (.badThreadCount 0)) ∧
    stops 0xE000000000001C65 (.fault .illegalEncoding) ∧ stops 0x1000000000101D05 (.fault .illegalEncoding) ∧
    stops 0x5200180000101C05 (.refusal .offsetSignOpen) ∧ stops 0x1400000000319E05 (.refusal .badRegisterPair) ∧
    stops 0x5008180000101D25 (.refusal .notShown) ∧ stops 0x4800000000115C04 (.refusal .notShown) ∧
    stops 0x4800000004001CA4 (.refusal .unconfirmed) := by decide

/-- A plain NOP from reset: the next `pc`, and nothing recorded. -/
theorem test_step_nop : next (step (fetching 0x4000000000001DE4))
    (fun s => s.thread.pc == 8 && s.record.isEmpty && s.schedule.isEmpty) := by decide

/-- An EXIT of the only thread ends the run with the answer. -/
theorem test_step_exit : next (step (fetching 0x8000000000001DE7))
    (fun s => faults (step s) .finished && s.answer == some []) := by decide

/-! ## Barriers (section 3.3) -/

/-- The first arrival of a block of one at barrier 2, with `P1` false. -/
theorem test_barRed : next (exec (barRedPopc 5#6 (.imm 2#6) countUnspecified ⟨false, 1#3⟩) State.reset)
    (fun s => s.barriers[2] == ⟨1, some 1, [⟨0, .popc, 5#6, 7#3⟩], [false], [(0, 0)]⟩ && s.thread.status == .waiting 2
      && s.thread.pc == 0) := by decide

/-- A different reduction from the waiters' is a mismatch. -/
theorem test_barRed_mismatch :
    faults (exec (barRedPred .and 2#3 (.imm 2#6) countUnspecified ⟨false, 1#3⟩)
      (withBarrier ⟨1, some 2, [⟨1, .popc, 5#6, 7#3⟩], [true], [(1, 0)]⟩)) (.barrierMismatch 2) := by decide

theorem test_barArv : next (exec (barArrive (.imm 4#6) (.imm 0x40#12)) State.reset)
    (fun s => s.barriers[4] == ⟨1, some 64, [], [], [(0, 0)]⟩ && s.thread.pc == 8 && s.thread.status == .running) := by decide

/-- The release of barrier 2 with two true votes of three. -/
theorem test_release : (State.releaseBarrier
      { withBarrier ⟨3, some 3, [⟨0, .popc, 5#6, 7#3⟩], [true, false, true], []⟩ with
        thread := { State.reset.thread with status := .waiting 2 } } 2).thread =
    { State.reset.thread.writeReg 5#6 2#32 with pc := 8 } := by decide

theorem test_membar : next (exec (.membar .gl) State.reset)
    (fun s => s.thread.pc == 8 && s.history == [.fence 0 0 .gl]) := by decide

/-! ## ATOM and RED (section 3.2) -/

/-- `ATOM.ADD R3, [R1+0x10], R0`. -/
theorem test_atom_add : next (exec (.atom .add .u32 false 3#6 1#6 0x10#20 0#6 0#6)
      (withData [(1#6, 0x1000#32), (0#6, 5#32)] [(0x1010, 7#8)]))
    (fun s => Memory.read s.gmem 0x1010 4 == 12#64 && s.thread.regValue 3#6 == 7#32 && s.thread.pc == 8) := by decide

/-- `ATOM.E.ADD.U64 R4, [R2], R6` at `0x100002000`. -/
theorem test_atom_wide : next (exec (.atom .add .u64 true 4#6 2#6 0#20 6#6 0#6)
      (withData [(3#6, 1#32), (2#6, 0x2000#32), (6#6, 1#32)] [(0x100002000, 41#8)]))
    (fun s => Memory.read s.gmem 0x100002000 8 == 42#64 && s.thread.regValue 4#6 == 41#32) := by decide

/-- `RED.ADD [R1+0xFFFFF000], R0`: the address wraps modulo `2^32`. -/
theorem test_red_wraps : next (exec (.red .add .u32 false 1#6 0xFFFFF000#32 0#6)
      (withData [(1#6, 0x1000#32), (0#6, 1#32)] [(0, 3#8)]))
    (fun s => Memory.read s.gmem 0 4 == 4#64 && s.thread.pc == 8) := by decide

theorem test_red_misaligned : faults (exec (.red .add .u32 false 1#6 2#32 0#6) (withData [(1#6, 0x1000#32)] []))
    (.misalignedAddress 0x1002) := by decide

/-- The integer rows of section 3.2. -/
theorem test_operations :
    atomApply .add .u32 0xFFFFFFFF#64 1#64 0#64 = 0#64 ∧ atomApply .min .u32 0x80000000#64 1#64 0#64 = 1#64 ∧
    atomApply .min .s32 0x80000000#64 1#64 0#64 = 0x80000000#64 ∧
    atomApply .max .u32 0x80000000#64 1#64 0#64 = 0x80000000#64 ∧ atomApply .max .s32 0x80000000#64 1#64 0#64 = 1#64 ∧
    atomApply .inc .u32 4#64 5#64 0#64 = 5#64 ∧ atomApply .inc .u32 5#64 5#64 0#64 = 0#64 ∧
    atomApply .inc .u32 0xFFFFFFFE#64 0xFFFFFFFF#64 0#64 = 0xFFFFFFFF#64 ∧
    atomApply .dec .u32 3#64 5#64 0#64 = 2#64 ∧ atomApply .dec .u32 0#64 5#64 0#64 = 5#64 ∧
    atomApply .dec .u32 6#64 5#64 0#64 = 5#64 ∧ atomApply .and .u32 0xF0F0#64 0xFF00#64 0#64 = 0xF000#64 ∧
    atomApply .or .u32 0xF0F0#64 0xFF00#64 0#64 = 0xFFF0#64 ∧ atomApply .xor .u32 0xF0F0#64 0xFF00#64 0#64 = 0x0FF0#64 ∧
    atomApply .exch .u32 7#64 9#64 0#64 = 9#64 ∧ atomApply .cas .u32 7#64 7#64 9#64 = 9#64 ∧
    atomApply .cas .u32 8#64 7#64 9#64 = 8#64 ∧ atomApply .add .u64 0xFFFFFFFF#64 1#64 0#64 = 0x100000000#64 := by
  decide

/-- The floating-point rows of section 3.2: 1 + 2; a subnormal read as zero; a subnormal sum flushed to -0; two
ties to even. -/
theorem test_fadd : faddFtzRn 0x3F800000#32 0x40000000#32 = 0x40400000#32 ∧
    faddFtzRn 0x00000001#32 0x3F800000#32 = 0x3F800000#32 ∧ faddFtzRn 0x00800000#32 0x80800001#32 = 0x80000000#32 ∧
    faddFtzRn 0x4B800000#32 0x3F800000#32 = 0x4B800000#32 ∧
    faddFtzRn 0x4B800001#32 0x3F800000#32 = 0x4B800002#32 := by decide

/-! ## What rule R58 (c) leaves open (log 14) -/

/-- Thread 1 has added 1 to the words at `0x10` and `0x14` by two REDs, and thread 0 has read 1 at `0x14`; its ATOM at
`0x10` comes next, placed before the three accesses, reading 0; `between` are events between its two accesses. -/
def readingOld (between : List Event) : State :=
  { fetching 0x5000180040101C05 with
    thread := { (fetching 0x5000180040101C05).thread with place := 1 }
    gmem := Memory.write (Memory.write [] 0x10 4 1#64) 0x14 4 1#64
    history := between ++ [.access 0 0 0x14 4 1 1, .access 1 1 0x14 4 0 1, .access 1 0 0x10 4 0 1]
    schedule := [.placed 0 (between.length + 3) 0#64] }

/-- New at `0x14`, then old at `0x10`: the order is complete, and memory holds what thread 1 wrote. -/
theorem test_old_after_new : next (step (readingOld []))
    (fun s => s.thread.regValue 3#6 == 0#32 && s.coherent && Memory.read s.gmem 0x10 4 == 1#64
      && s.history == (readingOld []).history ++ [.access 0 1 0x10 4 0 0]) := by decide

/-- Not where a fence stands between thread 0's accesses, nor where a release separates it from thread 1's; a release
that thread 1 had no part in separates nothing. -/
theorem test_order_kept : (readingOld []).enabled (.placed 0 3 0#64) = true ∧
    (readingOld [.fence 0 1 .cta]).enabled (.placed 0 4 0#64) = false ∧
    (readingOld [.release 2 [(1, 2), (0, 1)] [(0, 1)]]).enabled (.placed 0 4 0#64) = false ∧
    (readingOld [.release 3 [(2, 0), (0, 0)] [(0, 0)], .release 2 [(1, 2), (2, 0)] [(2, 0)]]).enabled
      (.placed 0 5 0#64) = true := by decide

/-- A value that is to come leaves the order open: alone the choice completes nothing. -/
theorem test_value_to_come : next (step { fetching 0x5000180040101C05 with schedule := [.placed 0 0 7#64] })
      (fun s => s.thread.regValue 3#6 == 7#32 && !s.coherent) ∧
    (fetching 0x5000180040101C05).completes [.placed 0 0 7#64] = false ∧
    (fetching 0x5000180040101C05).completes [.thread 0] = true := by decide

/-! ## VOTE (section 3.4) -/

/-- Two live lanes, `P1` true in lane 1 only: the ballot is the mask 2. -/
theorem test_vote_ballot : next (exec (voteBallot 5#6 ⟨false, 1#3⟩) (two (State.reset.thread.writePred 1#3 true)))
    (fun s => s.threadList.map (fun t => (t.regValue 5#6, t.pc)) == [(2#32, 8), (2#32, 8)]) := by decide

/-- The same lanes: `.ALL` is false; and with lane 1 exited the vote is over lane 0 alone. -/
theorem test_vote_all : next (exec (votePred .all 0#3 ⟨false, 1#3⟩) (two (State.reset.thread.writePred 1#3 true)))
      (fun s => s.threadList.map (fun t => t.predValue 0#3) == [false, false]) ∧
    next (exec (voteBallot 5#6 ⟨true, 1#3⟩) (two { State.reset.thread with status := .exited }))
      (fun s => s.threadList.map (fun t => (t.regValue 5#6, t.pc)) == [(1#32, 8), (0#32, 0)]) := by decide

/-! ## Witnesses: for each statement with hypotheses, states and operands that meet them -/

/-- The state in which the only thread takes its step before a word. -/
def acting (w : Nat) : State := (fetching w).begin (.thread 0) []

/-- A choice that is next and is a thread's step. -/
theorem moves {s : State} {i : Nat} {rest : List Choice} (h : s.nextChoice = some (.thread i, rest)) :
    threadMoves s (s.begin (.thread i) rest) := ⟨_, _, h, Or.inl ⟨i, rfl⟩, rfl⟩

/-- The word NOP fetched at 0, and the same for a word that faults and one that is refused. -/
theorem witness_StepRunsDecodedInstruction :
    threadMoves (fetching 0x4000000000001DE4) (acting 0x4000000000001DE4) ∧
    threadMoves (fetching 0x9000000000001DE7) (acting 0x9000000000001DE7) ∧
    threadMoves (fetching 0x4000000040011DE7) (acting 0x4000000040011DE7) ∧
    (acting 0x4000000000001DE4).thread.status = .running ∧
    (acting 0x4000000000001DE4).params.fetchable (acting 0x4000000000001DE4).thread.pc = true ∧
    codeBytes (acting 0x4000000000001DE4).code 0 8 = some (bytesOfWord 8 0x4000000000001DE4#64) ∧
    decodeBytes (bytesOfWord 8 0x4000000000001DE4#64) = some (.ok (.nop .t false false .none 0#16, [])) ∧
    Instr.wellFormed (.nop .t false false .none 0#16) = true ∧
    next (exec (.nop .t false false .none 0#16) (acting 0x4000000000001DE4)) (fun _ => true) ∧
    decodeBytes (bytesOfWord 8 0x9000000000001DE7#64) = some (.ok (.ret .t, [])) ∧
    codeBytes (acting 0x9000000000001DE7).code 0 8 = some (bytesOfWord 8 0x9000000000001DE7#64) ∧
    faults (exec (.ret .t) (acting 0x9000000000001DE7)) .controlStackUnderflow ∧
    decodeBytes (bytesOfWord 8 0x4000000040011DE7#64) = some (.ok (.bra .t false true (.rel 0x10#24), [])) ∧
    codeBytes (acting 0x4000000040011DE7).code 0 8 = some (bytesOfWord 8 0x4000000040011DE7#64) ∧
    refuses (exec (.bra .t false true (.rel 0x10#24)) (acting 0x4000000040011DE7)) .modifierNotModelled :=
  ⟨moves (by decide), moves (by decide), moves (by decide), by decide⟩

theorem witness_DecodeEncode : Instr.wellFormed (.nop .f true true (.noRow 15#4) 0xFFFF#16) = true ∧
    Instr.wellFormed (.atom (.invalid 15#4) (.invalid 0#4) true 63#6 63#6 0xFFFFF#20 63#6 63#6) = true := by decide

theorem witness_EncodeDecode :
    decode 0x49C0000000115C24#64 = .ok (.vote .any 5#6 ⟨false, 1#3⟩ 0#28 7#3) := by decide

theorem witness_TableRowsDecode :
    (∃ row ∈ opcodeTable, 0x6003FFFFE0000007#64 &&& row.mask = row.value ∧
      0x6003FFFFE0000007#64 &&& row.strictMask = row.strictValue) ∧
    (∃ row ∈ opcodeTable, 0x8000000000001DF7#64 &&& row.mask = row.value ∧
      0x8000000000001DF7#64 &&& row.strictMask ≠ row.strictValue) := by decide

theorem witness_UnknownOpcodeExactlyOutsideTheTable : (∀ row ∈ opcodeTable, 0#64 &&& row.mask ≠ row.value) ∧
    0x8000000000001C05#64 &&& 0xC00000000000000F#64 = 0x8000000000000005#64 := by decide

theorem witness_PtxSpellingsFixTheirFields : (RedOp.and = .and ∨ RedOp.and = .or) ∧ (RedOp.or = .and ∨ RedOp.or = .or) := by
  decide

theorem witness_LittleEndianBytes :
    (fetching 0x4003FFFFC0001DE7).fetch = .ok 0x4003FFFFC0001DE7#64 ∧ (0 < 8 ∧ 7 < 8 ∧ 8 ≤ 8) ∧
    (9 < 10 ∨ 10 + 4 ≤ 9) ∧ (14 < 10 ∨ 10 + 4 ≤ 14) := by decide

theorem fetches_acting : fetches (acting 0x9000000000001DE7) 0x9000000000001DE7#64 ∧
    fetches (acting 0x4000000040011DE7) 0x4000000040011DE7#64 ∧ fetches (acting 0) 0#64 ∧
    fetches (acting 0x8000000000001DF7) 0x8000000000001DF7#64 :=
  ⟨⟨rfl, by decide, bytesOfWord 8 0x9000000000001DE7#64, by decide, by decide⟩,
    ⟨rfl, by decide, bytesOfWord 8 0x4000000040011DE7#64, by decide, by decide⟩,
    ⟨rfl, by decide, bytesOfWord 8 0#64, by decide, by decide⟩,
    ⟨rfl, by decide, bytesOfWord 8 0x8000000000001DF7#64, by decide, by decide⟩⟩

theorem witness_StoppedInstructionChangesNothingElse :
    (threadMoves (fetching 0x9000000000001DE7) (acting 0x9000000000001DE7) ∧
      fetches (acting 0x9000000000001DE7) 0x9000000000001DE7#64 ∧ decode 0x9000000000001DE7#64 = .ok (.ret .t) ∧
      faults (exec (.ret .t) (acting 0x9000000000001DE7)) .controlStackUnderflow) ∧
    threadMoves (fetching 0x4000000040011DE7) (acting 0x4000000040011DE7) ∧
    fetches (acting 0x4000000040011DE7) 0x4000000040011DE7#64 ∧
    decode 0x4000000040011DE7#64 = .ok (.bra .t false true (.rel 0x10#24)) ∧
    refuses (exec (.bra .t false true (.rel 0x10#24)) (acting 0x4000000040011DE7)) .modifierNotModelled :=
  ⟨⟨moves (by decide), fetches_acting.1, by decide, by decide⟩, moves (by decide), fetches_acting.2.1, by decide,
    by decide⟩

/-- `pc` = -8; `pc` = `2^32`; `pc` = 4; and the last place an instruction fits, with no program there. -/
theorem witness_BadFetchStopsTheThread :
    (∀ pc ∈ [-8, 2 ^ 32, 4, 2 ^ 32 - 8],
      (atPc pc []).nextChoice = some (.thread 0, []) ∧
        ((atPc pc []).begin (.thread 0) []).thread.pc = pc ∧
        ((atPc pc []).begin (.thread 0) []).thread.status = .running) ∧
    (-8 : CodeAddr) < 0 ∧ 2 ^ State.reset.params.pcWidth < (2 ^ 32 : CodeAddr) + 8 ∧ (4 : CodeAddr) % 8 ≠ 0 ∧
    (0 < 8 ∧ cellsLookup ((2 ^ 32 - 8 : CodeAddr).toNat + 0) State.reset.code = none) := by decide

theorem witness_UndecodableWordStopsTheThread :
    (threadMoves (fetching 0) (acting 0) ∧ fetches (acting 0) 0#64 ∧ decode 0#64 = .error .unknownOpcode) ∧
    threadMoves (fetching 0x8000000000001DF7) (acting 0x8000000000001DF7) ∧
    fetches (acting 0x8000000000001DF7) 0x8000000000001DF7#64 ∧ decode 0x8000000000001DF7#64 = .error .notShown :=
  ⟨⟨moves (by decide), fetches_acting.2.2.1, by decide⟩, moves (by decide), fetches_acting.2.2.2, by decide⟩

/-- Reset with its thread in a status. -/
def resting (st : Status) : State := { State.reset with thread := { State.reset.thread with status := st } }

/-- Of two running threads either may be named; a pending release may be named; a plan may complete the order. -/
theorem witness_ScheduleMayNameAnyEnabledChoice :
    ({ two State.reset.thread with schedule := [.thread 1] }.threadList[1]? = some State.reset.thread ∧
      State.reset.thread.status = .running ∧
      (State.ready { two State.reset.thread with schedule := [.thread 1] } (.thread 1)).held = false) ∧
    (withBarrier ⟨1, some 1, [], [], [(0, 0)]⟩).barriers[(2 : Fin 16)].expected =
      some (withBarrier ⟨1, some 1, [], [], [(0, 0)]⟩).barriers[(2 : Fin 16)].arrived ∧
    State.reset.schedule = [] ∧ (two State.reset.thread).completes [.thread 1, .thread 0] = true ∧
    State.reset.nextChoice = some (.thread 0, []) := by decide

theorem witness_RunEndsOnlyWhereNothingIsEnabled :
    ((resting .exited).nextChoice = none ∧ ∀ t ∈ (resting .exited).threadList, t.status = .exited) ∧
    ((resting (.waiting 2)).nextChoice = none ∧
      ∃ t ∈ (resting (.waiting 2)).threadList, t.status.stopped = false) ∧
    (State.nextChoice { resting (.faulted .badFetch) with record := [⟨0, 0, none, .fault .badFetch⟩] } = none ∧
      ∀ t ∈ (resting (.faulted .badFetch)).threadList, t.status.stopped = true) ∧
    (resting .running).held = false ∧ (resting .running).enabled (.thread 0) = true := by decide

/-! ### Invariants -/

/-- Thread 0 waits at barrier 2, whose release is pending and comes next. -/
def aboutToRelease : State :=
  { withBarrier ⟨1, some 1, [⟨0, .popc, 5#6, 7#3⟩], [true], [(0, 0)]⟩ with
    thread := { State.reset.thread with status := .waiting 2 }
    schedule := [.release 2] }

theorem aboutToRelease_waiters : waitersWait aboutToRelease := by
  intro b
  by_cases hb : b = 2
  · subst hb
    refine ⟨by decide, fun i => ?_⟩
    cases i with
    | zero => exact ⟨fun _ => ⟨_, rfl, rfl⟩, fun _ => ⟨⟨0, .popc, 5#6, 7#3⟩, by decide, rfl⟩⟩
    | succ i =>
      have hl : aboutToRelease.threadList[i + 1]? = none := List.getElem?_eq_none (Nat.le_add_left 1 i)
      have hw : ∀ w ∈ aboutToRelease.barriers[(2 : Fin 16)].waiters, w.thread = 0 := by decide
      exact ⟨fun ⟨w, h, e⟩ => absurd ((hw w h).symm.trans e) (by omega), fun ⟨t, h, _⟩ => by simp [hl] at h⟩
  · have hw : ∀ c : Fin 16, c ≠ 2 → aboutToRelease.barriers[c].waiters = [] := by decide
    have ht : ∀ t ∈ aboutToRelease.threadList, t.status = .waiting 2 := by decide
    rw [hw b hb]
    refine ⟨List.nodup_nil, fun i => ⟨fun ⟨w, h, _⟩ => (nomatch h), fun ⟨t, h, e⟩ => ?_⟩⟩
    have := (ht t (List.mem_of_getElem? h)).symm.trans e
    exact absurd (Status.waiting.inj this).symm hb

theorem aboutToRelease_counts : countsAgree aboutToRelease := by
  intro b
  by_cases hb : b = 2
  · subst hb
    exact ⟨by decide, by decide, by decide, show 0 < 1 ∧ 1 ≤ 1 by decide⟩
  · have h : ∀ c : Fin 16, c ≠ 2 → aboutToRelease.barriers[c] = Barrier.idle := by decide
    rw [h b hb]
    exact ⟨rfl, Nat.le_refl _, rfl, rfl⟩

theorem aboutToRelease_record : recordAgrees aboutToRelease := by
  intro i e
  have ht : ∀ t ∈ aboutToRelease.threadList, t.status = .waiting 2 := by decide
  refine ⟨fun ⟨t, h, he⟩ => ?_, fun ⟨r, h, _⟩ => (nomatch h)⟩
  have := (ht t (List.mem_of_getElem? h)).symm.trans he
  cases e <;> exact nomatch this

theorem aboutToRelease_history : historyCoherent aboutToRelease := ⟨fun _ => rfl, by decide⟩

theorem aboutToRelease_step : ∃ t, step aboutToRelease = .next t := ⟨_, rfl⟩

theorem aboutToRelease_order : MemoryOrder aboutToRelease where
  kept _ := List.Pairwise.nil
  accesses _ _ _ _ _ _ h := (nomatch h)
  fences _ _ _ _ _ h := (nomatch h)
  releases _ _ _ h := (nomatch h)
  arrivals b i t q _ h := by
    have hb : ∀ b : Fin 16, ∀ x ∈ aboutToRelease.barriers[b].arrivers, x.2 = 0 := by decide
    exact (hb b _ h).trans_le (Nat.zero_le _)

theorem witness_StepKeepsMemoryCanonical : memoryCanonical aboutToRelease ∧ ∃ t, step aboutToRelease = .next t :=
  ⟨⟨by decide, by decide⟩, aboutToRelease_step⟩

theorem witness_StepKeepsHistoryCoherent : (historyCoherent aboutToRelease ∧ ∃ t, step aboutToRelease = .next t) ∧
    (historyCoherent State.reset ∧ State.reset.schedule = []) ∧
    historyCoherent (resting .exited) ∧ ∃ r, step (resting .exited) = .fault r :=
  ⟨⟨aboutToRelease_history, aboutToRelease_step⟩, ⟨⟨fun _ => rfl, by decide⟩, rfl⟩, ⟨fun _ => rfl, by decide⟩, ⟨_, rfl⟩⟩

theorem witness_StepKeepsTheLaunch : ∃ t, step aboutToRelease = .next t := aboutToRelease_step

theorem witness_StepKeepsWaiters : waitersWait aboutToRelease ∧ ∃ t, step aboutToRelease = .next t :=
  ⟨aboutToRelease_waiters, aboutToRelease_step⟩

theorem witness_StepKeepsBarrierCounts : countsAgree aboutToRelease ∧ ∃ t, step aboutToRelease = .next t :=
  ⟨aboutToRelease_counts, aboutToRelease_step⟩

theorem witness_StepKeepsRecord :
    waitersWait aboutToRelease ∧ recordAgrees aboutToRelease ∧ ∃ t, step aboutToRelease = .next t :=
  ⟨aboutToRelease_waiters, aboutToRelease_record, aboutToRelease_step⟩

theorem witness_StepKeepsMemoryOrder : MemoryOrder aboutToRelease ∧ ∃ t, step aboutToRelease = .next t :=
  ⟨aboutToRelease_order, aboutToRelease_step⟩

/-- The same with the stronger `MemModel`. -/
theorem witness_StepKeepsSequentialOrder :
    sequentialOrder { aboutToRelease with params := { Params.reset with memModel := .sequential } } ∧
    ∃ t, step { aboutToRelease with params := { Params.reset with memModel := .sequential } } = .next t := by
  exact ⟨⟨rfl, fun _ _ _ _ _ _ h => (nomatch h), List.Pairwise.nil⟩, ⟨_, rfl⟩⟩

theorem witness_ReleaseFreesAllWaiters : waitersWait aboutToRelease ∧
    aboutToRelease.nextChoice = some (.release 2, []) ∧
    aboutToRelease.threadList[0]? = some aboutToRelease.thread ∧
    (∃ w ∈ aboutToRelease.barriers[(2 : Fin 16)].waiters, w.thread = 0 ∧ w.redop = .popc) :=
  ⟨aboutToRelease_waiters, by decide, rfl, by decide⟩

/-- Thread 0 runs beside an exited thread 1. -/
theorem witness_StoppedThreadsNeverChange :
    waitersWait (two { State.reset.thread with status := .exited }) ∧
    (∃ t, step (two { State.reset.thread with status := .exited }) = .next t) ∧
    (two { State.reset.thread with status := .exited }).threadList[1]? =
      some { State.reset.thread with status := .exited } ∧ Status.stopped .exited = true := by
  refine ⟨fun b => ?_, ⟨_, rfl⟩, rfl, rfl⟩
  have hw : ∀ c : Fin 16, (two { State.reset.thread with status := .exited }).barriers[c].waiters = [] := by decide
  have ht : ∀ t ∈ (two { State.reset.thread with status := .exited }).threadList, ∀ c : Fin 16,
      t.status ≠ .waiting c := by decide
  rw [hw b]
  exact ⟨List.nodup_nil, fun i => ⟨fun ⟨w, h, _⟩ => (nomatch h),
    fun ⟨t, h, e⟩ => absurd e (ht t (List.mem_of_getElem? h) b)⟩⟩

theorem witness_InvariantsHoldAtLaunch :
    Memory.wf Launch.reset.params.launchMem = true ∧ cellsRising Launch.reset.program = true ∧
    (Params.memModel { Params.reset with memModel := .sequential }) = .sequential := by decide

theorem witness_StepKeepsConditionCodes : (∃ t, step aboutToRelease = .next t) ∧
    aboutToRelease.threadList[0]? = some aboutToRelease.thread ∧
    Source.cc ∈ (unwriting [.cc]).thread.unwritten ∧ next (step (unwriting [.cc])) (fun _ => true) :=
  ⟨aboutToRelease_step, rfl, by decide⟩

/-- An ATOM.ADD that changes `GMem` at its step. -/
theorem witness_MemoryChangesByOneAtomicEvent :
    next (step { fetching 0x5000180040101C05 with
        thread := (fetching 0x5000180040101C05).thread.writeReg 0#6 5#32 })
      (fun t => t.gmem != [] && t.history.length == 1) := by decide

theorem witness_InstructionsWriteOnlyTheirState :
    (next (exec (.nop .t false false .none 0#16) State.reset) (fun _ => true) ∧
      Instr.row (.nop .t false false .none 0#16) ≠ .vote ∧ Instr.row (.nop .t false false .none 0#16) ≠ .atom ∧
      Instr.row (.nop .t false false .none 0#16) ≠ .bar) ∧
    next (exec (.membar .cta) State.reset) (fun _ => true) ∧ Instr.row (.membar .cta) = .membar := by decide

/-! ### Launch, registers, predicates -/

/-- A launch that names `R[0]` and `P[0]`, not `CC`, with four bytes allocated. -/
def smallLaunch : Launch where
  params := { Params.reset with allocated := [⟨0, 4⟩] }
  program := []
  first := ⟨[(0, 1#32)], [(0, true)], none⟩
  rest := [Premise.reset]

theorem witness_LaunchFollowsTheTable :
    (smallLaunch.first :: smallLaunch.rest)[0]? = some smallLaunch.first ∧
    smallLaunch.first.regs.lookup 0 = some 1#32 ∧ smallLaunch.first.regs.lookup 62 = none ∧
    smallLaunch.first.preds.lookup 0 = some true ∧ smallLaunch.first.preds.lookup 6 = none ∧
    smallLaunch.first.cc = none ∧ (smallLaunch.first :: smallLaunch.rest)[1]? = some Premise.reset ∧
    Premise.reset.cc = some ⟨0⟩ ∧ ¬ allocated (State.launch smallLaunch) 1 4 := by
  refine ⟨rfl, by decide, by decide, by decide, by decide, rfl, rfl, rfl, ?_⟩
  rintro ⟨r, hr, -, h⟩
  have e : r = ⟨0, 4⟩ := List.mem_singleton.1 hr
  subst e
  exact absurd h (by decide)

theorem witness_ResetReadsTheLaunchOfReset : (2 ^ 64 - 8) + 8 ≤ 2 ^ 64 := by decide

theorem witness_RegistersAndPairs : (62#6 ≠ 63#6 ∧ 0#6 ≠ 62#6) ∧ (60#6).toNat % 2 = 0 ∧ (60#6).toNat ≤ 60 ∧
    (62#6 ≠ 60#6 ∧ 62#6 ≠ 60#6 + 1#6) := by decide

theorem witness_PredicatesAndSources : (6#3 ≠ 7#3 ∧ 0#3 ≠ 6#3) ∧
    State.reset.thread.predReadable ((14#4).extractLsb' 0 3) = true ∧
    (unwriting [.pred 6]).thread.predReadable ((14#4).extractLsb' 0 3) = false := by decide

theorem witness_ConditionTests : (CCop.ne ≠ .t ∧ CCop.ne ≠ .f) ∧ Source.cc ∈ (unwriting [.cc]).thread.unwritten ∧
    Source.cc ∉ State.reset.thread.unwritten := by decide

/-! ### Execution control -/

/-- Reset with a control stack of at most one entry. -/
def shallow (cs : List CsEntry) : State :=
  { atPc 0 cs with params := { Params.reset with csDepth := some 1 } }

theorem shallow_room : stackHasRoom (shallow []) ∧ ¬ stackHasRoom (shallow [⟨.ret, 0⟩]) := by
  refine ⟨fun d h => ?_, fun h => absurd (h 1 rfl) (by decide)⟩
  have : d = 1 := (Option.some.inj h).symm
  subst this
  decide

theorem witness_PushInstructions : stackHasRoom (shallow []) ∧ ¬ stackHasRoom (shallow [⟨.ret, 0⟩]) := shallow_room

theorem witness_CalPushesAndJumps : stackHasRoom (shallow []) ∧ ¬ stackHasRoom (shallow [⟨.ret, 0⟩]) := shallow_room

theorem witness_PretPushesAReturn : stackHasRoom (shallow []) ∧ ¬ stackHasRoom (shallow [⟨.ret, 0⟩]) := shallow_room

theorem condition_known : conditionKnown .t (unwriting [.cc]).thread ∧ conditionKnown .f (unwriting [.cc]).thread ∧
    conditionKnown .ne State.reset.thread ∧ ¬ conditionKnown .ne (unwriting [.cc]).thread := by
  refine ⟨Or.inl rfl, Or.inr (Or.inl rfl), Or.inr (Or.inr (by decide)), ?_⟩
  rintro (h | h | h)
  · exact nomatch h
  · exact nomatch h
  · exact h (by decide)

theorem witness_BraJumpsOnItsCondition : conditionKnown .t (unwriting [.cc]).thread ∧
    conditionKnown .ne State.reset.thread ∧ ¬ conditionKnown .ne (unwriting [.cc]).thread :=
  ⟨condition_known.1, condition_known.2.2⟩

/-- Two threads, one after the other, at `BRA.U 0x10`; then both stop at 0x18, where there is no program. -/
def branching : State :=
  { fetching 0x4000000040009DE7 with
    higher := [State.reset.thread]
    schedule := [.thread 0, .thread 1, .thread 0, .thread 1] }

/-- The states in which the first `n` steps of its run act. -/
def branchMoves (n : Nat) : List State :=
  (List.range n).filterMap (fun k => (stateAfter branching k).bind (fun t => t.nextChoice.map (fun c => t.begin c.1 c.2)))

/-- Every step of its run acts in one of four states. -/
theorem branching_moves {u : State} (h : runMoves branching u) : u ∈ branchMoves 4 := by
  obtain ⟨n, t, ht, c, rest, hc, -, rfl⟩ := h
  have hn : n < 5 := Nat.lt_of_not_le fun h5 => by
    have h0 : stateAfter branching 5 = none := by decide
    rw [stateAfter_end h0 h5] at ht
    cases ht
  have hn4 : n ≠ 4 := by
    rintro rfl
    have h0 : ((stateAfter branching 4).bind State.nextChoice) = none := by decide
    rw [ht] at h0
    rw [Option.bind_some, hc] at h0
    cases h0
  refine List.mem_filterMap.2 ⟨n, List.mem_range.2 (by omega), ?_⟩
  rw [ht, Option.bind_some, hc]
  rfl

/-- The two executions of the branch: by thread 0, then by thread 1. -/
theorem witness_UniformBranchesGoOneWay : uniformBranches branching ∧ ∃ u v : State, runMoves branching u ∧
    runMoves branching v ∧ u.index = 0 ∧ v.index = 1 ∧
    u.nextInstr = some (.bra .t true false (.rel 0x10#24)) ∧ v.thread.pc = u.thread.pc ∧
    v.index / branching.params.warpSize = u.index / branching.params.warpSize ∧ conditionKnown .t u.thread := by
  constructor
  · intro u v ccop imm24 hu _ hi _ _
    have key : ∀ w ∈ branchMoves 4, w.nextInstr = none ∨ w.nextInstr = some (.bra .t true false (.rel 0x10#24)) := by decide
    rcases key u (branching_moves hu) with h | h <;> rw [h] at hi <;> cases hi
    rfl
  · refine ⟨branching.begin (.thread 0) [.thread 1, .thread 0, .thread 1], ?_⟩
    refine ⟨(branching.begin (.thread 0) [.thread 1, .thread 0, .thread 1]).stepThread.begin (.thread 1)
      [.thread 0, .thread 1], ⟨0, _, rfl, moves (by decide)⟩, ⟨1, _, ?_, moves (by decide)⟩, by decide, by decide,
      by decide, by decide, by decide, Or.inl rfl⟩
    decide

theorem witness_UnwindInstructions :
    ((Instr.ret .t = .ret .t ∧ Kind.ret = .ret) ∧ (Instr.brk .t = .brk .t ∧ Kind.brk = .brk) ∧
      (Instr.cont .t = .cont .t ∧ Kind.cnt = .cnt)) ∧
    ¬ conditionKnown .ne (unwriting [.cc]).thread ∧
    (conditionKnown .f State.reset.thread ∧ ccTest .f State.reset.thread.cc = false) ∧
    (conditionKnown .t (atPc 0 [⟨.sync, 8⟩, ⟨.ret, 16⟩]).thread ∧
      ccTest .t (atPc 0 [⟨.sync, 8⟩, ⟨.ret, 16⟩]).thread.cc = true ∧
      (atPc 0 [⟨.sync, 8⟩, ⟨.ret, 16⟩]).thread.cs = [⟨.sync, 8⟩] ++ ⟨.ret, 16⟩ :: [] ∧
      ∀ x ∈ [(⟨.sync, 8⟩ : CsEntry)], x.kind ≠ .ret) ∧
    (∀ x ∈ (atPc 0 [⟨.sync, 8⟩]).thread.cs, x.kind ≠ .ret) :=
  ⟨⟨⟨rfl, rfl⟩, ⟨rfl, rfl⟩, rfl, rfl⟩, condition_known.2.2.2, ⟨Or.inr (Or.inl rfl), rfl⟩,
    ⟨Or.inl rfl, rfl, rfl, by decide⟩, by decide⟩

theorem witness_ExitEndsTheThread : ¬ conditionKnown .ne (unwriting [.cc]).thread ∧
    (conditionKnown .t State.reset.thread ∧ ccTest .t State.reset.thread.cc = true) ∧
    (conditionKnown .f State.reset.thread ∧ ccTest .f State.reset.thread.cc = false) :=
  ⟨condition_known.2.2.2, ⟨Or.inl rfl, rfl⟩, Or.inr (Or.inl rfl), rfl⟩

theorem witness_NopAndTheJoin : CCop.ne ≠ .t ∧ (∀ code, NopOp.fmul ≠ .noRow code) ∧
    (NopOp.fmul ≠ .none ∧ (1#16 ≠ 0#16)) ∧ (atPc 0 []).thread.cs = [] ∧
    ((atPc 0 [⟨.ret, 8⟩]).thread.cs = ⟨.ret, 8⟩ :: [] ∧ Kind.ret ≠ .sync) ∧
    (atPc 0 [⟨.sync, 8⟩]).thread.cs = ⟨.sync, 8⟩ :: [] :=
  ⟨by decide, fun _ h => (nomatch h), by decide, rfl, ⟨rfl, by decide⟩, rfl⟩

/-! ### Barriers, fence, order -/

/-- `BAR.RED.POPC RZ, 0x2` in a block of one, and `BAR.RED.POPC RZ, 0x2, 0x020` as the last of 32 arrivals. -/
theorem witness_BarRedArrives :
    (barRedReady .popc rz (.imm 2#6) countUnspecified ⟨false, pt⟩ pt 2 0 State.reset ∧
      State.reset.barriers[(2 : Fin 16)].expected = none) ∧
    (barRedReady .popc rz (.imm 2#6) (.imm 32#12) ⟨false, pt⟩ pt 2 32
        (withBarrier ⟨31, some 32, [⟨1, .popc, rz, pt⟩], [true], []⟩) ∧
      (withBarrier ⟨31, some 32, [⟨1, .popc, rz, pt⟩], [true], []⟩).barriers[(2 : Fin 16)].expected ≠ some 31 ∧
      (withBarrier ⟨31, some 32, [⟨1, .popc, rz, pt⟩], [true], []⟩).barriers[(2 : Fin 16)].expected = some 32 ∧
      ∀ w ∈ (withBarrier ⟨31, some 32, [⟨1, .popc, rz, pt⟩], [true], []⟩).barriers[(2 : Fin 16)].waiters,
        w.redop = .popc) := by
  unfold barRedReady
  decide

theorem witness_BarArvArrives :
    (barArvReady 0#6 (.imm 4#6) (.imm 32#12) 4 32 State.reset ∧ State.reset.barriers[(4 : Fin 16)].expected = none) ∧
    barArvReady rz (.reg 1#6) (.reg 0#6 0#6) 15 32 (withData [(0#6, 32#32), (1#6, 15#32)] []) := by
  unfold barArvReady
  decide

theorem witness_BarRedStops :
    (BarSrc.imm 16#6 = .imm 16#6 ∧ 15 < (16#6).toNat) ∧ (BarSrc.imm 15#6).encodable = true ∧
    ((RedOp.and ≠ .invalid ∧ RedOp.and ≠ .popc ∧ 0#6 ≠ rz) ∧ (0#3 ≠ pt)) ∧
    (CountSrc.reg 0#6 1#6).shown = false ∧
    ((missingBar (unwriting [.reg 7, .pred 1]).thread (.imm 2#6)).or
        (missingCount (unwriting [.reg 7, .pred 1]).thread (.reg 7#6 0#6))).or
      (missingPred (unwriting [.reg 7, .pred 1]).thread 1#3) = some (.reg 7) ∧
    ((missingBar (unwriting [.pred 1]).thread (.reg 7#6)).or
        (missingCount (unwriting [.pred 1]).thread (.reg 7#6 0#6))).or
      (missingPred (unwriting [.pred 1]).thread 1#3) = some (.pred 1) ∧
    (15 < (withData [(7#6, 16#32)] []).thread.barValue (.reg 7#6) ∧
      (withData [(7#6, 16#32)] []).thread.barReadable (.reg 7#6) = true) ∧
    (State.reset.thread.barValue (.imm 15#6) ≤ 15 ∧ State.reset.thread.countValue (.imm 33#12) ≠ 0 ∧
      State.reset.thread.countValue (.imm 33#12) % State.reset.params.warpSize ≠ 0) ∧
    (barRedReady .popc rz (.imm 2#6) (.imm 32#12) ⟨false, pt⟩ pt 2 32 (withBarrier ⟨1, some 64, [], [], [(1, 0)]⟩) ∧
      (withBarrier ⟨1, some 64, [], [], [(1, 0)]⟩).barriers[(2 : Fin 16)].expected ≠ some 1 ∧
      (withBarrier ⟨1, some 64, [], [], [(1, 0)]⟩).barriers[(2 : Fin 16)].expected = some 64 ∧ 64 ≠ 32) ∧
    (∃ w ∈ (withBarrier ⟨1, some 64, [⟨1, .and, rz, 0#3⟩], [true], []⟩).barriers[(2 : Fin 16)].waiters,
      w.redop ≠ .popc) := by
  unfold barRedReady
  decide

theorem witness_BarArvStops :
    (BarSrc.imm 16#6 = .imm 16#6 ∧ 15 < (16#6).toNat) ∧ RedOp.and ≠ .invalid ∧ (1#6 ≠ 0#6 ∧ 1#6 ≠ rz) ∧
    ((⟨true, pt⟩ : PredSrc) ≠ ⟨false, pt⟩ ∧ 0#3 ≠ pt) ∧ (CountSrc.reg 0#6 1#6).shown = false ∧
    (missingBar (unwriting [.reg 7, .reg 8]).thread (.reg 8#6)).or
      (missingCount (unwriting [.reg 7, .reg 8]).thread (.reg 7#6 0#6)) = some (.reg 8) ∧
    15 < (withData [(7#6, 16#32)] []).thread.barValue (.reg 7#6) ∧
    State.reset.thread.countValue (.imm 0#12) = 0 ∧
    State.reset.thread.countValue (.imm 33#12) % State.reset.params.warpSize ≠ 0 ∧
    (barArvReady 0#6 (.imm 2#6) (.imm 32#12) 2 32 (withBarrier ⟨1, some 64, [], [], [(1, 0)]⟩) ∧
      (withBarrier ⟨1, some 64, [], [], [(1, 0)]⟩).barriers[(2 : Fin 16)].expected = some 64 ∧ 64 ≠ 32 ∧
      (withBarrier ⟨1, some 64, [], [], [(1, 0)]⟩).barriers[(2 : Fin 16)].expected ≠ some 1) := by
  unfold barArvReady
  decide

theorem witness_HeldInstructionsChangeNothing :
    holds (barSync (.imm 2#6) countUnspecified) (withBarrier ⟨1, some 1, [], [], [(1, 0)]⟩) = true ∧
    barRedReady .popc rz (.imm 2#6) countUnspecified ⟨false, pt⟩ pt 2 0 (withBarrier ⟨1, some 1, [], [], [(1, 0)]⟩) ∧
    barArvReady 0#6 (.imm 2#6) (.imm 32#12) 2 32 (withBarrier ⟨1, some 1, [], [], [(1, 0)]⟩) ∧
    voteShown .all rz 0#28 ∧
    holds (votePred .all 0#3 ⟨false, 1#3⟩) (two { State.reset.thread with pc := 8 }) = true := by
  unfold barRedReady barArvReady voteShown
  decide

theorem witness_MembarRecordsAFence : Lvl.cta ≠ .invalid ∧ Lvl.gl ≠ .invalid ∧ Lvl.sys ≠ .invalid := by decide

/-- Two overlapping accesses of one thread; its disjoint accesses with and without a fence; an access before an
arrival and another thread's after the release. -/
theorem witness_MemoryOrderGuarantees :
    (0 < 1 ∧ (0 < 0 + 4 ∧ 0 < 0 + 4)) ∧
    (Event.fence 0 1 .gl ∈ [Event.access 0 1 8 4 0 1, .fence 0 1 .gl, .access 0 0 0 4 0 1] ∧
      fenceCovers .gl .launch = true ∧ fenceCovers .gl .outside = false ∧ 0 < 1 ∧ 1 ≤ 1) ∧
    (Event.release 2 [(0, 1), (1, 0)] [(1, 0)] ∈
        [Event.access 1 0 8 4 0 1, .release 2 [(0, 1), (1, 0)] [(1, 0)], .access 0 0 0 4 0 1] ∧
      (0, 1) ∈ [(0, 1), (1, 0)] ∧ 0 < 1 ∧ (1, 0) ∈ [(1, 0)] ∧ 0 ≤ 0) ∧
    guaranteed [Event.access 0 1 4 4 0 1, .access 0 0 0 4 0 1] .block (.access 0 0 0 4 0 1) (.access 0 1 4 4 0 1) =
      false := by decide

theorem witness_AccessMayStandWhereNotGuaranteed :
    (readingOld []).params.memModel = .relaxed ∧ (readingOld []).threadList[0]? = some (readingOld []).thread ∧
    (readingOld []).thread.status = .running ∧
    ((readingOld []).ready (.placed 0 3 0#64)).nextAccess = some ⟨0x10, .add, .u32, 0#64, 0#64⟩ := by decide

/-! ### Atomic accesses -/

theorem witness_EffectiveAddresses : (0x7FFFF#20).msb = false ∧ (0x80000#20).msb = true ∧
    State.reset.params.atomOffsetSigned = none ∧ (0x7FFFFFFF#32).msb = false ∧ (0x80000000#32).msb = true ∧
    State.reset.params.addrWidth ≤ 32 := by decide

/-- `ATOM.ADD RZ, [R1+0x10], R0`, and `ATOM.E.CAS.U64 R2, [R10], R4, R6`. -/
theorem witness_AtomPerformsItsAccess :
    (atomReady .add .u32 false rz 1#6 0x10#20 0#6 0#6 0x10#64 State.reset ∧
      effectiveAddress 32 (State.reset.thread.operandValue false 1#6) 0x10#64 % AtomType.bytes .u32 = 0 ∧
      allocated State.reset 0x10 4 ∧ State.reset.placing = none) ∧
    (atomReady .cas .u64 true 2#6 10#6 0#20 4#6 6#6 0#64 State.reset ∧
      effectiveAddress 64 (State.reset.thread.operandValue true 10#6) 0#64 % AtomType.bytes .u64 = 0 ∧
      allocated State.reset 0 8) := by
  unfold atomReady
  exact ⟨⟨by decide, by decide, ⟨⟨0, 2 ^ 64⟩, by decide, by decide, by decide⟩, rfl⟩,
    by decide, by decide, ⟨⟨0, 2 ^ 64⟩, by decide, by decide, by decide⟩⟩

theorem witness_RedPerformsItsAccess : redReady .add .u32 false 1#6 0x10#32 0#6 0x10#64 State.reset ∧
    effectiveAddress 32 (State.reset.thread.operandValue false 1#6) 0x10#64 % AtomType.bytes .u32 = 0 ∧
    allocated State.reset 0x10 4 ∧ State.reset.placing = none := by
  unfold redReady
  exact ⟨by decide, by decide, ⟨⟨0, 2 ^ 64⟩, by decide, by decide, by decide⟩, rfl⟩

/-- The same ATOM and RED placed. -/
theorem witness_PlacedAccessesStandInTheOrder :
    atomReady .add .u32 false rz 1#6 0x10#20 0#6 0#6 0x10#64 { State.reset with placing := some ⟨0, 7#64⟩ } ∧
      State.placing { State.reset with placing := some ⟨0, 7#64⟩ } = some ⟨0, 7#64⟩ ∧
      redReady .add .u32 false 1#6 0x10#32 0#6 0x10#64 { State.reset with placing := some ⟨0, 7#64⟩ } ∧
      effectiveAddress 32 (State.reset.thread.operandValue false 1#6) 0x10#64 % AtomType.bytes .u32 = 0 ∧
      allocated State.reset 0x10 4 := by
  unfold atomReady redReady
  exact ⟨by decide, rfl, by decide, by decide, ⟨⟨0, 2 ^ 64⟩, by decide, by decide, by decide⟩⟩

theorem witness_AtomStops :
    admittedPair .min .u64 = false ∧ (AtomOp.add ≠ .cas ∧ 1#6 ≠ 0#6 ∧ 1#6 ≠ rz) ∧
    (4#6).toNat ≠ (0#6).toNat + AtomType.bytes .u32 / 4 ∧
    (admittedPair .add .u64 = true ∧ reg4Ok .add .u64 6#6 0#6 = true) ∧
    ((0x80000#20).msb = true ∧ State.reset.params.atomOffsetSigned = none) ∧
    State.reset.atomOffset 0x7FFFF#20 = .ok 0x7FFFF#64 ∧ pairOk 62#6 = false ∧ pairOk 1#6 = false ∧
    (operandOk true 2#6 = true ∧ ((missingOperand (unwriting [.reg 3, .reg 7]).thread true 2#6).or
        (missingOperand (unwriting [.reg 3, .reg 7]).thread true 6#6)).or none = some (.reg 3)) ∧
    ((missingOperand (unwriting [.reg 1]).thread false 0#6).or (missingOperand (unwriting [.reg 1]).thread false rz)).or
      (missingOperand (unwriting [.reg 1]).thread false 1#6) = some (.reg 1) ∧
    (atomReady .add .u32 false 3#6 1#6 2#20 0#6 0#6 2#64 State.reset ∧
      effectiveAddress 32 (State.reset.thread.operandValue false 1#6) 2#64 % AtomType.bytes .u32 ≠ 0) ∧
    (atomReady .add .u32 false 3#6 1#6 4#20 0#6 0#6 4#64 (State.launch { smallLaunch with first := Premise.reset }) ∧
      ¬ allocated (State.launch { smallLaunch with first := Premise.reset }) 4 4) := by
  unfold atomReady
  refine ⟨by decide, by decide, by decide, by decide, by decide, by decide, by decide, by decide, by decide,
    by decide, by decide, by decide, ?_⟩
  rintro ⟨r, hr, -, h⟩
  have e : r = ⟨0, 4⟩ := List.mem_singleton.1 hr
  subst e
  exact absurd h (by decide)

theorem witness_RedStops :
    (admittedPair .max .u64 = false ∧ AtomOp.max ≠ .exch ∧ AtomOp.max ≠ .cas) ∧ admittedPair .add .u64 = true ∧
    ((0x80000000#32).msb = true ∧ State.reset.params.atomOffsetSigned = none) ∧
    State.reset.redOffset true 0x7FFFFFFF#32 = .ok 0x7FFFFFFF#64 ∧ pairOk 3#6 = false ∧
    (missingOperand (unwriting [.reg 3]).thread true 2#6).or (missingOperand (unwriting [.reg 3]).thread false 0#6) =
      some (.reg 3) ∧
    (redReady .add .u32 false 1#6 2#32 0#6 2#64 State.reset ∧
      effectiveAddress 32 (State.reset.thread.operandValue false 1#6) 2#64 % AtomType.bytes .u32 ≠ 0) ∧
    (redReady .add .u32 false 1#6 4#32 0#6 4#64 (State.launch { smallLaunch with first := Premise.reset }) ∧
      ¬ allocated (State.launch { smallLaunch with first := Premise.reset }) 4 4) := by
  unfold redReady
  refine ⟨by decide, by decide, by decide, by decide, by decide, by decide, by decide, by decide, ?_⟩
  rintro ⟨r, hr, -, h⟩
  have e : r = ⟨0, 4⟩ := List.mem_singleton.1 hr
  subst e
  exact absurd h (by decide)

/-- 1.0 + 2.0; the largest finite number plus the largest addend that does not round to an infinity; a tie. -/
theorem witness_FaddRoundsToNearestEven :
    (f32Exp 0x3F800000#32 ≠ 255 ∧ f32Exp 0x40000000#32 ≠ 255 ∧
      2 ^ 23 ≤ (f32Value 0x3F800000#32 + f32Value 0x40000000#32).natAbs) ∧
    (f32Value 0x7F7FFFFF#32 + f32Value 0x72FFFFFF#32).natAbs < (2 ^ 25 - 1) * 2 ^ 252 ∧
    (f32Value 0x7F7FFFFF#32 + f32Value 0x73000000#32).natAbs = (2 ^ 25 - 1) * 2 ^ 252 ∧
    ((f32Value 0x4B800000#32 + f32Value 0x3F800000#32 - f32Value 0x4B800000#32).natAbs =
        (f32Value 0x4B800000#32 + f32Value 0x3F800000#32 - f32Value 0x4B800001#32).natAbs ∧
      f32Value 0x4B800001#32 ≠ f32Value 0x4B800000#32) := by decide

theorem witness_FaddFlushesAndKeepsNaN :
    (0 < (f32Value 0x00800000#32 + f32Value 0x80800001#32).natAbs ∧
      (f32Value 0x00800000#32 + f32Value 0x80800001#32).natAbs < 2 ^ 23) ∧
    f32Value 0x3F800000#32 + f32Value 0xBF800000#32 = 0 ∧ f32IsNaN 0x7F800001#32 = true ∧
    (f32IsInf 0x7F800000#32 = true ∧ f32IsInf 0xFF800000#32 = true ∧ (0x7F800000#32).msb ≠ (0xFF800000#32).msb) ∧
    f32Exp 0x007FFFFF#32 = 0 := by decide

/-! ### VOTE -/

/-- A block whose threads all run at the stepping thread's `pc` has its group assembled. -/
theorem assembled_of {s : State} (h : ∀ t ∈ s.threadList, t.status = .running ∧ t.pc = s.thread.pc) :
    voteAssembled s := fun _ t hv => h t (List.mem_of_getElem? hv.1)

/-- Thread 1 of a block of two has `P1` unwritten. -/
def secondUnwritten : State := two { State.reset.thread with unwritten := [.pred 1] }

theorem witness_VoteCasts : voteShown .any 5#6 0#28 ∧ voteAssembled (two State.reset.thread) ∧
    (∀ j u, inVote (two State.reset.thread) j u → u.predReadable 1#3 = true) ∧
    (two State.reset.thread).thread.status = .running ∧ inVote (two State.reset.thread) 1 State.reset.thread ∧
    ¬ inVote (two { State.reset.thread with status := .exited }) 1 { State.reset.thread with status := .exited } := by
  have h : ∀ t ∈ (two State.reset.thread).threadList, t.predReadable 1#3 = true := by decide
  exact ⟨⟨by decide, by decide, rfl⟩, assembled_of (by decide), fun _ u hv => h u (List.mem_of_getElem? hv.1), rfl,
    ⟨rfl, by decide, by decide⟩, fun hv => hv.2.2 rfl⟩

theorem witness_VoteStops :
    (VoteMode.vtgR = .vtgR ∧ VoteMode.noRow 4#3 = .noRow 4#3 ∧ VoteMode.all ≠ .any ∧ 0#6 ≠ rz ∧ 1#28 ≠ 0#28) ∧
    (voteShown .any 5#6 0#28 ∧ voteAssembled (unwriting [.pred 1]) ∧
      (unwriting [.pred 1]).thread.predReadable 1#3 = false) ∧
    (voteAssembled secondUnwritten ∧ secondUnwritten.thread.predReadable 1#3 = true ∧
      inVote secondUnwritten 1 { State.reset.thread with unwritten := [.pred 1] } ∧
      Thread.predReadable { State.reset.thread with unwritten := [.pred 1] } 1#3 = false ∧
      ∀ j v, j < 1 → inVote secondUnwritten j v → v.predReadable 1#3 = true) := by
  refine ⟨by decide, ⟨⟨by decide, by decide, rfl⟩, assembled_of (by decide), by decide⟩, assembled_of (by decide),
    by decide, ⟨rfl, by decide, by decide⟩, by decide, fun j v hj hv => ?_⟩
  have e : j = 0 := by omega
  subst e
  have : State.reset.thread = v := Option.some.inj hv.1
  subst this
  decide

end Sys2Proof.Tests
end

section
/-!
PROOFS. What one step does to each thread, to the statuses and to the barriers, each said once over the cases of
`Moved` and `Effect`; and the invariants of the state that follow (`spec/10_state.md`).
-/

namespace Sys2Proof.Machine

open Sys2Proof Sys2Proof.Safety

/-- A step is what its choice does, in a state that is the same machine. -/
theorem step_same_moved {s t : State} (h : step s = .next t) : ∃ u c, SameMachine s u ∧ Moved u c t := by
  obtain ⟨c, rest, -, -, hm⟩ := step_moved h
  exact ⟨_, c, s.begin_same c rest, hm⟩

/-! ## One thread -/

/-- The thread keeps its `CC`, and nothing of it becomes unwritten. -/
structure Thread.Keeps (u v : Thread) : Prop where
  cc : v.cc = u.cc
  unwritten : ∀ x ∈ v.unwritten, x ∈ u.unwritten
  ccUnwritten : Source.cc ∈ u.unwritten → Source.cc ∈ v.unwritten

theorem Thread.keeps_of_eq {u v : Thread} (hc : v.cc = u.cc) (hw : v.unwritten = u.unwritten) : u.Keeps v :=
  ⟨hc, fun _ => hw ▸ id, hw ▸ id⟩

theorem Thread.Keeps.refl (u : Thread) : u.Keeps u := Thread.keeps_of_eq rfl rfl

theorem Thread.Keeps.trans {u v w : Thread} (h : u.Keeps v) (h' : v.Keeps w) : u.Keeps w :=
  ⟨h'.cc.trans h.cc, fun x hx => h.unwritten x (h'.unwritten x hx), fun hx => h'.ccUnwritten (h.ccUnwritten hx)⟩

theorem Thread.writeReg_keeps (t : Thread) (i : RegIdx) (v : Word) : t.Keeps (t.writeReg i v) :=
  ⟨t.writeReg_cc i v, fun _ => t.writeReg_unwritten_sub i v, (t.writeReg_cc_unwritten i v).2⟩

theorem Thread.writePred_keeps (t : Thread) (i : PredIdx) (v : Bool) : t.Keeps (t.writePred i v) :=
  ⟨t.writePred_cc i v, fun _ => t.writePred_unwritten_sub i v, (t.writePred_cc_unwritten i v).2⟩

theorem Thread.writeOperand_keeps (t : Thread) (wide : Bool) (i : RegIdx) (v : Wide) :
    t.Keeps (t.writeOperand wide i v) :=
  ⟨t.writeOperand_cc wide i v, fun _ => t.writeOperand_unwritten_sub wide i v, (t.writeOperand_cc_unwritten wide i v).2⟩

theorem Thread.voted_keeps (t : Thread) (p0 : PredIdx) (r : Bool) (reg0 : RegIdx) (ballot : Word) :
    t.Keeps (t.voted p0 r reg0 ballot) :=
  ((t.writePred_keeps p0 r).trans (Thread.writeReg_keeps _ reg0 ballot)).trans (Thread.keeps_of_eq rfl rfl)

@[simp] theorem Thread.voted_status (t : Thread) (p0 : PredIdx) (r : Bool) (reg0 : RegIdx) (ballot : Word) :
    (t.voted p0 r reg0 ballot).status = t.status := by simp [Thread.voted]

theorem Thread.released_keeps (t : Thread) (votes : List Bool) (w : Waiter) : t.Keeps (t.released votes w) := by
  unfold Thread.released
  cases w.redop with
  | popc => exact (t.writeReg_keeps w.reg0 _).trans (Thread.keeps_of_eq rfl rfl)
  | and => exact (t.writePred_keeps w.p _).trans (Thread.keeps_of_eq rfl rfl)
  | or => exact (t.writePred_keeps w.p _).trans (Thread.keeps_of_eq rfl rfl)
  | invalid => exact Thread.keeps_of_eq rfl rfl

/-- What a step makes of thread `i`, given the barriers before it: nothing, or the thread was running, or it was listed
as a waiter and is released. -/
inductive ThreadStep (bs : Vector Barrier 16) (i : Nat) (u : Thread) : Thread → Prop where
  | kept : ThreadStep bs i u u
  | ran {v : Thread} (hr : u.status = .running) (hk : u.Keeps v) : ThreadStep bs i u v
  | released (b : Fin 16) (w : Waiter) (hw : w ∈ bs[b].waiters) (hi : w.thread = i) :
      ThreadStep bs i u (u.released bs[b].votes w)

theorem ThreadStep.keeps {bs : Vector Barrier 16} {i : Nat} {u v : Thread} (h : ThreadStep bs i u v) : u.Keeps v := by
  cases h with
  | kept => exact .refl u
  | ran _ hk => exact hk
  | released b w => exact u.released_keeps _ w

/-- Where only the running thread that steps changed, every thread made such a step. -/
theorem threadStep_of_sides {s t : State} {i : Nat} {u : Thread} (hl : t.lower = s.lower) (hh : t.higher = s.higher)
    (hr : s.thread.status = .running) (hk : s.thread.Keeps t.thread)
    (hu : s.threadList[i]? = some u) : ∃ v, t.threadList[i]? = some v ∧ ThreadStep s.barriers i u v := by
  rw [State.threadList_of_sides hl hh]
  by_cases hi : i = s.index
  · subst hi
    rw [State.threadList_index] at hu
    cases hu
    exact ⟨t.thread, if_pos rfl, .ran hr hk⟩
  · exact ⟨u, by rw [if_neg hi, hu], .kept⟩

/-- Whoever takes part in an assembled vote is running. -/
theorem State.running_of_votes {s : State} (h : s.assembled = true) {i : Nat} {u : Thread}
    (hu : s.threadList[i]? = some u) (hv : s.votes i u = true) : u.status = .running :=
  (State.assembled_iff.1 h i u ⟨hu, by simpa [State.votes, Params.groupOf] using hv⟩).1

/-- What an instruction of a running thread makes of each thread. -/
theorem effect_thread {s t : State} {j : Instr} (he : Effect s j t) (hr : s.thread.status = .running) {i : Nat}
    {u : Thread} (hu : s.threadList[i]? = some u) :
    ∃ v, t.threadList[i]? = some v ∧ ThreadStep s.barriers i u v := by
  cases he with
  | held => exact ⟨u, hu, .kept⟩
  | control v h => exact threadStep_of_sides rfl rfl hr (Thread.keeps_of_eq h.cc h.unwritten) hu
  | fence => exact threadStep_of_sides rfl rfl hr (Thread.keeps_of_eq rfl rfl) hu
  | join => exact threadStep_of_sides rfl rfl hr (Thread.keeps_of_eq rfl rfl) hu
  | arrive => exact threadStep_of_sides rfl rfl hr (Thread.keeps_of_eq rfl rfl) hu
  | atom _ x reg3 =>
    rw [State.atomAccess_eq]
    exact threadStep_of_sides rfl rfl hr
      ((s.thread.writeOperand_keeps _ reg3 _).trans (Thread.keeps_of_eq rfl rfl)) hu
  | red _ x =>
    rw [State.redAccess_eq]
    exact threadStep_of_sides rfl rfl hr (Thread.keeps_of_eq rfl rfl) hu
  | castVote _ mode reg0 p1 p0 ha =>
    rw [State.castVote_threadList, hu]
    refine ⟨_, rfl, ?_⟩
    beta_reduce
    split
    · next hv => exact .ran (State.running_of_votes ha hu hv) (u.voted_keeps _ _ _ _)
    · exact .kept
  | stopVoter _ k v w e ha hv =>
    rw [State.stopVoter_threadList, hu]
    refine ⟨_, rfl, ?_⟩
    beta_reduce
    split
    · next hi =>
      subst hi
      have hv' := State.mem_voters.1 hv
      cases hu.symm.trans hv'.1
      exact .ran (State.assembled_iff.1 ha i u hv').1 (Thread.keeps_of_eq rfl rfl)
    · exact .kept

/-- What a choice makes of each thread. -/
theorem moved_thread {s t : State} {c : Choice} (hm : Moved s c t) {i : Nat} {u : Thread}
    (hu : s.threadList[i]? = some u) : ∃ v, t.threadList[i]? = some v ∧ ThreadStep s.barriers i u v := by
  cases hm with
  | stop _ hr w e => exact threadStep_of_sides rfl rfl hr (Thread.keeps_of_eq rfl rfl) hu
  | instr _ hr _ _ _ _ _ _ he => exact effect_thread he hr hu
  | @release b _ =>
    rw [State.releaseBarrier_threadList, hu]
    refine ⟨_, rfl, ?_⟩
    obtain ⟨w, hw, hi, e⟩ | ⟨-, e⟩ := s.barriers[b].releaseThread_cases i u
    · rw [e]; exact .released b w hw hi
    · rw [e]; exact .kept

/-- What a step makes of each thread. -/
theorem step_thread {s t : State} (h : step s = .next t) {i : Nat} {u : Thread} (hu : s.threadList[i]? = some u) :
    ∃ v, t.threadList[i]? = some v ∧ ThreadStep s.barriers i u v := by
  obtain ⟨s', c, hs, hm⟩ := step_same_moved h
  rw [← hs.threads] at hu
  rw [← hs.barriers]
  exact moved_thread hm hu

/-- Settles O20: a step changes a thread only if it runs or is released, and who is released waits. -/
theorem stoppedThreadsNeverChange : Obligations.StoppedThreadsNeverChange := by
  intro s t hw h i u hu hs
  obtain ⟨v, hv, hstep⟩ := step_thread h hu
  cases hstep with
  | kept => exact hv
  | ran hr => rw [hr] at hs; cases hs
  | released b w hm hi =>
    obtain ⟨u', hu', hst⟩ := ((hw b).2 i).1 ⟨w, hm, hi⟩
    cases hu.symm.trans hu'
    rw [hst] at hs
    cases hs

/-- Settles O23: whatever a step makes of a thread keeps its `CC` and what is written. -/
theorem stepKeepsConditionCodes : Obligations.StepKeepsConditionCodes := by
  intro s t h i u v hu hv
  obtain ⟨v', hv', hstep⟩ := step_thread h hu
  cases hv.symm.trans hv'
  exact ⟨hstep.keeps.cc, hstep.keeps.unwritten, hstep.keeps.ccUnwritten⟩

/-! ## The statuses -/

/-- The status of thread `i`. -/
def State.statusAt (s : State) (i : Nat) : Option Status := s.threadList[i]?.map Thread.status

theorem State.statusAt_eq_some {s : State} {i : Nat} {st : Status} :
    s.statusAt i = some st ↔ ∃ t, s.threadList[i]? = some t ∧ t.status = st := Option.map_eq_some_iff

/-- The indices of the threads that a barrier lists as waiting. -/
def Barrier.waiting (x : Barrier) : List Nat := x.waiters.map Waiter.thread

theorem Barrier.mem_waiting {x : Barrier} {i : Nat} : i ∈ x.waiting ↔ ∃ w ∈ x.waiters, w.thread = i := List.mem_map

theorem waitersWait_iff {s : State} : waitersWait s ↔
    ∀ b : Fin 16, s.barriers[b].waiting.Nodup ∧
      ∀ i, i ∈ s.barriers[b].waiting ↔ s.statusAt i = some (.waiting b) := by
  simp only [waitersWait, Barrier.mem_waiting, State.statusAt_eq_some]
  rfl

theorem recordAgrees_iff {s : State} : recordAgrees s ↔
    ∀ (i : Nat) (e : Stop), s.statusAt i = some e.status ↔ ∃ r ∈ s.record, r.thread = i ∧ r.stop = e := by
  simp only [recordAgrees, State.statusAt_eq_some]

theorem Stop.status_inj {e f : Stop} : e.status = f.status ↔ e = f := by
  cases e <;> cases f <;> simp [Stop.status]

theorem Stop.status_ne_waiting (e : Stop) (b : Fin 16) : e.status ≠ .waiting b := by
  cases e <;> simp [Stop.status]

theorem Stop.status_ne_running (e : Stop) : e.status ≠ .running := by
  cases e <;> simp [Stop.status]

theorem Stop.status_ne_exited (e : Stop) : e.status ≠ .exited := by
  cases e <;> simp [Stop.status]

/-- What a step does to the statuses, the lists of waiters and the fault record. -/
inductive StatusMove (s t : State) : Prop where
  /-- A running thread goes on or exits. -/
  | goes (k : Nat) (st : Status) (hk : s.statusAt k = some .running) (hst : st = .running ∨ st = .exited)
      (hs : ∀ i, t.statusAt i = if i = k then some st else s.statusAt i)
      (hb : ∀ b : Fin 16, t.barriers[b].waiting = s.barriers[b].waiting) (hr : t.record = s.record)
  /-- A running thread stops, and this is recorded. -/
  | stops (r : FaultRecord) (hk : s.statusAt r.thread = some .running)
      (hs : ∀ i, t.statusAt i = if i = r.thread then some r.stop.status else s.statusAt i)
      (hb : ∀ b : Fin 16, t.barriers[b].waiting = s.barriers[b].waiting) (hr : t.record = r :: s.record)
  /-- A running thread waits and is listed. -/
  | waits (k : Nat) (b : Fin 16) (hk : s.statusAt k = some .running)
      (hs : ∀ i, t.statusAt i = if i = k then some (.waiting b) else s.statusAt i)
      (hb : ∀ c : Fin 16, t.barriers[c].waiting =
        if b = c then s.barriers[b].waiting ++ [k] else s.barriers[c].waiting)
      (hr : t.record = s.record)
  /-- The listed waiters of a barrier run. -/
  | releases (b : Fin 16)
      (hs : ∀ i, t.statusAt i =
        if i ∈ s.barriers[b].waiting then (s.statusAt i).map (fun _ => .running) else s.statusAt i)
      (hb : ∀ c : Fin 16, t.barriers[c].waiting = if b = c then [] else s.barriers[c].waiting)
      (hr : t.record = s.record)

theorem State.statusAt_index (s : State) : s.statusAt s.index = some s.thread.status := by
  rw [State.statusAt, State.threadList_index]; rfl

/-- Where only the thread that steps changed, so did only its status. -/
theorem State.statusAt_of_sides {s t : State} (hl : t.lower = s.lower) (hh : t.higher = s.higher) (i : Nat) :
    t.statusAt i = if i = s.index then some t.thread.status else s.statusAt i := by
  rw [State.statusAt, State.threadList_of_sides hl hh]
  split <;> rfl

/-- Where no status changed, the running thread that steps goes on. -/
theorem StatusMove.of_same {s t : State} (hr : s.thread.status = .running) (hs : ∀ i, t.statusAt i = s.statusAt i)
    (hb : t.barriers = s.barriers) (hrec : t.record = s.record) : StatusMove s t := by
  have hk : s.statusAt s.index = some .running := hr ▸ s.statusAt_index
  refine .goes s.index .running hk (.inl rfl) (fun i => ?_) (fun b => by rw [hb]) hrec
  rw [hs]
  split
  · next h => rw [h, hk]
  · rfl

theorem effect_status {s t : State} {j : Instr} (he : Effect s j t) (hr : s.thread.status = .running) :
    StatusMove s t := by
  have hk : s.statusAt s.index = some .running := hr ▸ s.statusAt_index
  cases he with
  | held => exact .of_same hr (fun _ => rfl) rfl rfl
  | control v h => exact .goes s.index v.status hk (hr ▸ h.status) (State.statusAt_of_sides rfl rfl) (fun _ => rfl) rfl
  | fence =>
    exact .goes s.index s.thread.status hk (.inl hr) (State.statusAt_of_sides rfl rfl) (fun _ => rfl) rfl
  | join _ b n w vote _ _ _ hw =>
    refine .waits s.index b hk (State.statusAt_of_sides rfl rfl) (fun c => ?_) rfl
    simp only [State.setBarrier_barriers, barriers_set_get]
    split
    · simp [Barrier.waiting, Barrier.join, hw]
    · rfl
  | arrive _ b n =>
    refine .goes s.index s.thread.status hk (.inl hr) (State.statusAt_of_sides rfl rfl) (fun c => ?_) rfl
    simp only [State.advance_barriers, State.setBarrier_barriers, barriers_set_get]
    split
    · next h => subst h; rfl
    · rfl
  | atom _ x reg3 =>
    rw [State.atomAccess_eq]
    exact .goes s.index _ hk (.inl ((s.thread.writeOperand_status _ reg3 _).trans hr)) (State.statusAt_of_sides rfl rfl)
      (fun _ => rfl) rfl
  | red _ x =>
    exact .goes s.index s.thread.status hk (.inl hr) (State.statusAt_of_sides rfl rfl) (fun _ => rfl) rfl
  | castVote _ mode reg0 p1 p0 =>
    refine .of_same hr (fun i => ?_) rfl rfl
    rw [State.statusAt, State.statusAt, State.castVote_threadList, Option.map_map]
    refine congrArg (Option.map · _) (funext fun u => ?_)
    simp only [Function.comp_apply]
    split
    · exact u.voted_status _ _ _ _
    · rfl
  | stopVoter _ k v w e ha hv =>
    have hl := (State.mem_voters.1 hv).1
    refine .stops ⟨k, v.pc, some w, e⟩ (State.statusAt_eq_some.2 ⟨v, hl, (State.assembled_iff.1 ha k v
      (State.mem_voters.1 hv)).1⟩) (fun i => ?_) (fun _ => rfl) rfl
    rw [State.statusAt, State.stopVoter_threadList]
    by_cases hi : i = k
    · subst hi; simp [hl]
    · simp [hi, State.statusAt]

theorem moved_status {s t : State} {c : Choice} (hm : Moved s c t) : StatusMove s t := by
  cases hm with
  | stop _ hr w e =>
    exact .stops ⟨s.index, s.thread.pc, w, e⟩ (hr ▸ s.statusAt_index) (State.statusAt_of_sides rfl rfl) (fun _ => rfl)
      rfl
  | instr _ hr _ _ _ _ _ _ he => exact effect_status he hr
  | @release b _ =>
    refine .releases b (fun i => ?_) (fun c => ?_) rfl
    · rw [State.statusAt, State.statusAt, State.releaseBarrier_threadList]
      cases s.threadList[i]? with
      | none => simp
      | some u =>
        obtain ⟨w, hw, hi, e⟩ | ⟨hn, e⟩ := s.barriers[b].releaseThread_cases i u
        · rw [if_pos (Barrier.mem_waiting.2 ⟨w, hw, hi⟩)]
          exact congrArg (some <| Thread.status ·) e
        · rw [if_neg (fun h => by obtain ⟨w, hw, hi⟩ := Barrier.mem_waiting.1 h; exact hn w hw hi)]
          exact congrArg (some <| Thread.status ·) e
    · simp only [State.releaseBarrier_barriers, barriers_set_get]
      split <;> rfl

/-! ## The waiters -/

theorem StatusMove.keepsWaiters {s t : State} (hm : StatusMove s t) (h : waitersWait s) : waitersWait t := by
  rw [waitersWait_iff] at *
  intro c
  have hn := (h c).1
  have hc := (h c).2
  cases hm with
  | goes k st hk hst hs hb _ =>
    refine ⟨hb c ▸ hn, fun i => ?_⟩
    rw [hb, hs, hc]
    split
    · next hi => subst hi; rcases hst with rfl | rfl <;> simp [hk]
    · rfl
  | stops r hk hs hb _ =>
    refine ⟨hb c ▸ hn, fun i => ?_⟩
    rw [hb, hs, hc]
    split
    · next hi => subst hi; simp [hk, r.stop.status_ne_waiting]
    · rfl
  | waits k b hk hs hb _ =>
    have hkc : k ∉ s.barriers[c].waiting := by rw [hc, hk]; simp
    rw [hb]
    by_cases hbc : b = c
    · subst hbc
      rw [if_pos rfl]
      refine ⟨List.nodup_append.2 ⟨hn, by simp, by rintro i hi _ hj rfl; simp at hj; exact hkc (hj ▸ hi)⟩, fun i => ?_⟩
      rw [List.mem_append, List.mem_singleton, hs, hc]
      split
      · next hi => simp [hi]
      · next hi => simp [hi]
    · rw [if_neg hbc]
      refine ⟨hn, fun i => ?_⟩
      rw [hs, hc]
      split
      · next hi => subst hi; simp [hk, hbc]
      · rfl
  | releases b hs hb _ =>
    rw [hb]
    by_cases hbc : b = c
    · subst hbc
      rw [if_pos rfl]
      refine ⟨List.nodup_nil, fun i => ?_⟩
      rw [hs]
      split
      · simp
      · next hi => exact iff_of_false List.not_mem_nil (fun h => hi ((hc i).2 h))
    · rw [if_neg hbc]
      refine ⟨hn, fun i => ?_⟩
      rw [hs, hc]
      split
      · next hi => simp [((h b).2 i).1 hi, hbc]
      · rfl

theorem waitersWait_of_same {s u : State} (h : SameMachine s u) (hs : waitersWait s) : waitersWait u := by
  unfold Safety.waitersWait at *
  rw [h.threads, h.barriers]
  exact hs

/-- Settles O18, by what a step does to the statuses and the lists of waiters. -/
theorem stepKeepsWaiters : Obligations.StepKeepsWaiters := by
  intro s t hw h
  obtain ⟨u, c, hu, hm⟩ := step_same_moved h
  exact (moved_status hm).keepsWaiters (waitersWait_of_same hu hw)

/-! ## The fault record -/

/-- A release keeps the record in agreement, since whoever it lets run was waiting. -/
theorem StatusMove.keepsRecord {s t : State} (hm : StatusMove s t) (hw : waitersWait s) (h : recordAgrees s) :
    recordAgrees t := by
  rw [waitersWait_iff] at hw
  rw [recordAgrees_iff] at *
  intro i e
  have hi := h i e
  cases hm with
  | goes k st hk hst hs _ hr =>
    rw [hr, ← hi, hs]
    split
    · next hik =>
      subst hik
      rcases hst with rfl | rfl <;> simp [hk, e.status_ne_running.symm, e.status_ne_exited.symm]
    · rfl
  | stops r hk hs _ hr =>
    rw [hr, hs]
    simp only [List.mem_cons, exists_eq_or_imp, ← hi]
    split
    · next hik =>
      subst hik
      simp [hk, Stop.status_inj, e.status_ne_running.symm]
    · next hik => simp [Ne.symm hik]
  | waits k b hk hs _ hr =>
    rw [hr, ← hi, hs]
    split
    · next hik => subst hik; simp [hk, (e.status_ne_waiting b).symm, e.status_ne_running.symm]
    · rfl
  | releases b hs _ hr =>
    rw [hr, ← hi, hs]
    split
    · next hib => simp [((hw b).2 i).1 hib, (e.status_ne_waiting b).symm, e.status_ne_running.symm]
    · rfl

theorem recordAgrees_of_same {s u : State} (h : SameMachine s u) (hs : recordAgrees s) : recordAgrees u := by
  unfold Safety.recordAgrees at *
  rw [h.threads, h.record]
  exact hs

/-- Settles O21, by what a step does to the statuses and the record. -/
theorem stepKeepsRecord : Obligations.StepKeepsRecord := by
  intro s t hw hr h
  obtain ⟨u, c, hu, hm⟩ := step_same_moved h
  exact (moved_status hm).keepsRecord (waitersWait_of_same hu hw) (recordAgrees_of_same hu hr)

/-! ## The counts of a barrier -/

theorem barrierCounts_idle : barrierCounts Barrier.idle := ⟨rfl, Nat.le_refl _, rfl, rfl⟩

/-- While no release is pending, one more arrival with the agreed count does not exceed it. -/
theorem Barrier.arrived_lt_of_agrees {x : Barrier} {n : Nat} (h : barrierCounts x) (hp : x.pending = false)
    (ha : x.agrees n = true) (hn : 0 < n) : x.arrived < n := by
  obtain ⟨-, -, -, hx⟩ := h
  unfold Barrier.agrees at ha
  unfold Barrier.pending at hp
  cases he : x.expected with
  | none => rw [he] at hx; simp only at hx; omega
  | some m =>
    simp only [he, beq_iff_eq] at hx ha
    simp only [he, beq_eq_false_iff_ne, ne_eq, Option.some.injEq] at hp
    omega

theorem barrierCounts_arrive {x : Barrier} {n : Nat} (who : Nat × Nat) (h : barrierCounts x) (hp : x.pending = false)
    (ha : x.agrees n = true) (hn : 0 < n) : barrierCounts (x.arrive n who) := by
  have hlt := Barrier.arrived_lt_of_agrees h hp ha hn
  obtain ⟨hv, hw, hl, -⟩ := h
  exact ⟨hv, Nat.le_succ_of_le hw, by simp [Barrier.arrive, hl], Nat.succ_pos _, hlt⟩

theorem barrierCounts_join {x : Barrier} {n : Nat} (who : Nat × Nat) (w : Waiter) (vote : Bool) (h : barrierCounts x)
    (hp : x.pending = false) (ha : x.agrees n = true) (hn : 0 < n) : barrierCounts (x.join n who w vote) := by
  have hlt := Barrier.arrived_lt_of_agrees h hp ha hn
  obtain ⟨hv, hw, hl, -⟩ := h
  exact ⟨by simp [Barrier.join, hv], by simp [Barrier.join, hw], by simp [Barrier.join, hl], Nat.succ_pos _, hlt⟩

/-- Setting one barrier to one whose counts agree keeps all in agreement. -/
theorem countsAgree_set {s t : State} {b : Fin 16} {x : Barrier} (h : countsAgree s) (hx : barrierCounts x)
    (ht : t.barriers = s.barriers.set b.val x) : countsAgree t := by
  intro c
  rw [ht, barriers_set_get]
  split
  · exact hx
  · exact h c

theorem countsAgree_congr {s t : State} (h : t.barriers = s.barriers) (hs : countsAgree s) : countsAgree t := by
  unfold countsAgree
  rw [h]
  exact hs

theorem effect_countsAgree {s t : State} {j : Instr} (he : Effect s j t) (h : countsAgree s) : countsAgree t := by
  cases he with
  | join _ b n w vote hp ha hn => exact countsAgree_set h (barrierCounts_join _ w vote (h b) hp ha hn) rfl
  | arrive _ b n hp ha hn => exact countsAgree_set h (barrierCounts_arrive _ (h b) hp ha hn) rfl
  | _ => exact countsAgree_congr rfl h

theorem moved_countsAgree {s t : State} {c : Choice} (hm : Moved s c t) (h : countsAgree s) : countsAgree t := by
  cases hm with
  | stop => exact countsAgree_congr rfl h
  | instr _ _ _ _ _ _ _ _ he => exact effect_countsAgree he h
  | release => exact countsAgree_set h barrierCounts_idle rfl

/-- Settles O19: only an arrival and a release change a barrier, and both keep its counts in agreement. -/
theorem stepKeepsBarrierCounts : Obligations.StepKeepsBarrierCounts := by
  intro s t hc h
  obtain ⟨u, c, hu, hm⟩ := step_same_moved h
  exact moved_countsAgree hm (countsAgree_congr hu.barriers hc)

end Sys2Proof.Machine
end

section
/-!
PROOFS. What one step does to the launch, the memory and the history, what one instruction may write, and which step
comes next (`spec/10_state.md` rules R20 to R23, R27, R36, R38; `spec/60_exceptions.md` rule R180).
-/

namespace Sys2Proof.Machine

open Sys2Proof Sys2Proof.Safety

/-! ## What an instruction leaves unchanged -/

@[simp] theorem Thread.voted_cs (t : Thread) (p0 : PredIdx) (r : Bool) (reg0 : RegIdx) (ballot : Word) :
    (t.voted p0 r reg0 ballot).cs = t.cs := by simp [Thread.voted]

@[simp] theorem Thread.voted_place (t : Thread) (p0 : PredIdx) (r : Bool) (reg0 : RegIdx) (ballot : Word) :
    (t.voted p0 r reg0 ballot).place = t.place := by simp [Thread.voted]

/-- A vote leaves the control stack and the place of every thread. -/
theorem State.castVote_thread_frame (s : State) (mode : VoteMode) (reg0 : RegIdx) (p1 : PredSrc) (p0 : PredIdx) :
    (s.castVote mode reg0 p1 p0).thread.cs = s.thread.cs ∧
      (s.castVote mode reg0 p1 p0).thread.place = s.thread.place := by
  simp only [State.castVote, State.mapThreads_thread]
  split
  · exact ⟨Thread.voted_cs .., Thread.voted_place ..⟩
  · exact ⟨rfl, rfl⟩

/-- Stopping a voter leaves the control stack and the place of every thread. -/
theorem State.stopVoter_thread_frame (s : State) (k : Nat) (pc : CodeAddr) (w : InstrWord) (e : Stop) :
    (s.stopVoter k pc w e).thread.cs = s.thread.cs ∧ (s.stopVoter k pc w e).thread.place = s.thread.place := by
  simp only [State.stopVoter, State.addRecord_thread, State.mapThreads_thread]
  split <;> exact ⟨rfl, rfl⟩

section
variable {s t : State} {i : Instr}

/-- An instruction leaves what the launch fixed, the schedule and the count of steps. -/
theorem effect_launch (he : Effect s i t) :
    t.params = s.params ∧ t.code = s.code ∧ t.schedule = s.schedule ∧ t.tick = s.tick := by
  cases he <;> exact ⟨rfl, rfl, rfl, rfl⟩

/-- Only VOTE touches other threads, writes predicates or adds to the record. -/
theorem effect_of_not_vote (he : Effect s i t) (hi : i.row ≠ .vote) :
    (t.lower = s.lower ∧ t.higher = s.higher ∧ t.thread.preds = s.thread.preds) ∧ t.record = s.record := by
  cases he with
  | control v hv => exact ⟨⟨rfl, rfl, hv.preds⟩, rfl⟩
  | atom _ x reg3 => rw [State.atomAccess_eq]; exact ⟨⟨rfl, rfl, Thread.writeOperand_preds ..⟩, rfl⟩
  | castVote hr => exact absurd hr hi
  | stopVoter hr => exact absurd hr hi
  | _ => exact ⟨⟨rfl, rfl, rfl⟩, rfl⟩

/-- Only VOTE and ATOM write registers. -/
theorem effect_regs (he : Effect s i t) (hv : i.row ≠ .vote) (ha : i.row ≠ .atom) :
    t.thread.regs = s.thread.regs ∧ t.thread.unwritten = s.thread.unwritten := by
  cases he with
  | control v hv => exact ⟨hv.regs, hv.unwritten⟩
  | atom hr => exact absurd hr ha
  | castVote hr => exact absurd hr hv
  | stopVoter hr => exact absurd hr hv
  | _ => exact ⟨rfl, rfl⟩

/-- Only the execution control instructions touch the control stack. -/
theorem effect_cs (he : Effect s i t)
    (hi : i.row = .bar ∨ i.row = .membar ∨ i.row = .atom ∨ i.row = .red ∨ i.row = .vote) :
    t.thread.cs = s.thread.cs := by
  cases he with
  | control v hv hr => obtain ⟨h1, h2, h3, h4, h5⟩ := hr; simp [h1, h2, h3, h4, h5] at hi
  | atom _ x reg3 => rw [State.atomAccess_eq]; exact Thread.writeOperand_cs ..
  | castVote => exact (s.castVote_thread_frame ..).1
  | stopVoter => exact (s.stopVoter_thread_frame ..).1
  | _ => rfl

/-- Only BAR touches barriers. -/
theorem effect_barriers (he : Effect s i t) (hi : i.row ≠ .bar) : t.barriers = s.barriers := by
  cases he with
  | join hr => exact absurd hr hi
  | arrive hr => exact absurd hr hi
  | _ => rfl

/-- An instruction leaves `GMem` and its thread's count of accesses, or it is an ATOM or RED and makes one access. -/
theorem effect_memory (he : Effect s i t) : (t.gmem = s.gmem ∧ t.thread.place = s.thread.place) ∨
    ((i.row = .atom ∨ i.row = .red) ∧ ∃ x, t.gmem = (s.access x).2.gmem ∧ t.history = (s.access x).2.history) := by
  cases he with
  | control v hv => exact .inl ⟨rfl, hv.place⟩
  | atom hr x reg3 => exact .inr ⟨.inl hr, x, rfl, rfl⟩
  | red hr x => exact .inr ⟨.inr hr, x, rfl, rfl⟩
  | castVote => exact .inl ⟨rfl, (s.castVote_thread_frame ..).2⟩
  | stopVoter => exact .inl ⟨rfl, (s.stopVoter_thread_frame ..).2⟩
  | _ => exact .inl ⟨rfl, rfl⟩

/-- An instruction records at most one event. -/
theorem effect_history (he : Effect s i t) :
    t.history = s.history ∨ ∃ k e, t.history = insertEvent k e s.history := by
  cases he with
  | fence => exact .inr ⟨0, _, rfl⟩
  | atom => exact .inr ⟨s.later, _, rfl⟩
  | red => exact .inr ⟨s.later, _, rfl⟩
  | _ => exact .inl rfl

end

/-- Settles O25, by what each effect of `exec` leaves unchanged. -/
theorem instructionsWriteOnlyTheirState : Obligations.InstructionsWriteOnlyTheirState := by
  intro i s t h
  have he := exec_effect h
  refine ⟨fun hv => (effect_of_not_vote he hv).1, effect_regs he, effect_cs he, effect_barriers he,
    fun hv => (effect_of_not_vote he hv).2, fun ha hr => ?_, effect_launch he⟩
  obtain h | ⟨h, -⟩ := effect_memory he
  · exact h
  · exact absurd h (not_or.2 ⟨ha, hr⟩)

/-! ## The launch -/

theorem moved_launch {s t : State} {c : Choice} (hm : Moved s c t) : t.params = s.params ∧ t.code = s.code := by
  cases hm with
  | stop => exact ⟨rfl, rfl⟩
  | instr _ _ _ _ _ _ _ _ he => exact ⟨(effect_launch he).1, (effect_launch he).2.1⟩
  | release => exact ⟨rfl, rfl⟩

/-- As many threads stand before and after the one that steps as did. -/
theorem moved_blockSize {s t : State} {c : Choice} (hm : Moved s c t) : t.blockSize = s.blockSize := by
  have hsize : ∀ u : State, u.lower.length = s.lower.length → u.higher.length = s.higher.length →
      u.blockSize = s.blockSize := fun u hl hh => by simp [State.blockSize, State.threadList, hl, hh]
  cases hm with
  | stop => exact hsize _ rfl rfl
  | instr _ _ _ _ _ _ _ _ he =>
    cases he with
    | castVote => exact hsize _ (by simp [State.castVote]) (by simp [State.castVote])
    | stopVoter => exact hsize _ (by simp [State.stopVoter]) (by simp [State.stopVoter])
    | _ => exact hsize _ rfl rfl
  | release => exact hsize _ (by simp) (by simp)

/-- Settles O17: neither a stop, an instruction nor a release changes what the launch fixed. -/
theorem stepKeepsTheLaunch : Obligations.StepKeepsTheLaunch := by
  intro s t h
  obtain ⟨u, c, hu, hm⟩ := step_same_moved h
  obtain ⟨hp, hc⟩ := moved_launch hm
  refine ⟨hp.trans hu.params, hc.trans hu.code, (moved_blockSize hm).trans ?_⟩
  rw [State.blockSize, State.blockSize, hu.threads]

/-! ## The memory and the history -/

/-- An access changes `GMem` only in its bytes. -/
theorem State.access_gmem_outside (s : State) (x : Access) {y : Nat} (h : y < x.addr ∨ x.addr + x.bytes ≤ y) :
    Memory.readByte (s.access x).2.gmem y = Memory.readByte s.gmem y := by
  rw [State.access_gmem, Memory.readByte_writeUnder, if_neg (by omega)]

theorem moved_history {s t : State} {c : Choice} (hm : Moved s c t) :
    t.history = s.history ∨ ∃ k e, t.history = insertEvent k e s.history := by
  cases hm with
  | stop => exact .inl rfl
  | instr _ _ _ _ _ _ _ _ he => exact effect_history he
  | release => exact .inr ⟨0, _, rfl⟩

/-- Settles O24: only the access of an ATOM or RED writes `GMem`, and it records its event. -/
theorem memoryChangesByOneAtomicEvent : Obligations.MemoryChangesByOneAtomicEvent := by
  refine ⟨fun s t h => ?_, fun s t h hg => ?_⟩
  · obtain ⟨u, c, hu, hm⟩ := step_same_moved h
    rw [← hu.history]
    exact moved_history hm
  · obtain ⟨c, rest, hn, -, hm⟩ := step_moved h
    have hsame := s.begin_same c rest
    rw [← hsame.gmem] at hg ⊢
    rw [← hsame.history]
    cases hm with
    | stop => exact absurd rfl hg
    | release => exact absurd rfl hg
    | instr hc hr w i _ hf hd _ he =>
      obtain ⟨h, -⟩ | ⟨hrow, x, hx, hh⟩ := effect_memory he
      · exact absurd h hg
      · refine ⟨_, w, i, _, x.addr, x.bytes, _, _, threadMoves_of_acts hn hc, hr, hf, hd, hrow, hh, fun y hy => ?_⟩
        rw [hx]
        exact State.access_gmem_outside _ x hy

/-! ## A thread's step -/

theorem codeBytes_length {code : List Host.Cell} {a n : Nat} {bs : List Byte} (h : codeBytes code a n = some bs) :
    bs.length = n := by
  induction n generalizing a bs with
  | zero => cases h; rfl
  | succ n ih =>
    unfold codeBytes at h
    split at h
    · next hbs => cases h; rw [List.length_cons, ih hbs]
    · cases h

theorem codeBytes_eq_none {code : List Host.Cell} {a n k : Nat} (hk : k < n) (h : cellsLookup (a + k) code = none) :
    codeBytes code a n = none := by
  induction n generalizing a k with
  | zero => omega
  | succ n ih =>
    unfold codeBytes
    cases k with
    | zero => rw [Nat.add_zero] at h; rw [h]
    | succ k =>
      rw [ih (a := a + 1) (k := k) (by omega) (by rwa [Nat.add_assoc, Nat.add_comm 1])]
      cases cellsLookup a code <;> rfl

/-- Eight bytes decode as the word they spell. -/
theorem decode_of_decodeBytes {bs rest : List Byte} {i : Instr} (hl : bs.length = 8)
    (h : decodeBytes bs = some (.ok (i, rest))) : decode (wordOfBytes bs) = .ok i := by
  unfold decodeBytes at h
  rw [if_neg (by omega), List.take_of_length_le (by omega)] at h
  split at h
  · next j hj => cases h; exact hj
  · cases h

/-- A good `pc` with its eight bytes fetches their word. -/
theorem State.fetch_of_bytes {s : State} {bs : List Byte} (hp : s.params.fetchable s.thread.pc = true)
    (hb : codeBytes s.code s.thread.pc.toNat 8 = some bs) : s.fetch = .ok (wordOfBytes bs) := by
  rw [State.fetch, if_pos hp, hb]

/-- A thread that fetches an instruction goes where the instruction goes, or stops with what it answers. -/
theorem State.stepThread_of_decode {s : State} {w : InstrWord} {i : Instr} (hf : s.fetch = .ok w)
    (hd : decode w = .ok i) :
    (∀ t, exec i s = .next t → s.stepThread = t) ∧
      (∀ r, exec i s = .fault r → s.stepThread = s.stopThread (some w) (.fault r)) ∧
      (∀ r, exec i s = .refused r → s.stepThread = s.stopThread (some w) (.refusal r)) := by
  refine ⟨fun t h => ?_, fun r h => ?_, fun r h => ?_⟩ <;> simp only [State.stepThread, hf, decodeOrRefuse, hd, h]

/-- Settles O9: the bytes are fetched as the word they spell, and its instruction is executed. -/
theorem stepRunsDecodedInstruction : Obligations.StepRunsDecodedInstruction := by
  intro s u bs rest i hm _ hp hb hd _
  rw [threadMoves_step hm]
  obtain ⟨hnext, hfault, hrefused⟩ := State.stepThread_of_decode (State.fetch_of_bytes hp hb)
    (decode_of_decodeBytes (codeBytes_length hb) hd)
  exact ⟨fun t ht => congrArg _ (hnext t ht), fun r hr => congrArg _ (hfault r hr),
    fun r hr => congrArg _ (hrefused r hr)⟩

/-- A `pc` outside its range, off its grid or without program bytes fetches nothing. -/
theorem State.fetch_bad {s : State} (h : s.thread.pc < 0 ∨ 2 ^ s.params.pcWidth < s.thread.pc + 8 ∨
    s.thread.pc % 8 ≠ 0 ∨ ∃ k, k < 8 ∧ cellsLookup (s.thread.pc.toNat + k) s.code = none) :
    s.fetch = .error (.fault .badFetch) := by
  unfold State.fetch
  split
  · next hp =>
    obtain ⟨hlow, hhigh, hgrid⟩ : 0 ≤ s.thread.pc ∧ s.thread.pc + 8 ≤ 2 ^ s.params.pcWidth ∧ s.thread.pc % 8 = 0 :=
      of_decide_eq_true hp
    obtain ⟨k, hk, hc⟩ : ∃ k, k < 8 ∧ cellsLookup (s.thread.pc.toNat + k) s.code = none := by
      obtain h | h | h | h := h
      · exact absurd h (not_lt.2 hlow)
      · exact absurd h (not_lt.2 hhigh)
      · exact absurd hgrid h
      · exact h
    rw [codeBytes_eq_none hk hc]
  · rfl

/-- Settles O11: the fetch answers `BadFetch`, and the thread stops with it. -/
theorem badFetchStopsTheThread : Obligations.BadFetchStopsTheThread := by
  intro s u hm _ hbad
  rw [threadMoves_step hm, State.stepThread, State.fetch_bad hbad]
  rfl

/-! ## What comes next -/

/-- A running thread that is not held may step. -/
theorem State.enabled_thread {s : State} {i : Nat} {t : Thread} (ht : s.threadList[i]? = some t)
    (hr : t.status = .running) (hh : (s.ready (.thread i)).held = false) : s.enabled (.thread i) = true := by
  have hi : i < s.blockSize := (List.getElem?_eq_some_iff.1 ht).1
  have hs : (s.ready (.thread i)).thread.status = .running := by
    rw [← hr, ← (State.focus_thread ht).1]; rfl
  simp [State.enabled, State.canStep, hi, hs, hh]

/-- A choice that is enabled and stands first in the schedule is next. -/
theorem State.nextChoice_of_schedule {s : State} {c : Choice} {rest : List Choice} (hs : s.schedule = c :: rest)
    (he : s.enabled c = true) : s.nextChoice = some (c, rest) := by
  simp [State.nextChoice, hs, State.firstEnabled, he]

/-- Settles O13, with what is said of the schedule and of the free value's plan. -/
theorem scheduleMayNameAnyEnabledChoice : Obligations.ScheduleMayNameAnyEnabledChoice := by
  refine ⟨State.begin_same, fun s i t rest hs ht hr hh => ?_, fun s b rest hs hb => ?_, fun s hs => ?_,
    fun s c rest h => State.chooseFrom_plan h, fun s c rest h => State.nextChoice_enabled h⟩
  · obtain ⟨hthread, hindex⟩ := State.focus_thread ht
    exact ⟨State.nextChoice_of_schedule hs (State.enabled_thread ht hr hh), hindex, hthread⟩
  · refine State.nextChoice_of_schedule hs ?_
    show (s.barriers[b].expected == some s.barriers[b].arrived) = true
    rw [hb]
    exact beq_self_eq_true _
  · simp [State.nextChoice, State.firstEnabled, hs]

end Sys2Proof.Machine
end

section
/-!
PROOFS. What registers, predicates and conditions read as and what a write leaves (`spec/10_state.md` rules R23 to R31),
and the state at every launch (`spec/10_state.md` rule R40, `spec/70_reset_and_hazards.md` rule R200).
-/

namespace Sys2Proof.Machine

open Sys2Proof Sys2Proof.Safety

/-! ## Registers -/

theorem Thread.missingReg_writeReg_other (t : Thread) {i j : RegIdx} (h : j ≠ i) (v : Word) :
    missingReg (t.writeReg i v) j = missingReg t j := by
  have hne : j.toNat ≠ i.toNat := fun hc => h (BitVec.eq_of_toNat_eq hc)
  unfold missingReg Thread.writeReg
  by_cases hi : i.toNat < 63
  · simp [hi, hne]
  · simp [hi]

theorem Thread.readReg_writeReg_same (t : Thread) {i : RegIdx} (h : i ≠ rz) (v : Word) :
    (t.writeReg i v).readReg i = .ok v := by
  rw [Thread.readReg_of_readable (t.regReadable_writeReg_same i v), t.regValue_writeReg_same h]

theorem Thread.readReg_writeReg_other (t : Thread) {i j : RegIdx} (h : j ≠ i) (v : Word) :
    (t.writeReg i v).readReg j = t.readReg j := by
  rw [Thread.readReg_eq, Thread.readReg_eq, t.missingReg_writeReg_other h, t.regValue_writeReg_other h]

theorem Thread.readReg_rz (t : Thread) : t.readReg rz = .ok 0#32 := by
  rw [Thread.readReg_of_readable t.regReadable_rz, Thread.regValue_rz]

theorem pairOk_iff {i : RegIdx} : pairOk i = true ↔ i = rz ∨ (i.toNat % 2 = 0 ∧ i.toNat ≤ 60) := by
  simp [pairOk]

/-- The halves of a pair are two registers, neither of them `RZ`. -/
theorem pair_halves {i : RegIdx} (he : i.toNat % 2 = 0) (hi : i.toNat ≤ 60) : i ≠ rz ∧ i + 1#6 ≠ rz ∧ i ≠ i + 1#6 := by
  have hs : (i + 1#6).toNat = i.toNat + 1 := by simp [BitVec.toNat_add]; omega
  have hz : rz.toNat = 63 := rfl
  refine ⟨fun h => ?_, fun h => ?_, fun h => ?_⟩
  all_goals
    have := congrArg BitVec.toNat h
    omega

/-- A value is its two halves. -/
theorem wide_halves (v : Wide) : v.extractLsb' 32 32 ++ v.extractLsb' 0 32 = v := by
  rw [BitVec.extractLsb'_append_extractLsb'_eq_extractLsb' (start₁ := 0) (start₂ := 32) rfl]
  exact BitVec.extractLsb'_eq_self

section
variable (t : Thread) {i : RegIdx} (v : Wide) (he : i.toNat % 2 = 0) (hi : i.toNat ≤ 60)
include he hi

theorem Thread.writePair_eq : t.writePair i v =
    (t.writeReg i (v.extractLsb' 0 32)).writeReg (i + 1#6) (v.extractLsb' 32 32) := by
  rw [Thread.writePair, if_neg (pair_halves he hi).1]
  rfl

theorem Thread.readReg_writePair_low : (t.writePair i v).readReg i = .ok (v.extractLsb' 0 32) := by
  obtain ⟨hlow, -, hne⟩ := pair_halves he hi
  rw [t.writePair_eq v he hi, Thread.readReg_writeReg_other _ hne, t.readReg_writeReg_same hlow]

theorem Thread.readReg_writePair_high : (t.writePair i v).readReg (i + 1#6) = .ok (v.extractLsb' 32 32) := by
  rw [t.writePair_eq v he hi, Thread.readReg_writeReg_same _ (pair_halves he hi).2.1]

theorem Thread.readReg_writePair_other {j : RegIdx} (h : j ≠ i) (h' : j ≠ i + 1#6) :
    (t.writePair i v).readReg j = t.readReg j := by
  rw [t.writePair_eq v he hi, Thread.readReg_writeReg_other _ h', t.readReg_writeReg_other h]

theorem Thread.readPair_writePair : (t.writePair i v).readPair i = .ok v := by
  rw [Thread.readPair, if_neg (pair_halves he hi).1, t.readReg_writePair_low v he hi, t.readReg_writePair_high v he hi]
  exact congrArg Except.ok (wide_halves v)

end

/-- Settles O28: a read after a write, of one register and of the two halves of a pair. -/
theorem registersAndPairs : Obligations.RegistersAndPairs := by
  refine ⟨fun t v => ⟨t.readReg_rz, t.writeReg_rz v⟩,
    fun t i v h => ⟨t.readReg_writeReg_same h v, fun j hj => t.readReg_writeReg_other hj v⟩,
    fun t i v => ⟨t.writeReg_preds i v, t.writeReg_cc i v, t.writeReg_pc i v, t.writeReg_cs i v, t.writeReg_status i v⟩,
    fun i => pairOk_iff, fun t v => ⟨rfl, rfl⟩, fun t i v he hi => ?_⟩
  exact ⟨t.readPair_writePair v he hi, t.readReg_writePair_low v he hi, t.readReg_writePair_high v he hi,
    fun j h h' => t.readReg_writePair_other v he hi h h'⟩

/-! ## Predicates and conditions -/

theorem Thread.predReadable_writePred_same (t : Thread) (i : PredIdx) (v : Bool) :
    (t.writePred i v).predReadable i = true := by
  by_cases h : i.toNat < 7 <;> simp [Thread.predReadable, predSource, Thread.writePred, h]

theorem Thread.predReadable_writePred_other (t : Thread) {i j : PredIdx} (h : j ≠ i) (v : Bool) :
    (t.writePred i v).predReadable j = t.predReadable j := by
  have hne : j.toNat ≠ i.toNat := fun hc => h (BitVec.eq_of_toNat_eq hc)
  unfold Thread.predReadable predSource Thread.writePred
  by_cases hi : i.toNat < 7
  · by_cases hj : j.toNat < 7 <;> simp [hi, hj, hne]
  · simp [hi]

/-- A predicate that is not readable is named by the fault of its source. -/
theorem Thread.psrc_of_unwritten {t : Thread} {c : PredSrc} (h : t.predReadable c.idx = false) :
    ∃ j : Fin 7, j.val = c.idx.toNat ∧ Source.pred j ∈ t.unwritten ∧
      t.psrc c = .error (.fault (.unwrittenRegister (.pred j))) := by
  by_cases hi : c.idx.toNat < 7
  · have hm : Source.pred ⟨c.idx.toNat, hi⟩ ∈ t.unwritten := by
      simpa [Thread.predReadable, predSource, hi] using h
    exact ⟨⟨_, hi⟩, rfl, hm, by simp [Thread.psrc_eq, missingPred, hi, hm]⟩
  · simp [Thread.predReadable, predSource, hi] at h

/-- Settles O29: a read after a write, and a source by whether its predicate is readable. -/
theorem predicatesAndSources : Obligations.PredicatesAndSources := by
  refine ⟨fun t b => ⟨t.predValue_pt, t.writePred_pt b⟩, fun t i b h => ?_, fun t i b => ?_,
    fun t f h => Thread.psrc_of_readable (c := PredSrc.ofCode f) h,
    fun t f h => Thread.psrc_of_unwritten (c := PredSrc.ofCode f) h⟩
  · exact ⟨t.predValue_writePred_same h b, t.predReadable_writePred_same i b,
      fun j hj => ⟨t.predValue_writePred_other hj b, t.predReadable_writePred_other hj b⟩⟩
  · exact ⟨t.writePred_regs i b, t.writePred_cc i b, t.writePred_pc i b, t.writePred_cs i b, t.writePred_status i b⟩

theorem CCop.readsCC_eq_true {c : CCop} (ht : c ≠ .t) (hf : c ≠ .f) : c.readsCC = true := by
  simp [CCop.readsCC, ht, hf]

theorem ccTest_of_readsCC {c : CCop} (ht : c ≠ .t) (hf : c ≠ .f) (cc : CCState) : ccTest c cc = Config.ccTest c cc := by
  cases c with
  | t => exact absurd rfl ht
  | f => exact absurd rfl hf
  | _ => rfl

/-- Settles O30: `.T` and `.F` do not read `CC`, and every other condition does. -/
theorem conditionTests : Obligations.ConditionTests := by
  intro t
  refine ⟨Thread.condition_of_readable t.condReadable_t, Thread.condition_of_readable t.condReadable_f,
    fun c ht hf => ⟨fun hm => ?_, fun hm => ?_⟩⟩
  · simp [Thread.condition, Thread.condReadable, CCop.readsCC_eq_true ht hf, hm]
  · rw [Thread.condition_of_readable (by simp [Thread.condReadable, hm]), ccTest_of_readsCC ht hf]

/-! ## A thread at launch -/

/-- The register of a number below 63 reads as its contents, or faults under its name. -/
theorem Thread.readReg_ofNat (t : Thread) (r : Fin 63) : t.readReg (BitVec.ofNat 6 r) =
    if Source.reg r ∈ t.unwritten then .error (.fault (.unwrittenRegister (.reg r))) else .ok t.regs[r] := by
  have hr : (BitVec.ofNat 6 r).toNat = r.val := by simp; omega
  rw [Thread.readReg_eq]
  by_cases hm : Source.reg r ∈ t.unwritten <;> simp [missingReg, Thread.regValue, hr, hm]

/-- The predicate of a number below 7 reads as its contents, or faults under its name. -/
theorem Thread.psrc_ofNat (t : Thread) (j : Fin 7) : t.psrc ⟨false, BitVec.ofNat 3 j⟩ =
    if Source.pred j ∈ t.unwritten then .error (.fault (.unwrittenRegister (.pred j))) else .ok t.preds[j] := by
  have hj : (BitVec.ofNat 3 j).toNat = j.val := by simp; omega
  rw [Thread.psrc_eq]
  by_cases hm : Source.pred j ∈ t.unwritten <;>
    simp [missingPred, Thread.psrcValue, Thread.predValue, hj, hm]

section
variable {entry : CodeAddr} {p : Premise}

theorem Premise.reg_mem_unnamed {r : Fin 63} : Source.reg r ∈ p.unnamed ↔ p.regs.lookup r = none := by
  simp [Premise.unnamed]

theorem Premise.pred_mem_unnamed {j : Fin 7} : Source.pred j ∈ p.unnamed ↔ p.preds.lookup j = none := by
  simp [Premise.unnamed]

theorem Premise.cc_mem_unnamed : Source.cc ∈ p.unnamed ↔ p.cc = none := by
  simp [Premise.unnamed]

/-- A register that the premise names reads as its value, and any other faults. -/
theorem Thread.launch_readReg (r : Fin 63) : (Thread.launch entry p).readReg (BitVec.ofNat 6 r) =
    match p.regs.lookup r with
    | some v => .ok v
    | none => .error (.fault (.unwrittenRegister (.reg r))) := by
  rw [Thread.readReg_ofNat]
  cases h : p.regs.lookup r <;> simp [Thread.launch, Premise.reg_mem_unnamed, h]

/-- A predicate that the premise names reads as its value, and any other faults. -/
theorem Thread.launch_psrc (j : Fin 7) : (Thread.launch entry p).psrc ⟨false, BitVec.ofNat 3 j⟩ =
    match p.preds.lookup j with
    | some v => .ok v
    | none => .error (.fault (.unwrittenRegister (.pred j))) := by
  rw [Thread.psrc_ofNat]
  cases h : p.preds.lookup j <;> simp [Thread.launch, Premise.pred_mem_unnamed, h]

end

end Sys2Proof.Machine
end

section
/-!
PROOFS. The machine at launch: the table of `spec/10_state.md` rule R40, the invariants' base cases, and the launch of
reset.
-/

namespace Sys2Proof.Machine

open Sys2Proof Sys2Proof.Safety

section
variable (l : Launch)

theorem State.launch_threadList :
    (State.launch l).threadList = (l.first :: l.rest).map (Thread.launch l.params.entry) := rfl

theorem State.launch_barriers (b : Fin 16) : (State.launch l).barriers[b] = Barrier.idle := by
  simp [State.launch]

theorem State.launch_running {i : Nat} {t : Thread} (h : (State.launch l).threadList[i]? = some t) :
    t.status = .running := by
  rw [State.launch_threadList, List.getElem?_map] at h
  obtain ⟨p, -, rfl⟩ := Option.map_eq_some_iff.1 h
  rfl

/-! ## The invariants -/

theorem historyCoherent_launch : historyCoherent (State.launch l) := ⟨fun _ => rfl, rfl⟩

theorem waitersWait_launch : waitersWait (State.launch l) := by
  intro b
  rw [State.launch_barriers]
  refine ⟨List.nodup_nil, fun i => ⟨fun ⟨w, hw, _⟩ => absurd hw List.not_mem_nil, fun ⟨t, ht, hs⟩ => ?_⟩⟩
  rw [State.launch_running l ht] at hs
  cases hs

theorem countsAgree_launch : countsAgree (State.launch l) := fun b =>
  (State.launch_barriers l b).symm ▸ barrierCounts_idle

theorem recordAgrees_launch : recordAgrees (State.launch l) := by
  refine fun i e => ⟨fun ⟨t, ht, hs⟩ => ?_, fun ⟨r, hr, _⟩ => absurd hr List.not_mem_nil⟩
  exact absurd (hs.symm.trans (State.launch_running l ht)) e.status_ne_running

theorem memoryOrder_launch : MemoryOrder (State.launch l) where
  kept _ := List.Pairwise.nil
  accesses _ _ _ _ _ _ h := absurd h List.not_mem_nil
  fences _ _ _ _ _ h := absurd h List.not_mem_nil
  releases _ _ _ h := absurd h List.not_mem_nil
  arrivals b _ _ _ _ h := by
    rw [State.launch_barriers] at h
    exact absurd h List.not_mem_nil

theorem sequentialOrder_launch (h : l.params.memModel = .sequential) : sequentialOrder (State.launch l) :=
  ⟨h, fun _ _ _ _ _ _ h => absurd h List.not_mem_nil, List.Pairwise.nil⟩

end

/-- Settles O22: at a launch every barrier is idle, every thread runs, and nothing is recorded. -/
theorem invariantsHoldAtLaunch : Obligations.InvariantsHoldAtLaunch :=
  ⟨fun _ hm hc => ⟨hm, hc⟩,
    fun l => ⟨historyCoherent_launch l, waitersWait_launch l, countsAgree_launch l, recordAgrees_launch l,
      memoryOrder_launch l⟩,
    sequentialOrder_launch, State.reset_gmem_wf, State.reset_code_rising⟩

/-! ## The table -/

/-- What is admitted is what lies inside an allocated range. -/
theorem admits_iff_allocated {s : State} {a n : Nat} : s.params.admits a n = true ↔ allocated s a n := by
  simp [Params.admits, AllocRange.holds, allocated]

/-- Settles O26, by what a thread at launch reads where its premise names a value and where not. -/
theorem launchFollowsTheTable : Obligations.LaunchFollowsTheTable := by
  intro l
  refine ⟨?_, rfl, rfl, rfl, rfl, State.launch_barriers l,
    fun a n h => Bool.eq_false_iff.2 fun hc => h (admits_iff_allocated.1 hc), fun i p hp => ?_⟩
  · rw [State.blockSize, State.launch_threadList, List.length_map, List.length_cons]
  · refine ⟨Thread.launch l.params.entry p, by rw [State.launch_threadList, List.getElem?_map, hp]; rfl, rfl, rfl, rfl,
      fun r v h => ?_, fun r h => ?_, Thread.readReg_rz _, fun j v h => ?_, fun j h => ?_, ?_, fun c h => ⟨?_, ?_⟩,
      Premise.cc_mem_unnamed.2⟩
    · rw [Thread.launch_readReg, h]
    · rw [Thread.launch_readReg, h]
    · rw [Thread.launch_psrc, h]
    · rw [Thread.launch_psrc, h]
    · exact Thread.psrc_of_readable (c := ⟨false, pt⟩) (Thread.predReadable_pt _)
    · show p.cc.getD ⟨0⟩ = c
      rw [h]
      rfl
    · exact fun hm => absurd (h.symm.trans (Premise.cc_mem_unnamed.1 hm)) (Option.some_ne_none c)

/-! ## Reset -/

theorem Premise.reset_regs (r : Fin 63) : Premise.reset.regs.lookup r = some 0#32 :=
  List.lookup_graph (fun _ => 0#32) (List.mem_finRange r)

theorem Premise.reset_preds (j : Fin 7) : Premise.reset.preds.lookup j = some false :=
  List.lookup_graph (fun _ => false) (List.mem_finRange j)

theorem State.reset_readReg (r : RegIdx) : State.reset.thread.readReg r = .ok 0#32 := by
  by_cases h : r.toNat < 63
  · have hr := Thread.launch_readReg (entry := 0) (p := Premise.reset) ⟨r.toNat, h⟩
    rw [Premise.reset_regs, BitVec.ofNat_toNat, BitVec.setWidth_eq] at hr
    exact hr
  · have hz : r = rz := BitVec.eq_of_toNat_eq (show r.toNat = 63 by omega)
    rw [hz, Thread.readReg_rz]

theorem State.reset_psrc (j : PredIdx) : State.reset.thread.psrc ⟨false, j⟩ = .ok (decide (j = pt)) := by
  by_cases h : j.toNat < 7
  · have hj := Thread.launch_psrc (entry := 0) (p := Premise.reset) ⟨j.toNat, h⟩
    have hne : j ≠ pt := fun hc => by rw [hc] at h; exact absurd h (by decide)
    rw [Premise.reset_preds, BitVec.ofNat_toNat, BitVec.setWidth_eq] at hj
    rw [decide_eq_false hne]
    exact hj
  · have hz : j = pt := BitVec.eq_of_toNat_eq (show j.toNat = 7 by omega)
    rw [hz, decide_eq_true rfl]
    exact Thread.psrc_of_readable (c := ⟨false, pt⟩) (Thread.predReadable_pt _)

/-- Settles O27: the premise of reset names every register zero and every predicate false. -/
theorem resetReadsTheLaunchOfReset : Obligations.ResetReadsTheLaunchOfReset :=
  ⟨State.reset_readReg, State.reset_psrc, rfl, rfl, rfl, fun _ => rfl,
    fun _ _ h => ⟨_, List.mem_singleton_self _, Nat.zero_le _, by rwa [Nat.zero_add]⟩⟩

end Sys2Proof.Machine
end

section
/-!
PROOFS. Bytes of a value, of `GMem` and of the code space lie lowest first (`spec/20_memory.md` rules R50, R51).
-/

namespace Sys2Proof.Machine

open Sys2Proof Sys2Proof.Safety

/-! ## The bytes of a value -/

/-- The lowest byte of a value is the first of its bytes. -/
theorem lowByte_cons (b : Byte) (v : Wide) : (b.setWidth 64 ||| v <<< 8).extractLsb' 0 8 = b := by
  ext i hi
  simp [hi, show i < 64 by omega]

/-- Its next bytes are those of the rest. -/
theorem nextByte_cons (b : Byte) (v : Wide) {k : Nat} (hk : k < 7) :
    (b.setWidth 64 ||| v <<< 8).extractLsb' (8 * (k + 1)) 8 = v.extractLsb' (8 * k) 8 := by
  ext i hi
  have hlt : 8 * (k + 1) + i < 64 := by omega
  have hsub : 8 * (k + 1) + i - 8 = 8 * k + i := by omega
  have hge : ¬8 * (k + 1) + i < 8 := by omega
  have hb : b.getLsbD (8 * (k + 1) + i) = false := BitVec.getLsbD_of_ge _ _ (by omega)
  simp only [BitVec.getElem_extractLsb', BitVec.getLsbD_or, BitVec.getLsbD_setWidth, BitVec.getLsbD_shiftLeft, hlt,
    hsub, hge, hb, decide_true, decide_false, Bool.and_false, Bool.false_or, Bool.true_and, Bool.not_false]

theorem shiftRight_setWidth_byte (v : Wide) (k : Nat) : (v >>> k).setWidth 8 = v.extractLsb' k 8 := by
  ext i hi
  simp

theorem extractByte_wordOfBytes {bs : List Byte} {k : Nat} {b : Byte} (hl : bs.length ≤ 8) (h : bs[k]? = some b) :
    (wordOfBytes bs).extractLsb' (8 * k) 8 = b := by
  induction bs generalizing k with
  | nil => cases h
  | cons c bs ih =>
    rw [List.length_cons] at hl
    cases k with
    | zero => cases h; exact lowByte_cons b _
    | succ k =>
      rw [List.getElem?_cons_succ] at h
      have hk : k < bs.length := (List.getElem?_eq_some_iff.1 h).1
      exact (nextByte_cons c _ (by omega)).trans (ih (by omega) h)

/-- Two words with the same bytes are equal. -/
theorem word_eq_of_bytes {v w : InstrWord} (h : ∀ k, k < 8 → v.extractLsb' (8 * k) 8 = w.extractLsb' (8 * k) 8) :
    v = w := by
  refine BitVec.eq_of_getLsbD_eq fun i hi => ?_
  have hi' : 8 * (i / 8) + i % 8 = i := Nat.div_add_mod i 8
  have hbit := congrArg (fun x : Byte => x.getLsbD (i % 8)) (h (i / 8) (by omega))
  simpa [Nat.mod_lt, hi'] using hbit

theorem bytesOfWord_length (n : Nat) (w : InstrWord) : (bytesOfWord n w).length = n := by
  induction n generalizing w with
  | zero => rfl
  | succ n ih => rw [bytesOfWord, List.length_cons, ih]

theorem bytesOfWord_getElem? {n k : Nat} (w : InstrWord) (hk : k < n) :
    (bytesOfWord n w)[k]? = some (w.extractLsb' (8 * k) 8) := by
  induction n generalizing w k with
  | zero => omega
  | succ n ih =>
    rw [bytesOfWord]
    cases k with
    | zero => rfl
    | succ k =>
      rw [List.getElem?_cons_succ, ih _ (by omega), ← shiftRight_setWidth_byte, ← shiftRight_setWidth_byte,
        ← BitVec.shiftRight_add, Nat.add_comm 8]
      rfl

theorem wordOfBytes_bytesOfWord (w : InstrWord) : wordOfBytes (bytesOfWord 8 w) = w :=
  word_eq_of_bytes fun _ hk => extractByte_wordOfBytes (bytesOfWord_length 8 w).le (bytesOfWord_getElem? w hk)

/-! ## The bytes of `GMem` and of the code space -/

theorem Memory.extractByte_read (m : List Host.Cell) {a n k : Nat} (hk : k < n) (hn : n ≤ 8) :
    (Memory.read m a n).extractLsb' (8 * k) 8 = Memory.readByte m (a + k) := by
  induction n generalizing a k with
  | zero => omega
  | succ n ih =>
    rw [Memory.read_succ]
    cases k with
    | zero => exact lowByte_cons _ _
    | succ k => rw [nextByte_cons _ _ (by omega), ih (by omega) (by omega), Nat.add_assoc, Nat.add_comm 1]

theorem Memory.readByte_write_inside (m : List Host.Cell) (a : Nat) {n k : Nat} (v : Wide) (hk : k < n) :
    Memory.readByte (Memory.write m a n v) (a + k) = v.extractLsb' (8 * k) 8 := by
  rw [Memory.readByte_write, if_pos (by omega), Nat.add_sub_cancel_left, shiftRight_setWidth_byte]

theorem codeBytes_getElem? {code : List Host.Cell} {a n k : Nat} {bs : List Byte} (h : codeBytes code a n = some bs)
    (hk : k < n) : bs[k]? = cellsLookup (a + k) code := by
  induction n generalizing a k bs with
  | zero => omega
  | succ n ih =>
    unfold codeBytes at h
    split at h
    · next b bs' hb hbs =>
      cases h
      cases k with
      | zero => exact hb.symm
      | succ k => rw [List.getElem?_cons_succ, ih hbs (by omega), Nat.add_assoc, Nat.add_comm 1]
    · cases h

/-- A word that is fetched was spelled by the bytes at `pc`. -/
theorem State.bytes_of_fetch {s : State} {w : InstrWord} (h : s.fetch = .ok w) :
    ∃ bs, codeBytes s.code s.thread.pc.toNat 8 = some bs ∧ wordOfBytes bs = w := by
  unfold State.fetch at h
  split at h
  · split at h
    · next bs hbs => cases h; exact ⟨bs, hbs, rfl⟩
    · cases h
  · cases h

/-- Settles O8, byte by byte of the value, of `GMem` and of the code space. -/
theorem littleEndianBytes : Obligations.LittleEndianBytes := by
  refine ⟨fun m a n k hk hn => Memory.extractByte_read m hk hn,
    fun m a n k v hk _ => Memory.readByte_write_inside m a v hk,
    fun m a n b v hb => Memory.readByte_write_outside m hb v, fun s w hf k hk => ?_, wordOfBytes_bytesOfWord⟩
  obtain ⟨bs, hbs, rfl⟩ := State.bytes_of_fetch hf
  have hlen := codeBytes_length hbs
  rw [← codeBytes_getElem? hbs hk, List.getElem?_eq_getElem (by omega),
    extractByte_wordOfBytes hlen.le (List.getElem?_eq_getElem (by omega))]

end Sys2Proof.Machine
end

section
/-!
PROOFS. What one step does to `GMem`, the history and the places of the accesses, said once over the cases of `Moved`
and `Effect`; and the invariants of the memory order that follow (`spec/20_memory.md` rules R50, R54, R58, R59, R63).
-/

namespace Sys2Proof.Machine

open Sys2Proof Sys2Proof.Safety

/-! ## The guarantees -/

theorem fenceBetween_iff {h : List Event} {o : Observer} {t p q : Nat} : fenceBetween h o t p q = true ↔
    ∃ k lvl, Event.fence t k lvl ∈ h ∧ fenceCovers lvl o = true ∧ p < k ∧ k ≤ q := by
  simp only [fenceBetween, List.any_eq_true]
  constructor
  · rintro ⟨e, he, hx⟩
    cases e with
    | fence u m lvl =>
      simp only [Bool.and_eq_true, beq_iff_eq, decide_eq_true_eq] at hx
      obtain ⟨⟨rfl, hc⟩, hk⟩ := hx
      exact ⟨m, lvl, he, hc, hk⟩
    | access => cases hx
    | release => cases hx
  · rintro ⟨k, lvl, he, hc, hk⟩
    exact ⟨_, he, by simp [hc, hk]⟩

theorem releaseBetween_iff {h : List Event} {t p u q : Nat} : releaseBetween h t p u q = true ↔
    ∃ c arrived released k l, Event.release c arrived released ∈ h ∧ (t, k) ∈ arrived ∧ p < k ∧
      (u, l) ∈ released ∧ l ≤ q := by
  simp only [releaseBetween, List.any_eq_true]
  constructor
  · rintro ⟨e, he, hx⟩
    cases e with
    | release c arrived released =>
      simp only [Bool.and_eq_true, List.any_eq_true, beq_iff_eq, decide_eq_true_eq] at hx
      obtain ⟨⟨⟨_, k⟩, hk, rfl, hp⟩, ⟨_, l⟩, hl, rfl, hq⟩ := hx
      exact ⟨c, arrived, released, k, l, he, hk, hp, hl, hq⟩
    | access => cases hx
    | fence => cases hx
  · rintro ⟨c, arrived, released, k, l, he, hk, hp, hl, hq⟩
    refine ⟨_, he, ?_⟩
    simp only [Bool.and_eq_true, List.any_eq_true, beq_iff_eq, decide_eq_true_eq]
    exact ⟨⟨_, hk, rfl, hp⟩, _, hl, rfl, hq⟩

theorem guaranteed_iff {h : List Event} {o : Observer} {t p a n u q b m : Nat} {x y x' y' : Wide} :
    guaranteed h o (.access t p a n x y) (.access u q b m x' y') = true ↔
      (t = u ∧ p < q ∧ ((a < b + m ∧ b < a + n) ∨
        ∃ k lvl, Event.fence t k lvl ∈ h ∧ fenceCovers lvl o = true ∧ p < k ∧ k ≤ q)) ∨
      ∃ c arrived released k l, Event.release c arrived released ∈ h ∧ (t, k) ∈ arrived ∧ p < k ∧
        (u, l) ∈ released ∧ l ≤ q := by
  simp only [guaranteed, Bool.or_eq_true, Bool.and_eq_true, beq_iff_eq, decide_eq_true_eq, rangesMeet,
    fenceBetween_iff, releaseBetween_iff, and_assoc]

theorem fenceCovers_iff {lvl : Lvl} {o : Observer} : fenceCovers lvl o = true ↔
    (lvl = .cta ∧ o = .block) ∨ (lvl = .gl ∧ o ≠ .outside) ∨ lvl = .sys := by
  cases lvl <;> cases o <;> simp [fenceCovers]

/-- Settles O46, by what a fence and a release stand between. -/
theorem memoryOrderGuarantees : Obligations.MemoryOrderGuarantees :=
  ⟨fun _ _ _ _ _ _ _ _ _ _ _ _ _ _ => guaranteed_iff, fun _ _ => fenceCovers_iff⟩

/-- What is guaranteed is guaranteed of two accesses. -/
theorem guaranteed_accesses {h : List Event} {o : Observer} {e f : Event} (hg : guaranteed h o e f = true) :
    ∃ t p a n x y u q b m x' y', e = .access t p a n x y ∧ f = .access u q b m x' y' := by
  cases e with
  | access t p a n x y =>
    cases f with
    | access u q b m x' y' => exact ⟨t, p, a, n, x, y, u, q, b, m, x', y', rfl, rfl⟩
    | fence => cases hg
    | release => cases hg
  | fence => cases hg
  | release => cases hg

/-- One more access in the history changes no guarantee. -/
theorem guaranteed_insert_access (h : List Event) (k t p a n : Nat) (x y : Wide) (o : Observer) (e f : Event) :
    guaranteed (insertEvent k (.access t p a n x y) h) o e f = guaranteed h o e f := by
  refine Bool.eq_iff_iff.2 ⟨fun hg => ?_, fun hg => ?_⟩ <;>
  · obtain ⟨_, _, _, _, _, _, _, _, _, _, _, _, rfl, rfl⟩ := guaranteed_accesses hg
    simpa [guaranteed_iff, mem_insertEvent] using hg

/-! ## Where an access may stand -/

/-- Settles O49: in the state in which the choice acts, its thread is the one that steps. -/
theorem accessMayStandWhereNotGuaranteed : Obligations.AccessMayStandWhereNotGuaranteed := by
  intro s i k v t x hm ht hr hx
  obtain ⟨hthread, hindex⟩ := State.focus_thread ht
  have hsame := s.ready_same (.placed i k v)
  have hthread : (s.ready (.placed i k v)).thread = t := hthread
  have hindex : (s.ready (.placed i k v)).index = i := hindex
  have hi : i < s.blockSize := (List.getElem?_eq_some_iff.1 ht).1
  have hplace : (s.ready (.placed i k v)).canPlace k = true ↔ (s.ready (.placed i k v)).mayStand x k = true := by
    rw [State.canPlace_iff, hsame.params, hthread, hx]
    simp [hm, hr]
  rw [State.enabled, decide_eq_true hi, Bool.true_and, hplace, State.mayStand_iff, hsame.history, hthread, hindex]

/-- The access of a choice that acts may stand where the choice puts it. -/
theorem State.Acts.mayStand {s : State} {c : Choice} (hc : s.Acts c) {x : Access} (hx : s.nextAccess = some x) :
    s.mayStand x s.later = true := by
  cases hc with
  | thread i h => rw [State.later_none h]; rfl
  | placed i k v h hm y hy hs =>
    cases hx.symm.trans hy
    rwa [show s.later = k by simp [State.later, h]]

/-- With the stronger `MemModel` an access stands last. -/
theorem State.Acts.later_of_sequential {s : State} {c : Choice} (hc : s.Acts c)
    (hm : s.params.memModel = .sequential) : s.later = 0 := by
  cases hc with
  | thread i h => exact State.later_none h
  | placed _ _ _ _ hr => rw [hm] at hr; cases hr

/-! ## What a step does to the memory and the places -/

/-- The place of thread `i`'s next access, if the block has a thread `i`. -/
def State.placeAt (s : State) (i : Nat) : Option Nat := s.threadList[i]?.map Thread.place

theorem State.placeAt_index (s : State) : s.placeAt s.index = some s.thread.place := by
  rw [State.placeAt, State.threadList_index]; rfl

theorem State.placeAt_eq_some {s : State} {i p : Nat} :
    s.placeAt i = some p ↔ ∃ t, s.threadList[i]? = some t ∧ t.place = p := Option.map_eq_some_iff

theorem State.placeOf_eq (s : State) (i : Nat) : s.placeOf i = (s.placeAt i).getD 0 := by
  unfold State.placeOf State.placeAt
  cases s.threadList[i]? <;> rfl

/-- Where only the thread that steps changed, so did only its place. -/
theorem State.placeAt_of_sides {s t : State} (hl : t.lower = s.lower) (hh : t.higher = s.higher) (i : Nat) :
    t.placeAt i = if i = s.index then some t.thread.place else s.placeAt i := by
  rw [State.placeAt, State.threadList_of_sides hl hh]
  split <;> rfl

/-- Where the thread that steps kept its place, every thread did. -/
theorem State.placeAt_of_kept {s t : State} (hl : t.lower = s.lower) (hh : t.higher = s.higher)
    (hp : t.thread.place = s.thread.place) (i : Nat) : t.placeAt i = s.placeAt i := by
  rw [State.placeAt_of_sides hl hh]
  split
  · next h => rw [h, hp, s.placeAt_index]
  · rfl

/-- What a choice does to `GMem`, the history, the places and the arrivals. -/
inductive MemoryMove (s : State) (c : Choice) (t : State) : Prop where
  /-- Nothing, but for a fence in the history. -/
  | quiet (hp : ∀ i, t.placeAt i = s.placeAt i) (hb : ∀ b : Fin 16, t.barriers[b].arrivers = s.barriers[b].arrivers)
      (hg : t.gmem = s.gmem)
      (hh : t.history = s.history ∨ ∃ lvl, t.history = .fence s.index s.thread.place lvl :: s.history)
  /-- The thread that steps arrives at a barrier. -/
  | arrives (b : Fin 16) (hp : ∀ i, t.placeAt i = s.placeAt i)
      (hb : ∀ d : Fin 16, t.barriers[d].arrivers =
        if b = d then s.barriers[b].arrivers ++ [(s.index, s.thread.place)] else s.barriers[d].arrivers)
      (hg : t.gmem = s.gmem) (hh : t.history = s.history)
  /-- The arrivals at a barrier are recorded with those it releases. -/
  | releases (b : Fin 16) (hp : ∀ i, t.placeAt i = s.placeAt i)
      (hb : ∀ d : Fin 16, t.barriers[d].arrivers = if b = d then [] else s.barriers[d].arrivers)
      (hg : t.gmem = s.gmem)
      (hh : t.history = .release b s.barriers[b].arrivers
        (s.barriers[b].waiting.map (fun i => (i, s.placeOf i))) :: s.history)
  /-- The thread that steps makes its access. -/
  | accesses (hc : s.Acts c) (x : Access) (hx : s.nextAccess = some x)
      (hp : ∀ i, t.placeAt i = if i = s.index then some (s.thread.place + 1) else s.placeAt i)
      (hb : ∀ b : Fin 16, t.barriers[b].arrivers = s.barriers[b].arrivers)
      (hg : t.gmem = (s.access x).2.gmem) (hh : t.history = (s.access x).2.history)

theorem State.castVote_placeAt (s : State) (mode : VoteMode) (reg0 : RegIdx) (p1 : PredSrc) (p0 : PredIdx) (i : Nat) :
    (s.castVote mode reg0 p1 p0).placeAt i = s.placeAt i := by
  rw [State.placeAt, State.placeAt, State.castVote_threadList, Option.map_map]
  refine congrArg (Option.map · _) (funext fun u => ?_)
  simp only [Function.comp_apply]
  split
  · exact u.voted_place _ _ _ _
  · rfl

theorem State.stopVoter_placeAt (s : State) (k : Nat) (pc : CodeAddr) (w : InstrWord) (e : Stop) (i : Nat) :
    (s.stopVoter k pc w e).placeAt i = s.placeAt i := by
  rw [State.placeAt, State.placeAt, State.stopVoter_threadList, Option.map_map]
  refine congrArg (Option.map · _) (funext fun u => ?_)
  simp only [Function.comp_apply]
  split <;> rfl

@[simp] theorem Thread.released_place (t : Thread) (votes : List Bool) (w : Waiter) :
    (t.released votes w).place = t.place := by
  unfold Thread.released
  cases w.redop <;> simp

theorem State.releaseBarrier_placeAt (s : State) (b : Fin 16) (i : Nat) :
    (s.releaseBarrier b).placeAt i = s.placeAt i := by
  rw [State.placeAt, State.placeAt, State.releaseBarrier_threadList, Option.map_map]
  refine congrArg (Option.map · _) (funext fun u => ?_)
  obtain ⟨w, -, -, e⟩ | ⟨-, e⟩ := s.barriers[b].releaseThread_cases i u
  · rw [Function.comp_apply, e, Thread.released_place]
  · rw [Function.comp_apply, e]

theorem effect_memoryMove {s t : State} {c : Choice} {j : Instr} (hc : s.Acts c) (hj : s.nextInstr = some j)
    (he : Effect s j t) : MemoryMove s c t := by
  have hnext : ∀ {x : Access}, accessOf j s = some x → s.nextAccess = some x := fun h => by
    rw [State.nextAccess, hj]
    exact h
  cases he with
  | held => exact .quiet (fun _ => rfl) (fun _ => rfl) rfl (.inl rfl)
  | control v hv => exact .quiet (State.placeAt_of_kept rfl rfl hv.place) (fun _ => rfl) rfl (.inl rfl)
  | fence lvl => exact .quiet (State.placeAt_of_kept rfl rfl rfl) (fun _ => rfl) rfl (.inr ⟨lvl, rfl⟩)
  | join _ b n w vote =>
    refine .arrives b (State.placeAt_of_kept rfl rfl rfl) (fun d => ?_) rfl rfl
    simp only [State.setBarrier_barriers, barriers_set_get]
    split <;> rfl
  | arrive _ b n =>
    refine .arrives b (State.placeAt_of_kept rfl rfl rfl) (fun d => ?_) rfl rfl
    simp only [State.advance_barriers, State.setBarrier_barriers, barriers_set_get]
    split <;> rfl
  | atom _ x reg3 hx =>
    rw [State.atomAccess_eq]
    exact .accesses hc x (hnext hx) (State.placeAt_of_sides rfl rfl) (fun _ => rfl) rfl rfl
  | red _ x hx => exact .accesses hc x (hnext hx) (State.placeAt_of_sides rfl rfl) (fun _ => rfl) rfl rfl
  | castVote => exact .quiet (s.castVote_placeAt _ _ _ _) (fun _ => rfl) rfl (.inl rfl)
  | stopVoter => exact .quiet (s.stopVoter_placeAt _ _ _ _) (fun _ => rfl) rfl (.inl rfl)

theorem moved_memoryMove {s t : State} {c : Choice} (hm : Moved s c t) : MemoryMove s c t := by
  cases hm with
  | stop => exact .quiet (State.placeAt_of_kept rfl rfl rfl) (fun _ => rfl) rfl (.inl rfl)
  | instr hc _ _ j _ _ _ hj he => exact effect_memoryMove hc hj he
  | @release b _ =>
    refine .releases b (s.releaseBarrier_placeAt b) (fun d => ?_) rfl ?_
    · simp only [State.releaseBarrier_barriers, barriers_set_get]
      split <;> rfl
    · rw [State.releaseBarrier_history, Barrier.waiting, List.map_map]
      rfl

/-! ## The canonical form -/

theorem MemoryMove.keepsCanonical {s t : State} {c : Choice} (hm : MemoryMove s c t) (h : Memory.wf s.gmem = true) :
    Memory.wf t.gmem = true := by
  cases hm with
  | quiet _ _ hg => rw [hg]; exact h
  | arrives _ _ _ hg => rw [hg]; exact h
  | releases _ _ _ hg => rw [hg]; exact h
  | accesses _ x _ _ _ hg => rw [hg, State.access_gmem]; exact Memory.wf_writeUnder h _ _ _ _

/-- Settles O15: only an access writes `GMem`, byte by byte, and no step writes the code space. -/
theorem stepKeepsMemoryCanonical : Obligations.StepKeepsMemoryCanonical := by
  intro s t ⟨hg, hc⟩ h
  obtain ⟨u, c, hu, hm⟩ := step_same_moved h
  exact ⟨(moved_memoryMove hm).keepsCanonical (hu.gmem ▸ hg), by rw [(moved_launch hm).2, hu.code]; exact hc⟩

/-! ## The history and the memory -/

/-- Every byte of `GMem` is what the recorded accesses left of the launch memory. -/
def State.replayed (s : State) : Prop :=
  ∀ a, Memory.readByte s.gmem a = Memory.readByte (replay s.params.launchMem s.history) a

theorem historyCoherent_iff {s : State} : historyCoherent s ↔ s.replayed ∧ s.completes s.schedule = true := Iff.rfl

theorem State.replayed_of_same {s u : State} (h : SameMachine s u) (hs : s.replayed) : u.replayed := by
  unfold State.replayed
  rw [h.gmem, h.params, h.history]
  exact hs

theorem State.coherent_of_same {s u : State} (h : SameMachine s u) (hs : s.coherent = true) : u.coherent = true := by
  unfold State.coherent
  rw [h.params, h.history]
  exact hs

theorem MemoryMove.keepsReplayed {s t : State} {c : Choice} (hm : MemoryMove s c t) (hp : t.params = s.params)
    (h : s.replayed) : t.replayed := by
  intro a
  rw [hp]
  cases hm with
  | quiet _ _ hg hh => obtain hh | ⟨lvl, hh⟩ := hh <;> (rw [hg, hh]; exact h a)
  | arrives _ _ _ hg hh => rw [hg, hh]; exact h a
  | releases _ _ _ hg hh => rw [hg, hh]; exact h a
  | accesses _ x _ _ _ hg hh =>
    rw [hg, hh, State.access_gmem, State.access_history, readByte_replay_insert, Memory.readByte_writeUnder,
      Memory.readByte_writeUnder, h a]
    rfl

/-- A step that does not say where its access stands keeps the order complete, since its access reads `GMem`. -/
theorem MemoryMove.keepsCoherent {s t : State} {c : Choice} (hm : MemoryMove s c t) (hp : t.params = s.params)
    (hc : ∀ i k v, c ≠ .placed i k v) (hr : s.replayed) (h : s.coherent = true) : t.coherent = true := by
  unfold State.coherent at h ⊢
  rw [hp]
  cases hm with
  | quiet _ _ _ hh => obtain hh | ⟨lvl, hh⟩ := hh <;> (rw [hh]; exact h)
  | arrives _ _ _ _ hh => rw [hh]; exact h
  | releases _ _ _ _ hh => rw [hh]; exact h
  | accesses hact x _ _ _ _ hh =>
    cases hact with
    | placed i k v => exact absurd rfl (hc i k v)
    | thread i hn =>
      rw [hh, State.access_history, State.later_none hn, State.valueRead_none hn, insertEvent_zero, readsCoherent, h,
        Memory.read_congr (fun k _ => hr (x.addr + k))]
      simp

/-- What is fixed is enabled, or nothing is fixed and the order is complete. -/
theorem State.completes_cases {s : State} {l : List Choice} (h : s.completes l = true) :
    (l = [] ∧ s.coherent = true) ∨ ∃ c rest, l = c :: rest ∧ s.enabled c = true ∧
      ((s.begin c rest).act c).completes rest = true := by
  cases l with
  | nil => exact .inl ⟨rfl, h⟩
  | cons c rest =>
    obtain ⟨he, hr⟩ := Bool.and_eq_true_iff.1 h
    exact .inr ⟨c, rest, rfl, he, hr⟩

/-- Where nothing that is fixed is enabled, nothing is fixed and the order is complete. -/
theorem State.coherent_of_disabled {s : State} (h : s.completes s.schedule = true)
    (hd : ∀ c ∈ s.schedule, s.enabled c = false) : s.coherent = true := by
  obtain ⟨-, hc⟩ | ⟨c, rest, hs, he, -⟩ := State.completes_cases h
  · exact hc
  · rw [hd c (hs ▸ List.mem_cons_self)] at he
    cases he

/-- After the next choice, the choices fixed after it complete the order; or it is free, places no access, and nothing
is fixed after it. -/
theorem State.nextChoice_completes {s : State} {c : Choice} {rest : List Choice}
    (h : s.completes s.schedule = true) (hn : s.nextChoice = some (c, rest)) :
    ((s.begin c rest).act c).completes rest = true ∨
      (rest = [] ∧ s.coherent = true ∧ ∀ i k v, c ≠ .placed i k v) := by
  obtain hf | ⟨hd, hf⟩ := State.nextChoice_cases hn
  · obtain ⟨hs, -⟩ | ⟨d, l, hs, he, hl⟩ := State.completes_cases h
    · rw [hs] at hf; cases hf
    · rw [hs, State.firstEnabled, if_pos he] at hf
      cases hf
      exact .inl hl
  · obtain ⟨hmenu, rfl⟩ | ⟨-, hc⟩ := State.chooseFrom_cases hf
    · refine .inr ⟨rfl, State.coherent_of_disabled h hd, fun i k v hp => ?_⟩
      obtain ⟨_, rfl⟩ | ⟨_, rfl⟩ := (State.mem_menu hmenu).2 <;> cases hp
    · exact .inl (Bool.and_eq_true_iff.1 hc).2

theorem moved_schedule {s t : State} {c : Choice} (hm : Moved s c t) : t.schedule = s.schedule := by
  cases hm with
  | stop => rfl
  | instr _ _ _ _ _ _ _ _ he => exact (effect_launch he).2.2.1
  | release => rfl

/-- A run ends only where nothing is enabled. -/
theorem nextChoice_of_step_fault {s : State} {r : Fault} (h : step s = .fault r) : s.nextChoice = none := by
  unfold step at h
  split at h
  · next hn => exact hn
  · cases h

/-- Settles O16, by what a step does to the history and what the choices fixed after it complete. -/
theorem stepKeepsHistoryCoherent : Obligations.StepKeepsHistoryCoherent := by
  refine ⟨fun s t hs h => ?_, fun s hs hend => ?_⟩
  · obtain ⟨hr, hc⟩ := historyCoherent_iff.1 hs
    obtain ⟨c, rest, hn, ht, hm⟩ := step_moved h
    have hsame := s.begin_same c rest
    have hmove := moved_memoryMove hm
    have hparams := (moved_launch hm).1
    have hreplayed := State.replayed_of_same hsame hr
    refine historyCoherent_iff.2 ⟨hmove.keepsReplayed hparams hreplayed, ?_⟩
    rw [show t.schedule = rest from moved_schedule hm]
    obtain hrest | ⟨rfl, hco, hnp⟩ := State.nextChoice_completes hc hn
    · rw [ht]; exact hrest
    · exact hmove.keepsCoherent hparams hnp hreplayed (State.coherent_of_same hsame hco)
  · refine State.coherent_of_disabled hs.2 fun c hc => ?_
    obtain hnil | ⟨r, hr⟩ := hend
    · rw [hnil] at hc; cases hc
    · exact State.nextChoice_eq_none.1 (nextChoice_of_step_fault hr) c

end Sys2Proof.Machine
end

section
/-!
PROOFS. The places of the events agree with the threads, and the total order of the accesses keeps the guarantees of the
memory order, under both readings of `MemModel` (`spec/20_memory.md` rules R58, R59, R63).
-/

namespace Sys2Proof.Machine

open Sys2Proof Sys2Proof.Safety

/-! ## The places of the events -/

/-- Thread `i` has made its access at place `p`. -/
def State.executed (s : State) (i p : Nat) : Prop := ∃ q, s.placeAt i = some q ∧ p < q

/-- If the block has a thread `i`, it has made its accesses below place `q`. -/
def State.reached (s : State) (i q : Nat) : Prop := ∀ p, s.placeAt i = some p → q ≤ p

theorem State.reached_index (s : State) : s.reached s.index s.thread.place := fun p h => by
  cases h.symm.trans s.placeAt_index
  exact le_refl _

theorem State.reached_placeOf (s : State) (i : Nat) : s.reached i (s.placeOf i) := fun p h => by
  rw [s.placeOf_eq, h]
  exact le_refl _

theorem State.executed.lt_placeOf {s : State} {i p : Nat} (h : s.executed i p) : p < s.placeOf i := by
  obtain ⟨q, hq, hp⟩ := h
  rw [s.placeOf_eq, hq]
  exact hp

theorem State.placeOf_index (s : State) : s.placeOf s.index = s.thread.place := by
  rw [s.placeOf_eq, s.placeAt_index]
  rfl

/-- The places of the events and of the arrivals agree with the threads. -/
structure State.PlacesAgree (s : State) : Prop where
  accesses {i p a n old new} (h : Event.access i p a n old new ∈ s.history) : s.executed i p
  fences {i m lvl} (h : Event.fence i m lvl ∈ s.history) : s.reached i m
  arrived {b arrived released} (h : Event.release b arrived released ∈ s.history) {i q} (hq : (i, q) ∈ arrived) :
    s.reached i q
  released {b arrived released} (h : Event.release b arrived released ∈ s.history) {i q} (hq : (i, q) ∈ released) :
    s.reached i q
  arrivals (b : Fin 16) {i q} (hq : (i, q) ∈ s.barriers[b].arrivers) : s.reached i q

theorem State.executed_iff {s : State} {i p : Nat} :
    s.executed i p ↔ ∃ t, s.threadList[i]? = some t ∧ p < t.place := by
  simp only [State.executed, State.placeAt_eq_some]
  constructor
  · rintro ⟨q, ⟨t, ht, rfl⟩, hp⟩
    exact ⟨t, ht, hp⟩
  · rintro ⟨t, ht, hp⟩
    exact ⟨_, ⟨t, ht, rfl⟩, hp⟩

theorem State.reached_iff {s : State} {i q : Nat} :
    s.reached i q ↔ ∀ t, s.threadList[i]? = some t → q ≤ t.place := by
  simp only [State.reached, State.placeAt_eq_some]
  constructor
  · exact fun h t ht => h _ ⟨t, ht, rfl⟩
  · rintro h _ ⟨t, ht, rfl⟩
    exact h t ht

theorem memoryOrder_iff {s : State} : MemoryOrder s ↔ (∀ o, orderKept s.history o) ∧ s.PlacesAgree := by
  constructor
  · intro h
    refine ⟨h.kept, ⟨fun he => State.executed_iff.2 (h.accesses _ _ _ _ _ _ he),
      fun he => State.reached_iff.2 fun t ht => h.fences _ t ht _ _ he,
      fun he _ _ hq => State.reached_iff.2 fun t ht => (h.releases _ _ _ he _ t ht).2 _ hq,
      fun he _ _ hq => State.reached_iff.2 fun t ht => (h.releases _ _ _ he _ t ht).1 _ hq,
      fun b _ _ hq => State.reached_iff.2 fun t ht => h.arrivals b _ t _ ht hq⟩⟩
  · rintro ⟨hk, h⟩
    exact ⟨hk, fun _ _ _ _ _ _ he => State.executed_iff.1 (h.accesses he),
      fun _ t ht _ _ he => State.reached_iff.1 (h.fences he) t ht,
      fun _ _ _ he _ t ht => ⟨fun _ hq => State.reached_iff.1 (h.released he hq) t ht,
        fun _ hq => State.reached_iff.1 (h.arrived he hq) t ht⟩,
      fun b _ t _ ht hq => State.reached_iff.1 (h.arrivals b hq) t ht⟩

section
variable {s t : State} {c : Choice}

/-- A thread's place stays, or it makes one access. -/
theorem MemoryMove.placeAt_cases (hm : MemoryMove s c t) (i : Nat) :
    t.placeAt i = s.placeAt i ∨ ∃ p, s.placeAt i = some p ∧ t.placeAt i = some (p + 1) := by
  cases hm with
  | quiet hp => exact .inl (hp i)
  | arrives _ hp => exact .inl (hp i)
  | releases _ hp => exact .inl (hp i)
  | accesses _ _ _ hp =>
    by_cases hi : i = s.index
    · subst hi
      exact .inr ⟨_, s.placeAt_index, by rw [hp, if_pos rfl]⟩
    · exact .inl (by rw [hp, if_neg hi])

theorem MemoryMove.keepsExecuted (hm : MemoryMove s c t) {i p : Nat} (h : s.executed i p) : t.executed i p := by
  obtain ⟨q, hq, hp⟩ := h
  obtain he | ⟨q', hq', he⟩ := hm.placeAt_cases i
  · exact ⟨q, he.trans hq, hp⟩
  · cases hq.symm.trans hq'
    exact ⟨_, he, Nat.lt_succ_of_lt hp⟩

theorem MemoryMove.keepsReached (hm : MemoryMove s c t) {i q : Nat} (h : s.reached i q) : t.reached i q := by
  intro p hp
  obtain he | ⟨p', hp', he⟩ := hm.placeAt_cases i
  · exact h p (he.symm.trans hp)
  · cases hp.symm.trans he
    exact Nat.le_succ_of_le (h p' hp')

/-- An access of the history is an old one or the one that is made. -/
theorem MemoryMove.keepsAccesses (hm : MemoryMove s c t)
    (h : ∀ {i p a n old new}, Event.access i p a n old new ∈ s.history → s.executed i p) {i p a n : Nat}
    {old new : Wide} (he : Event.access i p a n old new ∈ t.history) : t.executed i p := by
  have hold (he : Event.access i p a n old new ∈ s.history) : t.executed i p := hm.keepsExecuted (h he)
  cases hm with
  | quiet _ _ _ hh => obtain hh | ⟨lvl, hh⟩ := hh <;> (rw [hh] at he; exact hold (by simpa using he))
  | arrives _ _ _ _ hh => exact hold (hh ▸ he)
  | releases _ _ _ _ hh => rw [hh] at he; exact hold (by simpa using he)
  | accesses _ x _ hp _ _ hh =>
    rw [hh, State.access_history, mem_insertEvent] at he
    obtain he | he := he
    · cases he
      exact ⟨_, by rw [hp, if_pos rfl], Nat.lt_succ_self _⟩
    · exact hold he

/-- A fence of the history is an old one or stands at its thread's next place. -/
theorem MemoryMove.fence_cases (hm : MemoryMove s c t) {i m : Nat} {lvl : Lvl}
    (he : Event.fence i m lvl ∈ t.history) :
    Event.fence i m lvl ∈ s.history ∨ i = s.index ∧ m = s.thread.place := by
  cases hm with
  | quiet _ _ _ hh =>
    obtain hh | ⟨lvl', hh⟩ := hh
    · exact .inl (hh ▸ he)
    · rw [hh] at he
      obtain he | he := List.mem_cons.1 he
      · cases he; exact .inr ⟨rfl, rfl⟩
      · exact .inl he
  | arrives _ _ _ _ hh => exact .inl (hh ▸ he)
  | releases _ _ _ _ hh => rw [hh] at he; exact .inl (by simpa using he)
  | accesses _ x _ _ _ _ hh => rw [hh] at he; exact .inl (by simpa [mem_insertEvent] using he)

/-- A release of the history is an old one or lists the arrivals with the next places of those it releases. -/
theorem MemoryMove.release_cases (hm : MemoryMove s c t) {b : Fin 16} {arrived released : List (Nat × Nat)}
    (he : Event.release b arrived released ∈ t.history) : Event.release b arrived released ∈ s.history ∨
      arrived = s.barriers[b].arrivers ∧ ∀ i q, (i, q) ∈ released → q = s.placeOf i := by
  cases hm with
  | quiet _ _ _ hh => obtain hh | ⟨lvl, hh⟩ := hh <;> (rw [hh] at he; exact .inl (by simpa using he))
  | arrives _ _ _ _ hh => exact .inl (hh ▸ he)
  | releases _ _ _ _ hh =>
    rw [hh] at he
    obtain he | he := List.mem_cons.1 he
    · cases he
      refine .inr ⟨rfl, fun i q hq => ?_⟩
      obtain ⟨j, -, hj⟩ := List.mem_map.1 hq
      cases hj
      rfl
    · exact .inl he
  | accesses _ x _ _ _ _ hh => rw [hh] at he; exact .inl (by simpa [mem_insertEvent] using he)

/-- An arriver of a barrier is an old one or the thread that steps at its next place. -/
theorem MemoryMove.arrivers_cases (hm : MemoryMove s c t) {b : Fin 16} {i q : Nat}
    (hq : (i, q) ∈ t.barriers[b].arrivers) :
    (i, q) ∈ s.barriers[b].arrivers ∨ i = s.index ∧ q = s.thread.place := by
  cases hm with
  | quiet _ hb => exact .inl (hb b ▸ hq)
  | arrives d _ hb =>
    rw [hb] at hq
    split at hq
    · next hd =>
      subst hd
      obtain hq | hq := List.mem_append.1 hq
      · exact .inl hq
      · cases List.mem_singleton.1 hq
        exact .inr ⟨rfl, rfl⟩
    · exact .inl hq
  | releases d _ hb =>
    rw [hb] at hq
    split at hq
    · cases hq
    · exact .inl hq
  | accesses _ _ _ _ hb => exact .inl (hb b ▸ hq)

theorem MemoryMove.keepsPlaces (hm : MemoryMove s c t) (h : s.PlacesAgree) : t.PlacesAgree where
  accesses := hm.keepsAccesses h.accesses
  fences he := by
    obtain he | ⟨rfl, rfl⟩ := hm.fence_cases he
    · exact hm.keepsReached (h.fences he)
    · exact hm.keepsReached s.reached_index
  arrived he _ _ hq := by
    obtain he | ⟨rfl, -⟩ := hm.release_cases he
    · exact hm.keepsReached (h.arrived he hq)
    · exact hm.keepsReached (h.arrivals _ hq)
  released he _ _ hq := by
    obtain he | ⟨-, hr⟩ := hm.release_cases he
    · exact hm.keepsReached (h.released he hq)
    · rw [hr _ _ hq]
      exact hm.keepsReached (s.reached_placeOf _)
  arrivals b _ _ hq := by
    obtain hq | ⟨rfl, rfl⟩ := hm.arrivers_cases hq
    · exact hm.keepsReached (h.arrivals b hq)
    · exact hm.keepsReached s.reached_index

end

/-! ## The order of the accesses -/

theorem pairwise_insertEvent {R : Event → Event → Prop} {k : Nat} {e : Event} {h : List Event} :
    (insertEvent k e h).Pairwise R ↔ h.Pairwise R ∧ (∀ f ∈ h.take k, R f e) ∧ ∀ f ∈ h.drop k, R e f := by
  have hsplit := List.pairwise_append (R := R) (l₁ := h.take k) (l₂ := h.drop k)
  rw [List.take_append_drop] at hsplit
  rw [insertEvent, List.pairwise_append, List.pairwise_cons, hsplit]
  simp only [List.forall_mem_cons, forall₂_and]
  tauto

/-- A fence or a release that stands after the accesses of a history orders none of them. -/
theorem orderKept_cons {h : List Event} {o : Observer} {e : Event} (he : ∀ f, guaranteed (e :: h) o e f = false)
    (hfence : ∀ t p a n x y k lvl, Event.access t p a n x y ∈ h → e = .fence t k lvl → p < k)
    (hrelease : ∀ t p a n x y b arrived released k, Event.access t p a n x y ∈ h →
      e = .release b arrived released → (t, k) ∈ released → p < k)
    (hk : orderKept h o) : orderKept (e :: h) o := by
  refine List.pairwise_cons.2 ⟨fun f _ => he f, List.Pairwise.imp_of_mem (fun {f g} _ hg hfg => ?_) hk⟩
  refine Bool.eq_false_iff.2 fun hc => ?_
  obtain ⟨t, p, a, n, x, y, u, q, b, m, x', y', rfl, rfl⟩ := guaranteed_accesses hc
  rw [← Bool.not_eq_true, guaranteed_iff] at hfg
  rw [guaranteed_iff] at hc
  refine hfg ?_
  obtain ⟨rfl, hpq, hc⟩ | ⟨d, arrived, released, k, l, hd, hka, hpk, hlr, hlq⟩ := hc
  · refine .inl ⟨rfl, hpq, hc.imp_right ?_⟩
    rintro ⟨k, lvl, hk, hcov, hpk, hkq⟩
    obtain hk | hk := List.mem_cons.1 hk
    · exact absurd (hfence _ _ _ _ _ _ _ _ hg hk.symm) (by omega)
    · exact ⟨k, lvl, hk, hcov, hpk, hkq⟩
  · obtain hd | hd := List.mem_cons.1 hd
    · exact absurd (hrelease _ _ _ _ _ _ _ _ _ _ hg hd.symm hlr) (by omega)
    · exact .inr ⟨d, arrived, released, k, l, hd, hka, hpk, hlr, hlq⟩

/-- Nothing orders an access at its thread's next place before one that was made. -/
theorem State.PlacesAgree.not_guaranteed {s : State} (h : s.PlacesAgree) {f : Event} (hf : f ∈ s.history)
    (o : Observer) (a n : Nat) (x y : Wide) :
    guaranteed s.history o (.access s.index s.thread.place a n x y) f = false := by
  refine Bool.eq_false_iff.2 fun hc => ?_
  obtain ⟨_, _, _, _, _, _, u, q, b, m, x', y', he, rfl⟩ := guaranteed_accesses hc
  cases he
  obtain ⟨hu, hlt, -⟩ | ⟨d, arrived, released, k, l, hd, hka, hlt, -⟩ := guaranteed_iff.1 hc
  · have hmade := (h.accesses hf).lt_placeOf
    rw [← hu, s.placeOf_index] at hmade
    omega
  · have := h.arrived hd hka _ s.placeAt_index
    omega

theorem MemoryMove.keepsOrder {s t : State} {c : Choice} (hm : MemoryMove s c t) (hp : s.PlacesAgree)
    (hk : ∀ o, orderKept s.history o) (o : Observer) : orderKept t.history o := by
  cases hm with
  | quiet _ _ _ hh =>
    obtain hh | ⟨lvl, hh⟩ := hh
    · rw [hh]; exact hk o
    · rw [hh]
      refine orderKept_cons (fun _ => rfl) (fun i p a n x y k l ha he => ?_) (fun _ _ _ _ _ _ _ _ _ _ _ he => ?_) (hk o)
      · cases he
        have hmade := (hp.accesses ha).lt_placeOf
        rwa [s.placeOf_index] at hmade
      · cases he
  | arrives _ _ _ _ hh => rw [hh]; exact hk o
  | releases b _ _ _ hh =>
    rw [hh]
    refine orderKept_cons (fun _ => rfl) (fun _ _ _ _ _ _ _ _ _ he => ?_)
      (fun i p a n x y d arrived released k ha he hr => ?_) (hk o)
    · cases he
    · cases he
      obtain ⟨j, -, hj⟩ := List.mem_map.1 hr
      cases hj
      exact (hp.accesses ha).lt_placeOf
  | accesses hc x hx _ _ _ hh =>
    rw [hh, State.access_history, orderKept]
    simp only [guaranteed_insert_access]
    refine pairwise_insertEvent.2 ⟨hk o, fun f hf => ?_, fun f hf => ?_⟩
    · refine Bool.eq_false_iff.2 fun hg => ?_
      have hstand := State.mayStand_iff.1 (hc.mayStand hx) f hf
      rw [guaranteed_values _ _ _ _ _ _ _ _ _ 0#64 0#64] at hg
      rw [guaranteed_block hg] at hstand
      cases hstand
    · exact hp.not_guaranteed (List.mem_of_mem_drop hf) o _ _ _ _

theorem memoryOrder_of_same {s u : State} (h : SameMachine s u) (hs : MemoryOrder s) : MemoryOrder u where
  kept := h.history ▸ hs.kept
  accesses := h.history ▸ h.threads ▸ hs.accesses
  fences := h.history ▸ h.threads ▸ hs.fences
  releases := h.history ▸ h.threads ▸ hs.releases
  arrivals := h.barriers ▸ h.threads ▸ hs.arrivals

/-- Settles O47, by what a step does to the history and the places. -/
theorem stepKeepsMemoryOrder : Obligations.StepKeepsMemoryOrder := by
  intro s t hs h
  obtain ⟨u, c, hu, hm⟩ := step_same_moved h
  obtain ⟨hk, hp⟩ := memoryOrder_iff.1 (memoryOrder_of_same hu hs)
  have hmove := moved_memoryMove hm
  exact memoryOrder_iff.2 ⟨hmove.keepsOrder hp hk, hmove.keepsPlaces hp⟩

/-! ## The stronger `MemModel` -/

/-- Two accesses of one thread stand in program order. -/
def inProgramOrder (later earlier : Event) : Prop :=
  ∀ i p a n x y q b m u v, later = .access i p a n x y → earlier = .access i q b m u v → q < p

theorem sequentialOrder_iff {s : State} : sequentialOrder s ↔ s.params.memModel = .sequential ∧
    (∀ i p a n old new, Event.access i p a n old new ∈ s.history → s.executed i p) ∧
    s.history.Pairwise inProgramOrder := by
  simp only [State.executed_iff]
  rfl

theorem MemoryMove.keepsProgramOrder {s t : State} {c : Choice} (hm : MemoryMove s c t)
    (hseq : s.params.memModel = .sequential)
    (ha : ∀ i p a n old new, Event.access i p a n old new ∈ s.history → s.executed i p)
    (h : s.history.Pairwise inProgramOrder) : t.history.Pairwise inProgramOrder := by
  cases hm with
  | quiet _ _ _ hh =>
    obtain hh | ⟨lvl, hh⟩ := hh
    · rw [hh]; exact h
    · rw [hh]; exact List.pairwise_cons.2 ⟨fun _ _ => nofun, h⟩
  | arrives _ _ _ _ hh => rw [hh]; exact h
  | releases _ _ _ _ hh => rw [hh]; exact List.pairwise_cons.2 ⟨fun _ _ => nofun, h⟩
  | accesses hc x _ _ _ _ hh =>
    rw [hh, State.access_history, hc.later_of_sequential hseq, insertEvent_zero]
    refine List.pairwise_cons.2 ⟨fun f hf => ?_, h⟩
    rintro i p a n x' y' q b m u v he rfl
    cases he
    have hmade := (ha _ _ _ _ _ _ hf).lt_placeOf
    rwa [s.placeOf_index] at hmade

theorem sequentialOrder_of_same {s u : State} (h : SameMachine s u) (hs : sequentialOrder s) : sequentialOrder u := by
  unfold Safety.sequentialOrder at *
  rw [h.params, h.history, h.threads]
  exact hs

/-- Settles O48: with the stronger `MemModel` an access stands last, at its thread's next place. -/
theorem stepKeepsSequentialOrder : Obligations.StepKeepsSequentialOrder := by
  refine ⟨fun s t hs h => ?_, fun s i k v hseq => Bool.eq_false_iff.2 fun he => ?_⟩
  · obtain ⟨u, c, hu, hm⟩ := step_same_moved h
    obtain ⟨hseq, ha, ho⟩ := sequentialOrder_iff.1 (sequentialOrder_of_same hu hs)
    have hmove := moved_memoryMove hm
    exact sequentialOrder_iff.2 ⟨(moved_launch hm).1 ▸ hseq,
      fun _ _ _ _ _ _ => hmove.keepsAccesses (ha _ _ _ _ _ _), hmove.keepsProgramOrder hseq ha ho⟩
  · obtain ⟨-, hplace⟩ := Bool.and_eq_true_iff.1 he
    have hrelaxed := (State.canPlace_iff.1 hplace).1
    rw [(s.ready_same (.placed i k v)).params, hseq] at hrelaxed
    cases hrelaxed

end Sys2Proof.Machine
end

section
/-!
PROOFS. An ATOM or RED that reaches its access, and what it does where the step places that access
(`spec/41_sync_atomic.md` rules R145 to R149, `spec/20_memory.md` rules R54, R58).
-/

namespace Sys2Proof.Machine

open Sys2Proof Sys2Proof.Safety

/-! ## The operation -/

theorem valid_of_admittedPair {op : AtomOp} {ty : AtomType} (h : admittedPair op ty = true) :
    op.valid = true ∧ ty.valid = true := by
  refine ⟨?_, ?_⟩
  · cases op with
    | invalid => cases ty <;> cases h
    | _ => rfl
  · cases ty with
    | invalid => cases op <;> cases h
    | _ => rfl

/-- Only `.CAS` looks at its last operand. -/
theorem atomApply_of_not_cas {op : AtomOp} (h : op ≠ .cas) (ty : AtomType) (old b c d : Wide) :
    atomApply op ty old b c = atomApply op ty old b d := by
  cases op with
  | cas => exact absurd rfl h
  | _ => rfl

/-! ## The request -/

theorem atomForm_of_shown {op : AtomOp} {ty : AtomType} {reg0 reg4 : RegIdx} (ha : admittedPair op ty = true)
    (h4 : reg4Ok op ty reg0 reg4 = true) : atomForm op ty reg0 reg4 = .ok () := by
  obtain ⟨hop, hty⟩ := valid_of_admittedPair ha
  simp [atomForm, hop, hty, ha, h4]

theorem redForm_of_shown {op : AtomOp} {ty : AtomType} (ha : admittedPair op ty = true) (he : op ≠ .exch)
    (hc : op ≠ .cas) : redForm op ty = .ok () := by
  obtain ⟨hop, hty⟩ := valid_of_admittedPair ha
  simp [redForm, hop, hty, ha, bne_iff_ne.2 he, bne_iff_ne.2 hc]

theorem State.checkAccess_of_allocated {s : State} {a n : Nat} (ha : a % n = 0) (hm : allocated s a n) :
    s.checkAccess a n = .ok () := by
  simp [State.checkAccess, ha, admits_iff_allocated.2 hm]

/-- The last operand of an ATOM: `reg4` for `.CAS`, none for another operation (rule R148). -/
def Thread.casOperand (t : Thread) (op : AtomOp) (ty : AtomType) (reg4 : RegIdx) : Wide :=
  if op = .cas then t.operandValue ty.isWide reg4 else 0#64

/-- What an operation answers does not depend on whether `reg4` is read where it is not `.CAS`. -/
theorem atomApply_casOperand (t : Thread) (op : AtomOp) (ty : AtomType) (reg4 : RegIdx) (old b : Wide) :
    atomApply op ty old b (t.casOperand op ty reg4) = atomApply op ty old b (t.operandValue ty.isWide reg4) := by
  unfold Thread.casOperand
  split
  · rfl
  · next h => exact atomApply_of_not_cas h ty old b _ _

/-- An ATOM that is ready and has a good address asks for its access. -/
theorem State.atomRequest_of_ready {s : State} {op : AtomOp} {ty : AtomType} {e : Bool} {reg3 reg1 : RegIdx}
    {imm20 : BitVec 20} {reg0 reg4 : RegIdx} {off : Wide} (h : atomReady op ty e reg3 reg1 imm20 reg0 reg4 off s)
    {a : Nat} (ha : a = effectiveAddress (s.params.dataWidth e) (s.thread.operandValue e reg1) off)
    (hal : a % ty.bytes = 0) (hm : allocated s a ty.bytes) :
    s.atomRequest op ty e reg3 reg1 imm20 reg0 reg4 =
      .ok ⟨a, op, ty, s.thread.operandValue ty.isWide reg0, s.thread.casOperand op ty reg4⟩ := by
  obtain ⟨hpair, h4, hoff, ho1, ho0, hoc, ho3, hr1, hr0, hrc⟩ := h
  have hcas : (op != .cas || operandOk ty.isWide reg4) = true := by
    by_cases hcas : op = .cas
    · simp [hoc hcas]
    · simp [hcas]
  simp only [State.atomRequest, atomForm_of_shown hpair h4, hoff, ho1, ho0, hcas, ho3,
    Thread.readOperand_of_readable hr1, Thread.readOperand_of_readable hr0, checkRefuse_true, except_ok_bind, ← ha,
    State.checkAccess_of_allocated hal hm, Thread.casOperand]
  split
  · next h => rw [Thread.readOperand_of_readable (hrc h)]; rfl
  · rfl

/-- A RED that is ready and has a good address asks for its access. -/
theorem State.redRequest_of_ready {s : State} {op : AtomOp} {ty : AtomType} {e : Bool} {reg1 : RegIdx}
    {imm32 : BitVec 32} {reg0 : RegIdx} {off : Wide} (h : redReady op ty e reg1 imm32 reg0 off s) {a : Nat}
    (ha : a = effectiveAddress (s.params.dataWidth e) (s.thread.operandValue e reg1) off) (hal : a % ty.bytes = 0)
    (hm : allocated s a ty.bytes) :
    s.redRequest op ty e reg1 imm32 reg0 = .ok ⟨a, op, ty, s.thread.operandValue ty.isWide reg0, 0#64⟩ := by
  obtain ⟨hpair, hex, hcas, hoff, ho1, ho0, hr1, hr0⟩ := h
  simp only [State.redRequest, redForm_of_shown hpair hex hcas, hoff, ho1, ho0, Thread.readOperand_of_readable hr1,
    Thread.readOperand_of_readable hr0, checkRefuse_true, except_ok_bind, ← ha, State.checkAccess_of_allocated hal hm]

/-! ## A placed access -/

theorem State.later_placed {s : State} {k : Nat} {v : Wide} (h : s.placing = some ⟨k, v⟩) : s.later = k := by
  simp [State.later, h]

/-- A placed access reads what the step says, as wide as its type. -/
theorem State.valueRead_placed {s : State} {k : Nat} {v : Wide} (h : s.placing = some ⟨k, v⟩) (a : Nat)
    (ty : AtomType) : s.valueRead a ty.bytes = if ty.isWide then v else (v.setWidth 32).setWidth 64 := by
  unfold State.valueRead AtomType.bytes
  rw [h]
  cases ty.isWide <;> simp [lowBytes]

/-- Settles O53: the access that is asked for is made where the step places it. -/
theorem placedAccessesStandInTheOrder : Obligations.PlacedAccessesStandInTheOrder := by
  refine ⟨fun s op ty e reg3 reg1 imm20 reg0 reg4 off v a k old new h hp ha hal hm hold hnew => ?_,
    fun s op ty e reg1 imm32 reg0 off v a k old new h hp ha hal hm hold hnew => ?_⟩
  · rw [← State.valueRead_placed hp a] at hold
    rw [← atomApply_casOperand] at hnew
    subst hold hnew
    refine ⟨_, ?_, State.writeUnder_shows hp a ty.bytes _⟩
    simp only [exec, execAtom, State.atomRequest_of_ready h ha hal hm, except_ok_bind, outcome_ok, State.atomAccess_eq,
      State.later_placed hp]
    rfl
  · rw [← State.valueRead_placed hp a] at hold
    subst hold hnew
    refine ⟨_, ?_, State.writeUnder_shows hp a ty.bytes _⟩
    simp only [exec, execRed, State.redRequest_of_ready h ha hal hm, except_ok_bind, outcome_ok, State.redAccess_eq,
      State.later_placed hp]
    rfl

end Sys2Proof.Machine
end

section
/-!
PROOFS. A word is its fields: the row of fields of each format (`spec/30_encoding.md` rules R76 to R88), the decoder and
the encoder field by field (rules R89 to R91), the PTX spellings (rule R97), and the step of a word without an
instruction (`spec/60_exceptions.md` rules R180, R182).
-/

namespace Sys2Proof

open Sys2Proof Sys2Proof.Safety

/-! ## Rows of fields -/

/-- Two rows of fields of the same widths are equal exactly where their parts are. -/
theorem append_eq_append_iff {v k : Nat} {x x' : BitVec v} {y y' : BitVec k} :
    x ++ y = x' ++ y' ↔ x = x' ∧ y = y' := by
  refine ⟨fun h => ⟨?_, ?_⟩, fun ⟨hx, hy⟩ => hx ▸ hy ▸ rfl⟩
  · simpa only [BitVec.extractLsb'_append_eq_left] using congrArg (BitVec.extractLsb' k v) h
  · simpa only [BitVec.extractLsb'_append_eq_right] using congrArg (BitVec.extractLsb' 0 k) h

/-- A field is a row of two fields exactly where its upper and its lower part are these. -/
theorem field_eq_append_iff {v k : Nat} {w : InstrWord} {lo : Nat} {x : BitVec v} {y : BitVec k} :
    field w lo (v + k) = x ++ y ↔ field w (lo + k) v = x ∧ field w lo k = y := by
  have hw : field w (lo + k) v ++ field w lo k = field w lo (v + k) :=
    BitVec.extractLsb'_append_extractLsb'_eq_extractLsb' (by omega)
  rw [← hw, append_eq_append_iff]

/-- A row of fields of 64 bits is a word exactly where the whole field of the word is this row. -/
theorem wordOf_eq_iff {n : Nat} {x : BitVec n} {w : InstrWord} (h : n = 64) : wordOf x = w ↔ field w 0 n = x := by
  subst h
  simp only [wordOf, field, BitVec.setWidth_eq, BitVec.extractLsb'_eq_self, eq_comm]

section
variable {w : InstrWord}

/-! ## Operands and modifiers, read and written -/

theorem flag_eq_iff {lo : Nat} {b : Bool} : flag w lo = b ↔ field w lo 1 = bit b := by
  unfold flag
  generalize field w lo 1 = v
  revert v b
  decide

theorem flowTarget_eq_iff {t : FlowTarget} :
    flowTarget w = t ↔ field w 14 1 = bit t.isConst ∧ field w 26 24 = t.bits := by
  rw [← flag_eq_iff]
  cases t <;> cases h : flag w 14 <;> simp [flowTarget, FlowTarget.isConst, FlowTarget.bits, h]

theorem barSrc_eq_iff {b : BarSrc} :
    barSrc w = b ↔ field w 47 1 = bit b.isImm ∧ field w 20 6 = b.bits := by
  rw [← flag_eq_iff]
  cases b <;> cases h : flag w 47 <;> simp [barSrc, BarSrc.isImm, BarSrc.bits, h]

theorem countSrc_eq_iff {t : CountSrc} :
    countSrc w = t ↔ field w 46 1 = bit t.isImm ∧ field w 26 12 = t.bits := by
  rw [← flag_eq_iff]
  cases t with
  | reg r upper =>
    have hbits := field_eq_append_iff (w := w) (lo := 26) (x := upper) (y := r)
    cases h : flag w 46 <;> simp [countSrc, CountSrc.isImm, CountSrc.bits, h, hbits, and_comm]
  | imm v => cases h : flag w 46 <;> simp [countSrc, CountSrc.isImm, CountSrc.bits, h]

theorem CCop.ofCode_eq_iff {v : BitVec 5} {c : CCop} : CCop.ofCode v = c ↔ v = c.code :=
  ⟨fun h => h ▸ (CCop.code_ofCode v).symm, fun h => h ▸ CCop.ofCode_code c⟩

theorem RedOp.ofCode_eq_iff {v : BitVec 2} {c : RedOp} : RedOp.ofCode v = c ↔ v = c.code :=
  ⟨fun h => h ▸ (RedOp.code_ofCode v).symm, fun h => h ▸ RedOp.ofCode_code c⟩

theorem Lvl.ofCode_eq_iff {v : BitVec 2} {c : Lvl} : Lvl.ofCode v = c ↔ v = c.code :=
  ⟨fun h => h ▸ (Lvl.code_ofCode v).symm, fun h => h ▸ Lvl.ofCode_code c⟩

theorem PredSrc.ofCode_eq_iff {v : BitVec 4} {c : PredSrc} : PredSrc.ofCode v = c ↔ v = c.code :=
  ⟨fun h => h ▸ (PredSrc.code_ofCode v).symm, fun h => h ▸ PredSrc.ofCode_code c⟩

theorem NopOp.ofCode_eq_iff {v : BitVec 4} {c : NopOp} : NopOp.ofCode v = c ↔ c.wellFormed = true ∧ v = c.code :=
  ⟨fun h => h ▸ ⟨NopOp.ofCode_wellFormed v, (NopOp.code_ofCode v).symm⟩, fun ⟨hc, h⟩ => h ▸ NopOp.ofCode_code hc⟩

theorem AtomOp.ofCode_eq_iff {v : BitVec 4} {c : AtomOp} : AtomOp.ofCode v = c ↔ c.wellFormed = true ∧ v = c.code :=
  ⟨fun h => h ▸ ⟨AtomOp.ofCode_wellFormed v, (AtomOp.code_ofCode v).symm⟩, fun ⟨hc, h⟩ => h ▸ AtomOp.ofCode_code hc⟩

theorem AtomType.ofCode_eq_iff {v : BitVec 4} {c : AtomType} :
    AtomType.ofCode v = c ↔ c.wellFormed = true ∧ v = c.code :=
  ⟨fun h => h ▸ ⟨AtomType.ofCode_wellFormed v, (AtomType.code_ofCode v).symm⟩,
    fun ⟨hc, h⟩ => h ▸ AtomType.ofCode_code hc⟩

theorem VoteMode.ofCode_eq_iff {v : BitVec 3} {c : VoteMode} :
    VoteMode.ofCode v = c ↔ c.wellFormed = true ∧ v = c.code :=
  ⟨fun h => h ▸ ⟨VoteMode.ofCode_wellFormed v, (VoteMode.code_ofCode v).symm⟩,
    fun ⟨hc, h⟩ => h ▸ VoteMode.ofCode_code hc⟩

theorem mod3_eq_iff {ty : AtomType} :
    mod3 w = ty.code ↔ field w 59 3 = ty.t321 ∧ field w 9 1 = ty.t0 := by
  rw [← AtomType.t321_append_t0, mod3, append_eq_append_iff]

theorem imm20_eq_iff {v : BitVec 20} : field w 55 3 ++ field w 26 17 = v ↔
    field w 55 3 = v.extractLsb' 17 3 ∧ field w 26 17 = v.extractLsb' 0 17 := by
  rw [← append_eq_append_iff, imm20_append]

/-- The drawn bits of a flow instruction that has no condition. -/
theorem field_4_6_eq_zero_iff : field w 4 6 = 0#6 ↔ field w 5 5 = 0#5 ∧ field w 4 1 = 0#1 :=
  field_eq_append_iff (w := w) (lo := 4) (x := 0#5) (y := 0#1)

/-- The bits above a flow instruction's `c` hold its modifiers in the order of the format. -/
theorem field_15_5_eq_append_iff {a : BitVec 3} {b c : BitVec 1} : field w 15 5 = a ++ b ++ c ↔
    field w 17 3 = a ∧ field w 16 1 = b ∧ field w 15 1 = c :=
  (field_eq_append_iff (x := a ++ b) (y := c)).trans
    ((and_congr_left' (field_eq_append_iff (x := a) (y := b))).trans and_assoc)

/-- PRET has its flag one bit lower than CAL. -/
theorem field_15_5_eq_pret_iff {inc : BitVec 1} : field w 15 5 = 0#4 ++ inc ↔
    field w 16 4 = 0#4 ∧ field w 15 1 = inc :=
  field_eq_append_iff (x := 0#4) (y := inc)

/-! ## The formats -/

/-- Format NOARG (rule R78). -/
theorem encodeNoArg_eq_iff {id : BitVec 6} {ccop : CCop} : encodeNoArg id ccop = w ↔
    field w 58 6 = id ∧ field w 14 44 = 0#44 ∧ field w 10 4 = 7#4 ∧ field w 5 5 = ccop.code ∧ field w 4 1 = 0#1 ∧
      field w 0 4 = 7#4 := by
  rw [encodeNoArg, wordOf_eq_iff (by decide)]
  simp only [field_eq_append_iff, and_assoc]

/-- Format FLOW24 (rules R76, R77). -/
theorem encodeFlow_eq_iff {id : BitVec 6} {t : FlowTarget} {mods cc : BitVec 5} {third : BitVec 4} :
    encodeFlow id t mods third cc = w ↔
      field w 58 6 = id ∧ field w 50 8 = 0#8 ∧ field w 26 24 = t.bits ∧ field w 20 6 = 0#6 ∧ field w 15 5 = mods ∧
        field w 14 1 = bit t.isConst ∧ field w 10 4 = third ∧ field w 5 5 = cc ∧ field w 4 1 = 0#1 ∧
        field w 0 4 = 7#4 := by
  rw [encodeFlow, wordOf_eq_iff (by decide)]
  simp only [field_eq_append_iff, and_assoc]

/-- Format BAR (rule R80). -/
theorem encodeBar_eq_iff {arv : Bool} {redop : RedOp} {reg0 : RegIdx} {bar : BarSrc} {tcount : CountSrc} {c : PredSrc}
    {p : PredIdx} : encodeBar arv redop reg0 bar tcount c p = w ↔
      field w 58 6 = 0x14#6 ∧ field w 56 2 = 0#2 ∧ field w 53 3 = p ∧ field w 49 4 = c.code ∧ field w 48 1 = 0#1 ∧
        field w 47 1 = bit bar.isImm ∧ field w 46 1 = bit tcount.isImm ∧ field w 38 8 = 0#8 ∧
        field w 26 12 = tcount.bits ∧ field w 20 6 = bar.bits ∧ field w 14 6 = reg0 ∧ field w 10 4 = 7#4 ∧
        field w 8 2 = 0#2 ∧ field w 7 1 = bit arv ∧ field w 5 2 = redop.code ∧ field w 4 1 = 0#1 ∧
        field w 0 4 = 4#4 := by
  rw [encodeBar, wordOf_eq_iff (by decide)]
  simp only [field_eq_append_iff, and_assoc]

/-- Format NOP (rule R79). -/
theorem encode_nop_eq_iff {ccop : CCop} {s trig : Bool} {op : NopOp} {imm16 : BitVec 16} :
    encode (.nop ccop s trig op imm16) = w ↔
      field w 58 6 = 0x10#6 ∧ field w 55 3 = 0#3 ∧ field w 51 4 = op.code ∧ field w 50 1 = bit trig ∧
        field w 42 8 = 0#8 ∧ field w 26 16 = imm16 ∧ field w 14 12 = 0#12 ∧ field w 10 4 = 7#4 ∧
        field w 5 5 = ccop.code ∧ field w 4 1 = bit s ∧ field w 0 4 = 4#4 := by
  rw [encode, wordOf_eq_iff (by decide)]
  simp only [field_eq_append_iff, and_assoc]

/-- Format MEMBAR (rule R81). -/
theorem encode_membar_eq_iff {lvl : Lvl} : encode (.membar lvl) = w ↔
    field w 58 6 = 0x38#6 ∧ field w 14 44 = 0#44 ∧ field w 10 4 = 7#4 ∧ field w 7 3 = 0#3 ∧ field w 5 2 = lvl.code ∧
      field w 4 1 = 0#1 ∧ field w 0 4 = 5#4 := by
  rw [encode, wordOf_eq_iff (by decide)]
  simp only [field_eq_append_iff, and_assoc]

/-- Format ATOM (rules R82, R86). -/
theorem encode_atom_eq_iff {op : AtomOp} {ty : AtomType} {e : Bool} {reg3 reg1 : RegIdx} {imm20 : BitVec 20}
    {reg0 reg4 : RegIdx} : encode (.atom op ty e reg3 reg1 imm20 reg0 reg4) = w ↔
      field w 62 2 = 1#2 ∧ field w 59 3 = ty.t321 ∧ field w 58 1 = bit e ∧ field w 55 3 = imm20.extractLsb' 17 3 ∧
        field w 49 6 = reg4 ∧ field w 43 6 = reg3 ∧ field w 26 17 = imm20.extractLsb' 0 17 ∧ field w 20 6 = reg1 ∧
        field w 14 6 = reg0 ∧ field w 10 4 = 7#4 ∧ field w 9 1 = ty.t0 ∧ field w 5 4 = op.code ∧ field w 4 1 = 0#1 ∧
        field w 0 4 = 5#4 := by
  rw [encode, wordOf_eq_iff (by decide)]
  simp only [field_eq_append_iff, and_assoc]

/-- Format RED (rules R83, R87). -/
theorem encode_red_eq_iff {op : AtomOp} {ty : AtomType} {e : Bool} {reg1 : RegIdx} {imm32 : BitVec 32}
    {reg0 : RegIdx} : encode (.red op ty e reg1 imm32 reg0) = w ↔
      field w 62 2 = 0#2 ∧ field w 59 3 = ty.t321 ∧ field w 58 1 = bit e ∧ field w 26 32 = imm32 ∧
        field w 20 6 = reg1 ∧ field w 14 6 = reg0 ∧ field w 10 4 = 7#4 ∧ field w 9 1 = ty.t0 ∧
        field w 5 4 = op.code ∧ field w 4 1 = 0#1 ∧ field w 0 4 = 5#4 := by
  rw [encode, wordOf_eq_iff (by decide)]
  simp only [field_eq_append_iff, and_assoc]

/-- Format VOTE (rule R84). -/
theorem encode_vote_eq_iff {mode : VoteMode} {reg0 : RegIdx} {p1 : PredSrc} {imm28 : BitVec 28} {p0 : PredIdx} :
    encode (.vote mode reg0 p1 imm28 p0) = w ↔
      field w 58 6 = 0x12#6 ∧ field w 57 1 = 0#1 ∧ field w 54 3 = p0 ∧ field w 26 28 = imm28 ∧ field w 24 2 = 0#2 ∧
        field w 20 4 = p1.code ∧ field w 14 6 = reg0 ∧ field w 10 4 = 7#4 ∧ field w 8 2 = 0#2 ∧
        field w 5 3 = mode.code ∧ field w 4 1 = 0#1 ∧ field w 0 4 = 4#4 := by
  rw [encode, wordOf_eq_iff (by decide)]
  simp only [field_eq_append_iff, and_assoc]

/-! ## The rows of the decoder -/

/-- The bits that rule R75 gives a row. -/
def Row.identifies (w : InstrWord) : Row → Prop
  | .ssy => field w 0 4 = 7#4 ∧ field w 58 6 = 0x18#6
  | .bra => field w 0 4 = 7#4 ∧ field w 58 6 = 0x10#6
  | .cal => field w 0 4 = 7#4 ∧ field w 58 6 = 0x14#6
  | .pret => field w 0 4 = 7#4 ∧ field w 58 6 = 0x1E#6
  | .ret => field w 0 4 = 7#4 ∧ field w 58 6 = 0x24#6
  | .exit => field w 0 4 = 7#4 ∧ field w 58 6 = 0x20#6
  | .nop => field w 0 4 = 4#4 ∧ field w 58 6 = 0x10#6
  | .pbk => field w 0 4 = 7#4 ∧ field w 58 6 = 0x1A#6
  | .brk => field w 0 4 = 7#4 ∧ field w 58 6 = 0x2A#6
  | .pcnt => field w 0 4 = 7#4 ∧ field w 58 6 = 0x1C#6
  | .cont => field w 0 4 = 7#4 ∧ field w 58 6 = 0x2C#6
  | .bar => field w 0 4 = 4#4 ∧ field w 58 6 = 0x14#6
  | .membar => field w 0 4 = 5#4 ∧ field w 58 6 = 0x38#6
  | .atom => field w 0 4 = 5#4 ∧ field w 62 2 = 1#2
  | .red => field w 0 4 = 5#4 ∧ field w 62 2 = 0#2
  | .vote => field w 0 4 = 4#4 ∧ field w 58 6 = 0x12#6

/-- MEMBAR's bits are neither ATOM's nor RED's. -/
theorem field_62_2_of_membar (h : field w 58 6 = 0x38#6) : field w 62 2 = 3#2 :=
  (field_eq_append_iff (x := 3#2) (y := 8#4).1 (h.trans (by decide))).1

/-- The identifying bits of two rows never agree, so the order in which they are looked at does not matter. -/
theorem identify_eq_some_iff {r : Row} : identify w = some r ↔ r.identifies w := by
  constructor
  · intro h
    unfold identify at h
    repeat' split at h
    all_goals cases h
    all_goals simp_all [Row.identifies, ← BitVec.toNat_inj]
  · intro h
    cases r <;> obtain ⟨hlow, hid⟩ := h
    case membar => simp [identify, hlow, field_62_2_of_membar hid, hid]
    all_goals simp [identify, hlow, hid]

/-- The decoder on a word of a row. -/
theorem decode_of_identifies {r : Row} (h : r.identifies w) :
    decode w = if asDrawn w r = true then .ok (operands w r) else .error .notShown := by
  rw [decode, identify_eq_some_iff.2 h]

theorem decode_eq_unknownOpcode_iff : decode w = .error .unknownOpcode ↔ ∀ r : Row, ¬r.identifies w := by
  constructor
  · intro h r hr
    rw [decode_of_identifies hr] at h
    split at h <;> cases h
  · intro h
    simp only [← identify_eq_some_iff, ← Option.eq_none_iff_forall_ne_some] at h
    rw [decode, h]

theorem operands_row (w : InstrWord) (r : Row) : (operands w r).row = r := by
  cases r with
  | bar => simp only [operands]; split <;> rfl
  | _ => rfl

theorem decode_eq_ok_iff {i : Instr} :
    decode w = .ok i ↔ i.row.identifies w ∧ asDrawn w i.row = true ∧ operands w i.row = i := by
  constructor
  · intro h
    obtain ⟨r, hr⟩ : ∃ r : Row, r.identifies w := by
      by_contra hnone
      rw [decode_eq_unknownOpcode_iff.2 (not_exists.1 hnone)] at h
      cases h
    rw [decode_of_identifies hr] at h
    split at h
    · next hd =>
      cases h
      rw [operands_row]
      exact ⟨hr, hd, rfl⟩
    · cases h
  · rintro ⟨hr, hd, ho⟩
    rw [decode_of_identifies hr, if_pos hd, ho]

/-- A row's identifying bits, its fixed bits and its operands are the fields of the row the encoder writes: both sides
are the same equations of fields, in the decoder's order and in the encoder's. -/
theorem fields_iff_encode {i : Instr} :
    (i.row.identifies w ∧ asDrawn w i.row = true ∧ operands w i.row = i) ↔ i.wellFormed = true ∧ encode i = w := by
  cases i <;>
    simp only [Instr.row, Row.identifies, asDrawn, operands, Bool.and_eq_true, beq_iff_eq, Instr.wellFormed, true_and]
  case ssy | cal | pret | pbk | pcnt | bra =>
    simp only [encode, encodeFlow_eq_iff, flowTarget_eq_iff, ccopField, CCop.ofCode_eq_iff, flag_eq_iff,
      field_4_6_eq_zero_iff, field_15_5_eq_append_iff, field_15_5_eq_pret_iff, Bool.not_eq_eq_eq_not, Instr.ssy.injEq,
      Instr.cal.injEq, Instr.pret.injEq, Instr.pbk.injEq, Instr.pcnt.injEq, Instr.bra.injEq]
    tauto
  case ret | exit | brk | cont =>
    simp only [encode, encodeNoArg_eq_iff, ccopField, CCop.ofCode_eq_iff, Instr.ret.injEq, Instr.exit.injEq,
      Instr.brk.injEq, Instr.cont.injEq]
    tauto
  case nop =>
    simp only [encode_nop_eq_iff, ccopField, CCop.ofCode_eq_iff, flag_eq_iff, NopOp.ofCode_eq_iff, Instr.nop.injEq]
    tauto
  case barRed | barArv =>
    simp only [encode, encodeBar_eq_iff, RedOp.ofCode_eq_iff, barSrc_eq_iff, countSrc_eq_iff, PredSrc.ofCode_eq_iff,
      ite_eq_iff, reduceCtorEq, and_false, false_or, or_false, ← flag_eq_iff, Bool.not_eq_true, Instr.barRed.injEq,
      Instr.barArv.injEq]
    tauto
  case membar =>
    simp only [encode_membar_eq_iff, Lvl.ofCode_eq_iff, Instr.membar.injEq]
    tauto
  case atom =>
    simp only [encode_atom_eq_iff, AtomOp.ofCode_eq_iff, AtomType.ofCode_eq_iff, mod3_eq_iff, imm20_eq_iff, flag_eq_iff,
      Instr.atom.injEq]
    tauto
  case red =>
    simp only [encode_red_eq_iff, AtomOp.ofCode_eq_iff, AtomType.ofCode_eq_iff, mod3_eq_iff, flag_eq_iff,
      Instr.red.injEq]
    tauto
  case vote =>
    simp only [encode_vote_eq_iff, VoteMode.ofCode_eq_iff, PredSrc.ofCode_eq_iff, Instr.vote.injEq]
    tauto

/-- The decoder answers with an instruction exactly for the word that the encoder writes for it. -/
theorem decode_eq_ok_iff_encode {i : Instr} : decode w = .ok i ↔ i.wellFormed = true ∧ encode i = w :=
  decode_eq_ok_iff.trans fields_iff_encode

end

/-- Settles O1: the word of an instruction has the fields that the decoder reads for it. -/
theorem decodeEncode : Obligations.DecodeEncode := fun _ h => decode_eq_ok_iff_encode.2 ⟨h, rfl⟩

/-- Settles O2: the fields that the decoder reads are all the fields of the word. -/
theorem encodeDecode : Obligations.EncodeDecode := fun _ _ h => decode_eq_ok_iff_encode.1 h

/-! ## Fields at their places -/

@[simp] theorem field_or (v w : InstrWord) (lo len : Nat) :
    field (v ||| w) lo len = field v lo len ||| field w lo len := BitVec.extractLsb'_or

@[simp] theorem field_ofNat (n : Nat) {lo len : Nat} (h : lo + len ≤ 64) :
    field (BitVec.ofNat 64 n) lo len = BitVec.ofNat len (n >>> lo) := by
  ext i hi
  have hlo : lo + i < 64 := by omega
  rw [field, BitVec.getElem_extractLsb', ← BitVec.getLsbD_eq_getElem hi]
  simp only [BitVec.getLsbD_ofNat, Nat.testBit_shiftRight, hlo, hi]

@[simp] theorem field_placed_same {n : Nat} (v : BitVec n) {lo : Nat} (h : lo + n ≤ 64) :
    field (placed lo v) lo n = v := by
  ext i hi
  have hlo : lo + i < 64 := by omega
  simp [field, placed, BitVec.getLsbD_eq_getElem hi, hlo]

@[simp] theorem field_placed_other {n : Nat} (v : BitVec n) {lo lo' len : Nat} (h : lo' + n ≤ lo ∨ lo + len ≤ lo') :
    field (placed lo' v) lo len = 0#len := by
  ext i hi
  simp only [field, placed, BitVec.getElem_extractLsb', BitVec.getLsbD_shiftLeft, BitVec.getLsbD_setWidth,
    BitVec.getElem_zero]
  obtain h | h := h
  · simp [BitVec.getLsbD_of_ge v (lo + i - lo') (by omega)]
  · simp [show lo + i < lo' by omega]

/-- Settles O3: both sides have the same fields. -/
theorem fieldsFollowTheFormats : Obligations.FieldsFollowTheFormats := by
  refine ⟨fun t => ?_, fun ccop => ?_, fun ccop s trig op imm16 => ?_, fun redop reg0 bar tcount c p => ?_,
    fun lvl => ?_, fun op ty e reg3 reg1 imm20 reg0 reg4 => ?_, fun op ty e reg1 imm32 reg0 => ?_,
    fun mode reg0 p1 imm28 p0 => ?_, by decide, rfl, rfl, rfl, rfl, rfl, rfl, fun _ _ => rfl⟩
  · simp only [encode, encodeFlow_eq_iff, field_15_5_eq_append_iff, field_15_5_eq_pret_iff]
    simp (disch := decide)
  · simp only [encode, encodeNoArg_eq_iff]
    simp (disch := decide)
  · simp (disch := decide) [encode_nop_eq_iff]
  · simp only [encode, encodeBar_eq_iff]
    simp (disch := decide) [bit]
  · simp (disch := decide) [encode_membar_eq_iff]
  · simp (disch := decide) [encode_atom_eq_iff, AtomType.t321, AtomType.t0]
  · simp (disch := decide) [encode_red_eq_iff, AtomType.t321, AtomType.t0]
  · simp (disch := decide) [encode_vote_eq_iff]

/-! ## The PTX spellings (rule R97) -/

theorem fields_of_barRed {redop : RedOp} {reg0 : RegIdx} {bar : BarSrc} {tcount : CountSrc} {c : PredSrc}
    {p : PredIdx} : let w := encode (.barRed redop reg0 bar tcount c p)
    field w 7 1 = 0#1 ∧ field w 5 2 = redop.code ∧ field w 14 6 = reg0 ∧ field w 49 4 = c.code ∧ field w 53 3 = p := by
  intro w
  obtain ⟨-, -, hp, hc, -, -, -, -, -, -, hreg0, -, -, hkind, hredop, -⟩ := encodeBar_eq_iff.1 (rfl : _ = w)
  exact ⟨hkind, hredop, hreg0, hc, hp⟩

theorem fields_of_barArv {redop : RedOp} {reg0 : RegIdx} {bar : BarSrc} {tcount : CountSrc} {c : PredSrc}
    {p : PredIdx} : let w := encode (.barArv redop reg0 bar tcount c p)
    field w 7 1 = 1#1 ∧ field w 20 6 = bar.bits ∧ field w 26 12 = tcount.bits := by
  intro w
  obtain ⟨-, -, -, -, -, -, -, -, hcount, hbar, -, -, -, hkind, -⟩ := encodeBar_eq_iff.1 (rfl : _ = w)
  exact ⟨hkind, hbar, hcount⟩

theorem fields_of_vote {mode : VoteMode} {reg0 : RegIdx} {p1 : PredSrc} {imm28 : BitVec 28} {p0 : PredIdx} :
    let w := encode (.vote mode reg0 p1 imm28 p0)
    field w 5 3 = mode.code ∧ field w 14 6 = reg0 ∧ field w 20 4 = p1.code ∧ field w 54 3 = p0 := by
  intro w
  obtain ⟨-, -, hp0, -, -, hp1, hreg0, -, -, hmode, -⟩ := encode_vote_eq_iff.1 (rfl : _ = w)
  exact ⟨hmode, hreg0, hp1, hp0⟩

/-- Settles O7: each spelling is one BAR or VOTE, whose fields are its operands. -/
theorem ptxSpellingsFixTheirFields : Obligations.PtxSpellingsFixTheirFields := by
  refine ⟨fun _ _ => fields_of_barRed, fun _ _ _ _ => fields_of_barRed, ?_, fun _ _ => fields_of_barArv,
    fun _ _ _ => fields_of_vote, rfl, fun _ _ => fields_of_vote⟩
  rintro p bar tcount c _ (rfl | rfl) <;> exact fields_of_barRed

end Sys2Proof

namespace Sys2Proof.Machine

open Sys2Proof Sys2Proof.Safety

/-- A thread that fetches a word without an instruction stops with the decoder's refusal. -/
theorem State.stepThread_of_undecodable {s : State} {w : InstrWord} {e : DecodeError} (hf : fetches s w)
    (hd : decode w = .error e) : s.stepThread = s.stopThread (some w) (.refusal (decodeRefusal e)) := by
  obtain ⟨-, hp, bs, hb, hw⟩ := hf
  simp only [State.stepThread, State.fetch_of_bytes hp hb, hw, decodeOrRefuse, hd]

/-- Settles O12: the decoder's error is the refusal that the thread stops with. -/
theorem undecodableWordStopsTheThread : Obligations.UndecodableWordStopsTheThread := by
  intro s u w hm hf
  rw [threadMoves_step hm]
  exact ⟨fun hd => congrArg _ (State.stepThread_of_undecodable hf hd),
    fun hd => congrArg _ (State.stepThread_of_undecodable hf hd)⟩

end Sys2Proof.Machine
end

section
/-!
PROOFS. The opcode table and the decoder's rows: a row's masks compare the fields that the decoder looks at
(`spec/30_encoding.md` rules R75, R89 to R91; `spec/95_test_vectors.md` section 2.2).
-/

namespace Sys2Proof

open Sys2Proof Sys2Proof.Safety

section
variable {w m m' v v' : InstrWord}

/-! ## Fields and masks -/

/-- A field is read by a mask over its bits. -/
theorem field_eq_iff_mask {lo len : Nat} {x : BitVec len} (h : lo + len ≤ 64) :
    field w lo len = x ↔ w &&& placed lo (BitVec.allOnes len) = placed lo x := by
  constructor
  · rintro rfl
    ext i hi
    by_cases hlo : i < lo
    · simp [field, placed, hlo]
    · simp [field, placed, hlo, Nat.add_sub_cancel' (Nat.le_of_not_lt hlo), BitVec.getLsbD_eq_getElem hi, Bool.and_comm]
  · intro hw
    ext i hi
    have hbit := congrArg (BitVec.getLsbD · (lo + i)) hw
    have hlo : lo + i < 64 := by omega
    simpa [field, placed, hlo, hi, BitVec.getLsbD_eq_getElem] using hbit

/-- A comparison under two masks is one under each. -/
theorem and_mask_of_or_mask (hv : v &&& m = v) (h : v &&& m' = v' &&& m) (hw : w &&& (m ||| m') = v ||| v') :
    w &&& m = v :=
  calc w &&& m = w &&& (m ||| m') &&& m := by ext i hi; cases hm : m[i] <;> simp [hm]
    _ = v ||| v &&& m' := by rw [hw, BitVec.and_or_distrib_right, hv, h]
    _ = v := by ext i hi; cases hbit : v[i] <;> simp [hbit]

/-- Two masked comparisons that agree where both masks look are one. -/
theorem and_masks_iff (hv : v &&& m = v) (hv' : v' &&& m' = v') (h : v &&& m' = v' &&& m) :
    (w &&& m = v ∧ w &&& m' = v') ↔ w &&& (m ||| m') = v ||| v' := by
  refine ⟨fun ⟨hm, hm'⟩ => hm ▸ hm' ▸ BitVec.and_or_distrib_left, fun hw => ⟨and_mask_of_or_mask hv h hw, ?_⟩⟩
  rw [BitVec.or_comm m, BitVec.or_comm v] at hw
  exact and_mask_of_or_mask hv' h.symm hw

/-! ## The rows of the table -/

/-- The number of a row in the opcode table; BAR has one for BAR.RED and one for BAR.ARV. -/
def Row.number (arv : Bool) : Row → Nat
  | .ssy => 0 | .bra => 1 | .cal => 2 | .pret => 3 | .ret => 4 | .exit => 5 | .nop => 6 | .pbk => 7 | .brk => 8
  | .pcnt => 9 | .cont => 10 | .bar => if arv then 12 else 11 | .membar => 13 | .atom => 14 | .red => 15 | .vote => 16

theorem Row.number_lt (r : Row) (arv : Bool) : r.number arv < opcodeTable.length := by
  cases r <;> cases arv <;> decide

/-- The row of the opcode table. -/
def Row.tableRow (r : Row) (arv : Bool) : TableRow := opcodeTable[r.number arv]'(r.number_lt arv)

theorem Row.tableRow_mem (r : Row) (arv : Bool) : r.tableRow arv ∈ opcodeTable := List.getElem_mem _

theorem exists_tableRow : ∀ row ∈ opcodeTable, ∃ r arv, Row.tableRow r arv = row := by
  simp only [opcodeTable, List.forall_mem_cons]
  exact ⟨⟨.ssy, false, rfl⟩, ⟨.bra, false, rfl⟩, ⟨.cal, false, rfl⟩, ⟨.pret, false, rfl⟩, ⟨.ret, false, rfl⟩,
    ⟨.exit, false, rfl⟩, ⟨.nop, false, rfl⟩, ⟨.pbk, false, rfl⟩, ⟨.brk, false, rfl⟩, ⟨.pcnt, false, rfl⟩,
    ⟨.cont, false, rfl⟩, ⟨.bar, false, rfl⟩, ⟨.bar, true, rfl⟩, ⟨.membar, false, rfl⟩, ⟨.atom, false, rfl⟩,
    ⟨.red, false, rfl⟩, ⟨.vote, false, rfl⟩, nofun⟩

/-- The mask of a table row covers the bits that identify its row; BAR's two rows differ in `w[7]`. -/
theorem matches_tableRow_iff {r : Row} {arv : Bool} : w &&& (r.tableRow arv).mask = (r.tableRow arv).value ↔
    r.identifies w ∧ (r = .bar → flag w 7 = arv) := by
  cases r
  case bar =>
    simp only [Row.identifies, flag_eq_iff, true_implies]
    cases arv <;> simp (disch := decide) only [field_eq_iff_mask, and_masks_iff] <;> rfl
  all_goals
    simp (disch := decide) only [Row.identifies, field_eq_iff_mask, and_masks_iff, reduceCtorEq, false_implies, and_true]
    rfl

/-- The strict mask of a table row covers the bits of its mask and the fixed bits of its row. -/
theorem matches_and_asDrawn_iff {r : Row} {arv : Bool} :
    (w &&& (r.tableRow arv).mask = (r.tableRow arv).value ∧ asDrawn w r = true) ↔
      w &&& (r.tableRow arv).strictMask = (r.tableRow arv).strictValue := by
  cases r <;> simp only [asDrawn, Bool.and_eq_true, beq_iff_eq] <;> cases arv <;>
    simp (disch := decide) only [field_eq_iff_mask, and_masks_iff] <;> rfl

theorem operands_mnemonic {r : Row} {arv : Bool} (h : r = .bar → flag w 7 = arv) :
    (operands w r).mnemonic = (r.tableRow arv).mnemonic := by
  cases r with
  | bar =>
    simp only [operands, h rfl]
    cases arv <;> rfl
  | _ => rfl

end

/-- Settles O4: the strict masks of a table row compare its identifying bits and the fixed bits. -/
theorem tableRowsDecode : Obligations.TableRowsDecode := by
  intro row hrow w hw
  obtain ⟨r, arv, rfl⟩ := exists_tableRow row hrow
  obtain ⟨hr, hkind⟩ := matches_tableRow_iff.1 hw
  rw [ne_eq, ← matches_and_asDrawn_iff, and_iff_right hw, decode_of_identifies hr]
  exact ⟨fun hd => ⟨_, if_pos hd, operands_mnemonic hkind⟩, fun hd => if_neg hd⟩

/-- Settles O5: a word matches a row of the table exactly where the decoder identifies a row. -/
theorem unknownOpcodeExactlyOutsideTheTable : Obligations.UnknownOpcodeExactlyOutsideTheTable := by
  refine ⟨fun w => decode_eq_unknownOpcode_iff.trans ⟨fun h row hrow hw => ?_, fun h r hr => ?_⟩, fun w hw => ?_⟩
  · obtain ⟨r, arv, rfl⟩ := exists_tableRow row hrow
    exact h r (matches_tableRow_iff.1 hw).1
  · exact h _ (r.tableRow_mem (flag w 7)) (matches_tableRow_iff.2 ⟨hr, fun _ => rfl⟩)
  · obtain ⟨hhigh, hlow⟩ : field w 62 2 = 2#2 ∧ field w 0 4 = 5#4 := by
      simp (disch := decide) only [field_eq_iff_mask, and_masks_iff]
      exact hw
    refine decode_eq_unknownOpcode_iff.2 fun r hr => ?_
    cases r
    case membar => simp [field_62_2_of_membar hr.2] at hhigh
    all_goals simp [Row.identifies, hhigh, hlow] at hr

end Sys2Proof
end

section
/-!
PROOFS. Execution control: what a push, an unwind, a join and a condition do, and from them what each instruction does;
and what `.U` adds to BRA in a run (`spec/40_execution_control.md`).
-/

namespace Sys2Proof.Machine

open Sys2Proof Sys2Proof.Safety

/-- Every row of the table refuses a word with a fixed bit not as drawn. -/
theorem fixedBitsRefused_of_table (mnemonic : String) : fixedBitsRefused mnemonic :=
  fun row hrow _ w hw => (tableRowsDecode row hrow w hw).2

section
variable {s : State}

/-! ## The control stack -/

theorem State.csHasRoom_iff : s.csHasRoom = true ↔ stackHasRoom s := by
  unfold State.csHasRoom stackHasRoom
  cases s.params.csDepth <;> simp

theorem State.csPush_of_room (h : stackHasRoom s) (k : Kind) (a : CodeAddr) :
    s.csPush k a = .ok { s with thread := { s.thread with cs := ⟨k, a⟩ :: s.thread.cs } } := by
  rw [State.csPush_eq, if_pos (State.csHasRoom_iff.2 h)]

theorem State.csPush_of_full (h : ¬ stackHasRoom s) (k : Kind) (a : CodeAddr) :
    s.csPush k a = .error (.fault .controlStackOverflow) := by
  rw [State.csPush_eq, if_neg (mt State.csHasRoom_iff.1 h)]

theorem State.pushAndAdvance_of_room (h : stackHasRoom s) (k : Kind) (a : CodeAddr) :
    s.pushAndAdvance k a =
      .ok { s with thread := { s.thread with cs := ⟨k, a⟩ :: s.thread.cs, pc := s.thread.pc + 8 } } := by
  rw [State.pushAndAdvance, State.csPush_of_room h]
  rfl

theorem State.pushAndAdvance_of_full (h : ¬ stackHasRoom s) (k : Kind) (a : CodeAddr) :
    s.pushAndAdvance k a = .error (.fault .controlStackOverflow) := by
  rw [State.pushAndAdvance, State.csPush_of_full h]
  rfl

/-- Unwinding continues at the first entry of the kind and drops it with what stands above it. -/
theorem State.csUnwind_of_entry {k : Kind} {a : CodeAddr} {above below : List CsEntry}
    (h : s.thread.cs = above ++ ⟨k, a⟩ :: below) (ha : ∀ e ∈ above, e.kind ≠ k) :
    s.csUnwind k = .ok { s with thread := { s.thread with cs := below, pc := a } } := by
  rw [State.csUnwind, h, csUnwindTo_append ha]

theorem State.csUnwind_of_absent {k : Kind} (h : ∀ e ∈ s.thread.cs, e.kind ≠ k) :
    s.csUnwind k = .error (.fault .controlStackUnderflow) := by
  rw [State.csUnwind, csUnwindTo_eq_none.2 h]

theorem State.csJoin_of_empty (h : s.thread.cs = []) : s.csJoin = .error (.fault .controlStackUnderflow) := by
  rw [State.csJoin, h]

theorem State.csJoin_of_top {k : Kind} {a : CodeAddr} {below : List CsEntry} (h : s.thread.cs = ⟨k, a⟩ :: below) :
    s.csJoin = if k = .sync then .ok { s with thread := { s.thread with cs := below, pc := a } }
      else .error (.fault (.controlStackMismatch k)) := by
  rw [State.csJoin, h]

/-! ## The condition -/

theorem conditionKnown_iff {t : Thread} {ccop : CCop} : conditionKnown ccop t ↔ t.condReadable ccop = true := by
  by_cases ht : ccop = .t
  · simp [conditionKnown, ht]
  by_cases hf : ccop = .f
  · simp [conditionKnown, hf]
  simp [conditionKnown, Thread.condReadable, CCop.readsCC_eq_true ht hf, ht, hf]

theorem Thread.condition_of_known {t : Thread} {ccop : CCop} (h : conditionKnown ccop t) :
    t.condition ccop = .ok (ccTest ccop t.cc) :=
  Thread.condition_of_readable (conditionKnown_iff.1 h)

theorem Thread.condition_of_unknown {t : Thread} {ccop : CCop} (h : ¬ conditionKnown ccop t) :
    t.condition ccop = .error (.fault (.unwrittenRegister .cc)) := by
  rw [Thread.condition, if_neg (mt conditionKnown_iff.2 h)]

theorem Thread.conditionKnown_of_condition {t : Thread} {ccop : CCop} {b : Bool} (h : t.condition ccop = .ok b) :
    conditionKnown ccop t := by
  by_contra hk
  rw [Thread.condition_of_unknown hk] at h
  cases h

section
variable {ccop : CCop} {act : State → Except Stop State}

theorem State.whenCondition_of_true (h : conditionKnown ccop s.thread) (hc : ccTest ccop s.thread.cc = true) :
    s.whenCondition ccop act = act s := by
  rw [State.whenCondition, Thread.condition_of_known h, except_ok_bind, if_pos hc]

theorem State.whenCondition_of_false (h : conditionKnown ccop s.thread) (hc : ccTest ccop s.thread.cc = false) :
    s.whenCondition ccop act = .ok { s with thread := { s.thread with pc := s.thread.pc + 8 } } := by
  rw [State.whenCondition, Thread.condition_of_known h, except_ok_bind, hc]
  rfl

theorem State.whenCondition_of_unknown (h : ¬ conditionKnown ccop s.thread) :
    s.whenCondition ccop act = .error (.fault (.unwrittenRegister .cc)) := by
  rw [State.whenCondition, Thread.condition_of_unknown h, except_error_bind]

end

end

/-! ## Pushes -/

/-- Settles O31: each of the three is a push of its kind, which goes on where the stack has room. -/
theorem pushInstructions : Obligations.PushInstructions := by
  refine ⟨fixedBitsRefused_of_table _, fixedBitsRefused_of_table _, fixedBitsRefused_of_table _,
    fun s field24 => ⟨rfl, rfl, rfl⟩, fun s imm24 h => ?_, fun s imm24 h => ?_⟩
  · have hpush := fun k => congrArg outcome (State.pushAndAdvance_of_room h k (s.target imm24))
    exact ⟨hpush .sync, hpush .brk, hpush .cnt⟩
  · have hpush := fun k => congrArg outcome (State.pushAndAdvance_of_full h k (s.target imm24))
    exact ⟨hpush .sync, hpush .brk, hpush .cnt⟩

/-- Settles O35: PRET is a push of RET that goes on. -/
theorem pretPushesAReturn : Obligations.PretPushesAReturn :=
  ⟨fixedBitsRefused_of_table _, fun _ _ _ => rfl, fun _ _ => rfl,
    fun s imm24 h => congrArg outcome (State.pushAndAdvance_of_full h .ret (s.target imm24)),
    fun s imm24 h => congrArg outcome (State.pushAndAdvance_of_room h .ret (s.target imm24))⟩

/-- CAL without `.NOINC` pushes RET with the next address and then jumps. -/
theorem exec_cal (s : State) (imm24 : BitVec 24) : exec (.cal false (.rel imm24)) s =
    outcome (s.csPush .ret (s.thread.pc + 8) >>= fun t => .ok (t.setPc (s.target imm24))) := rfl

/-- Settles O34, by whether the push has room. -/
theorem calPushesAndJumps : Obligations.CalPushesAndJumps := by
  refine ⟨fixedBitsRefused_of_table _, fun _ _ _ => rfl, fun _ _ => rfl, fun s imm24 h => ?_, fun s imm24 h => ?_,
    fun _ _ => rfl⟩
  · rw [exec_cal, State.csPush_of_full h]
    rfl
  · rw [exec_cal, State.csPush_of_room h]
    rfl

/-! ## Instructions under a condition -/

/-- BRA with an immediate target and without `.LMT` jumps where its condition holds, `.U` or not. -/
theorem exec_bra (s : State) (ccop : CCop) (u : Bool) (imm24 : BitVec 24) :
    exec (.bra ccop u false (.rel imm24)) s =
      outcome (s.whenCondition ccop fun s => .ok (s.setPc (s.target imm24))) := rfl

/-- Settles O32, by whether the condition is known and holds. -/
theorem braJumpsOnItsCondition : Obligations.BraJumpsOnItsCondition := by
  refine ⟨fun _ _ _ _ _ => rfl, fun _ _ _ _ => rfl, fun s ccop u imm24 h => ?_, fun s ccop u imm24 h => ?_⟩
  · rw [exec_bra, State.whenCondition_of_unknown h]
    rfl
  · rw [exec_bra]
    cases hc : ccTest ccop s.thread.cc with
    | true => rw [State.whenCondition_of_true h hc]; rfl
    | false => rw [State.whenCondition_of_false h hc]; rfl

/-- RET, BRK and CONT unwind to their kind where their condition holds. -/
theorem exec_unwind {ccop : CCop} {k : Kind} {i : Instr}
    (h : (i = .ret ccop ∧ k = .ret) ∨ (i = .brk ccop ∧ k = .brk) ∨ (i = .cont ccop ∧ k = .cnt)) (s : State) :
    exec i s = outcome (s.whenCondition ccop fun s => s.csUnwind k) := by
  obtain ⟨rfl, rfl⟩ | ⟨rfl, rfl⟩ | ⟨rfl, rfl⟩ := h <;> rfl

/-- Settles O36, by the condition and by what unwinding finds. -/
theorem unwindInstructions : Obligations.UnwindInstructions := by
  intro s ccop k i hi
  rw [exec_unwind hi]
  refine ⟨fun h => ?_, fun h hc => ?_, fun h hc above below a hcs ha => ?_, fun h hc hcs => ?_⟩
  · rw [State.whenCondition_of_unknown h]
    rfl
  · rw [State.whenCondition_of_false h hc]
    rfl
  · rw [State.whenCondition_of_true h hc, State.csUnwind_of_entry hcs ha]
    rfl
  · rw [State.whenCondition_of_true h hc, State.csUnwind_of_absent hcs]
    rfl

theorem exec_exit (s : State) (ccop : CCop) :
    exec (.exit ccop) s = outcome (s.whenCondition ccop fun s => .ok s.exitThread) := rfl

/-- Settles O37, by the condition. -/
theorem exitEndsTheThread : Obligations.ExitEndsTheThread := by
  intro s ccop
  rw [exec_exit]
  refine ⟨fun h => ?_, fun h hc => ?_, fun h hc => ?_⟩
  · rw [State.whenCondition_of_unknown h]
    rfl
  · rw [State.whenCondition_of_true h hc]
    rfl
  · rw [State.whenCondition_of_false h hc]
    rfl

/-! ## NOP -/

section
variable (s : State) (join trig : Bool) {op : NopOp} (imm16 : BitVec 16) (h : ∀ code, op ≠ .noRow code)
include h

/-- A NOP whose `.Op` has a row is refused for its condition first. -/
theorem exec_nop_of_condition {ccop : CCop} (hc : ccop ≠ .t) :
    exec (.nop ccop join trig op imm16) s = .refused .ccopNotModelled := by
  have hb : (ccop == .t) = false := beq_eq_false_iff_ne.2 hc
  cases op with
  | noRow code => exact absurd rfl (h code)
  | _ => simp only [exec, execNop, hb]; rfl

/-- A NOP whose `.Op` has a row is then refused for a modifier or an immediate. -/
theorem exec_nop_of_modifier (hm : trig = true ∨ op ≠ .none ∨ imm16 ≠ 0#16) :
    exec (.nop .t join trig op imm16) s = .refused .modifierNotModelled := by
  cases op with
  | noRow code => exact absurd rfl (h code)
  | none => cases trig with
    | true => rfl
    | false =>
      have hb : (imm16 == 0#16) = false := beq_eq_false_iff_ne.2 (by simpa using hm)
      simp only [exec, execNop, hb]
      rfl
  | _ => cases trig <;> rfl

end

/-- NOP.S is the join. -/
theorem exec_nop_join (s : State) : exec (.nop .t true false .none 0#16) s = outcome s.csJoin := rfl

/-- Settles O38, by the refusals in their order and by the entry on top of the stack. -/
theorem nopAndTheJoin : Obligations.NopAndTheJoin := by
  refine ⟨fun s _ join trig _ imm16 h hc => exec_nop_of_condition s join trig imm16 h hc, fun _ _ _ _ _ _ => rfl,
    fun s join trig _ imm16 h hm => exec_nop_of_modifier s join trig imm16 h hm, fun _ => rfl, fun s h => ?_,
    fun s k a below h hk => ?_, fun s a below h => ?_⟩
  · rw [exec_nop_join, State.csJoin_of_empty h]
    rfl
  · rw [exec_nop_join, State.csJoin_of_top h, if_neg hk]
    rfl
  · rw [exec_nop_join, State.csJoin_of_top h, if_pos rfl]
    rfl

/-! ## BRA.U in a run -/

/-- The condition that thread `i` computes. -/
def State.conditionAt (s : State) (i : Nat) (ccop : CCop) : Option (Except Stop Bool) :=
  s.threadList[i]?.map fun t => t.condition ccop

theorem State.conditionAt_index (s : State) (ccop : CCop) :
    s.conditionAt s.index ccop = some (s.thread.condition ccop) := by
  rw [State.conditionAt, State.threadList_index]
  rfl

/-- Two states of one run: the launch is the same, and so is the condition that each thread computes. -/
structure State.SameConditions (s t : State) : Prop where
  params : t.params = s.params
  code : t.code = s.code
  condition : ∀ i ccop, t.conditionAt i ccop = s.conditionAt i ccop

theorem State.SameConditions.trans {s t u : State} (h : s.SameConditions t) (h' : t.SameConditions u) :
    s.SameConditions u :=
  ⟨h'.params.trans h.params, h'.code.trans h.code, fun i ccop => (h'.condition i ccop).trans (h.condition i ccop)⟩

theorem State.sameConditions_of_same {s t : State} (h : SameMachine s t) : s.SameConditions t :=
  ⟨h.params, h.code, fun i ccop => by rw [State.conditionAt, State.conditionAt, h.threads]⟩

/-- A step keeps `CC`, and so every condition. -/
theorem step_sameConditions {s t : State} (h : step s = .next t) : s.SameConditions t := by
  obtain ⟨hp, hc, hsize⟩ := stepKeepsTheLaunch s t h
  refine ⟨hp, hc, fun i ccop => ?_⟩
  rw [State.conditionAt, State.conditionAt]
  cases hu : s.threadList[i]? with
  | none =>
    have hi : t.threadList[i]? = none := List.getElem?_eq_none_iff.2 (hsize.trans_le (List.getElem?_eq_none_iff.1 hu))
    rw [hi]
  | some u =>
    obtain ⟨v, hv, hstep⟩ := step_thread h hu
    obtain ⟨hcc, hsub, hunwritten⟩ := hstep.keeps
    rw [hv]
    exact congrArg some (Thread.condition_congr hcc ⟨hsub .cc, hunwritten⟩ ccop)

theorem runMoves_sameConditions {s u : State} (h : runMoves s u) : s.SameConditions u :=
  runMoves_induct (fun hstep h => h.trans (step_sameConditions hstep))
    (fun hsame h => h.trans (State.sameConditions_of_same hsame)) ⟨rfl, rfl, fun _ _ => rfl⟩ h

/-- The condition a thread computes is the same at all its steps of a run. -/
theorem condition_of_runMoves {s u v : State} (hu : runMoves s u) (hv : runMoves s v) (hi : v.index = u.index)
    (ccop : CCop) : v.thread.condition ccop = u.thread.condition ccop := by
  refine Option.some.inj ?_
  calc some (v.thread.condition ccop) = s.conditionAt v.index ccop := by
        rw [← v.conditionAt_index, (runMoves_sameConditions hv).condition]
    _ = some (u.thread.condition ccop) := by
        rw [hi, ← (runMoves_sameConditions hu).condition, u.conditionAt_index]

/-- Two threads at one `pc` that compute one condition, which is known, take a BRA the same way. -/
theorem exec_bra_same_way {u v : State} {ccop : CCop} (uni : Bool) (imm24 : BitVec 24)
    (hu : conditionKnown ccop u.thread) (hc : v.thread.condition ccop = u.thread.condition ccop)
    (hpc : v.thread.pc = u.thread.pc) : conditionKnown ccop v.thread ∧ ∃ t r,
      exec (.bra ccop uni false (.rel imm24)) u = .next t ∧ exec (.bra ccop uni false (.rel imm24)) v = .next r ∧
      r.thread.pc = t.thread.pc := by
  have hv : conditionKnown ccop v.thread := Thread.conditionKnown_of_condition (hc.trans (Thread.condition_of_known hu))
  have htest : ccTest ccop v.thread.cc = ccTest ccop u.thread.cc := by
    rw [Thread.condition_of_known hu, Thread.condition_of_known hv] at hc
    exact Except.ok.inj hc
  obtain ⟨-, -, -, hbra⟩ := braJumpsOnItsCondition
  exact ⟨hv, _, _, hbra u ccop uni imm24 hu, hbra v ccop uni imm24 hv, by rw [htest, hpc]⟩

/-- Settles O33: the premise gives one condition, and the code at one `pc` is one word. -/
theorem uniformBranchesGoOneWay : Obligations.UniformBranchesGoOneWay := by
  refine ⟨fun s u v ccop imm24 huniform hu hv hbra hpc hgroup hknown => ?_,
    fun s u v ccop hu hv hi => condition_of_runMoves hu hv hi ccop⟩
  have hus := runMoves_sameConditions hu
  have hvs := runMoves_sameConditions hv
  have hgroup' : u.params.groupOf v.index = u.params.groupOf u.index := hus.params ▸ hgroup
  have hc := huniform u v ccop imm24 hu hv hbra hpc hgroup'
  exact ⟨State.nextInstr_congr hpc (hvs.code.trans hus.code.symm) (hvs.params.trans hus.params.symm),
    exec_bra_same_way true imm24 hknown hc hpc⟩

end Sys2Proof.Machine
end

section
/-!
PROOFS. The barrier instructions: checks and reads in a row, what an arrival asks for and where it stops, what BAR.RED
and BAR.ARV do with it, and the fence (`spec/41_sync_atomic.md` rules R140 to R142, R144, R153).
-/

namespace Sys2Proof.Machine

open Sys2Proof Sys2Proof.Safety

/-! ## Checks and reads in a row -/

/-- A check stops by itself, or what comes after it stops in the same way. -/
theorem check_bind_eq_error {α : Type} {c : Bool} {e : Stop} {f : Unit → Except Stop α}
    (h : c = false ∨ f () = .error e) : (check c e >>= f) = .error e := by
  cases c with
  | false => rfl
  | true => exact h.resolve_left (by decide)

/-- Two checks that stop in one way. -/
theorem check_check_eq_error {α : Type} {c d : Bool} {e : Stop} {f : Unit → Except Stop α}
    (h : c = false ∨ d = false) : (check c e >>= fun _ => check d e >>= f) = .error e :=
  check_bind_eq_error (h.imp_right fun h => check_bind_eq_error (.inl h))

/-- The first operand that is missing names the fault, be it this one or one read after it. -/
theorem readOr_bind_eq_error {α β : Type} {m m' : Option Source} {x : Source} {v : α} {f : α → Except Stop β}
    (h : m.or m' = some x) (hf : m' = some x → f v = .error (.fault (.unwrittenRegister x))) :
    (readOr m v >>= f) = .error (.fault (.unwrittenRegister x)) := by
  cases m with
  | none => exact hf h
  | some y => cases h; rfl

/-! ## The operands of an arrival -/

theorem Thread.psrcReadable_pt (t : Thread) : t.psrcReadable ⟨false, pt⟩ = true := t.predReadable_pt

theorem barrierOf_val (b : Fin 16) : barrierOf b.val = .ok b := dif_pos b.isLt

theorem barrierOf_of_le {n : Nat} (h : n ≤ 15) : barrierOf n = .ok ⟨n, by omega⟩ := dif_pos (by omega)

theorem barrierOf_of_gt {n : Nat} (h : 15 < n) : barrierOf n = .error (.fault (.badBarrier n)) := dif_neg (by omega)

/-- What BAR.RED and BAR.ARV do once their fields are as the source shows: the reads, the barrier, and the check of the
count, which is what differs. -/
def State.arrivalOf (s : State) (bar : BarSrc) (tcount : CountSrc) (c : PredSrc) (good : Nat → Bool)
    (count : Nat → Nat) : Except Stop Arrival := do
  let bv ← s.thread.readBar bar
  let k ← s.thread.readCount tcount
  let v ← s.thread.psrc c
  let b ← barrierOf bv
  checkFault (good k) (.badThreadCount k)
  .ok ⟨b, count k, v⟩

/-- The counts that BAR.RED admits (rule R140). -/
def Params.countOrAll (ps : Params) (k : Nat) : Bool := k == 0 || ps.countOk k

/-- The counts that BAR.ARV admits (rules R140, R142). -/
def Params.countGiven (ps : Params) (k : Nat) : Bool := k != 0 && ps.countOk k

theorem Params.countOrAll_iff {ps : Params} {k : Nat} : ps.countOrAll k = true ↔ k = 0 ∨ k % ps.warpSize = 0 := by
  simp [Params.countOrAll, Params.countOk]

theorem Params.countGiven_iff {ps : Params} {k : Nat} : ps.countGiven k = true ↔ k ≠ 0 ∧ k % ps.warpSize = 0 := by
  simp [Params.countGiven, Params.countOk]

section
variable {s : State} {redop : RedOp} {reg0 : RegIdx} {bar : BarSrc} {tcount : CountSrc} {c : PredSrc} {p : PredIdx}

theorem State.arrivalOf_of_missing {good : Nat → Bool} {count : Nat → Nat} {x : Source}
    (h : ((missingBar s.thread bar).or (missingCount s.thread tcount)).or (missingPred s.thread c.idx) = some x) :
    s.arrivalOf bar tcount c good count = .error (.fault (.unwrittenRegister x)) := by
  rw [Option.or_assoc] at h
  rw [State.arrivalOf, Thread.readBar_eq, Thread.readCount_eq, Thread.psrc_eq]
  refine readOr_bind_eq_error h fun h => readOr_bind_eq_error h fun h => ?_
  rw [h]
  rfl

section
variable (hb : s.thread.barReadable bar = true) (hk : s.thread.countReadable tcount = true)
  (hc : s.thread.psrcReadable c = true) {good : Nat → Bool} {count : Nat → Nat}
include hb hk hc

theorem State.arrivalOf_of_readable : s.arrivalOf bar tcount c good count = (do
    let b ← barrierOf (s.thread.barValue bar)
    checkFault (good (s.thread.countValue tcount)) (.badThreadCount (s.thread.countValue tcount))
    .ok ⟨b, count (s.thread.countValue tcount), s.thread.psrcValue c⟩) := by
  rw [State.arrivalOf, Thread.readBar_of_readable hb, Thread.readCount_of_readable hk, Thread.psrc_of_readable hc]
  rfl

theorem State.arrivalOf_of_badBarrier (h : 15 < s.thread.barValue bar) :
    s.arrivalOf bar tcount c good count = .error (.fault (.badBarrier (s.thread.barValue bar))) := by
  rw [State.arrivalOf_of_readable hb hk hc, barrierOf_of_gt h]
  rfl

theorem State.arrivalOf_of_badCount (h : s.thread.barValue bar ≤ 15)
    (hg : ¬ good (s.thread.countValue tcount) = true) :
    s.arrivalOf bar tcount c good count = .error (.fault (.badThreadCount (s.thread.countValue tcount))) := by
  rw [State.arrivalOf_of_readable hb hk hc, barrierOf_of_le h, Bool.eq_false_iff.2 hg]
  rfl

theorem State.arrivalOf_of_good {b : Fin 16} (h : s.thread.barValue bar = b.val)
    (hg : good (s.thread.countValue tcount) = true) :
    s.arrivalOf bar tcount c good count =
      .ok ⟨b, count (s.thread.countValue tcount), s.thread.psrcValue c⟩ := by
  rw [State.arrivalOf_of_readable hb hk hc, h, barrierOf_val, hg]
  rfl

end

/-! ## BAR.RED's arrival -/

theorem barSrc_not_encodable {v : BitVec 6} (hb : bar = .imm v) (h : 15 < v.toNat) : bar.encodable = false := by
  rw [hb]
  exact decide_eq_false (by omega)

theorem countSrc_not_shown (h : ∃ r upper, tcount = .reg r upper ∧ upper ≠ 0#6) : tcount.shown = false := by
  obtain ⟨r, upper, rfl, h⟩ := h
  exact beq_eq_false_iff_ne.2 h

theorem State.barRedArrival_of_illegal (h : redop = .invalid ∨ bar.encodable = false) :
    s.barRedArrival redop reg0 bar tcount c p = .error (.fault .illegalEncoding) :=
  check_check_eq_error (h.imp_left fun h => by rw [h]; rfl)

section
variable (hr : redop ≠ .invalid) (he : bar.encodable = true)
include hr he

theorem State.barRedArrival_of_notShown
    (h : (redop = .popc ∧ p ≠ pt) ∨ (redop ≠ .popc ∧ reg0 ≠ rz) ∨ tcount.shown = false) :
    s.barRedArrival redop reg0 bar tcount c p = .error (.refusal .notShown) := by
  have hform : (redop != .popc || p == pt) = false ∨ (redop == .popc || reg0 == rz) = false ∨
      tcount.shown = false := by
    obtain ⟨h, hp⟩ | ⟨h, h0⟩ | h := h
    · simp [h, hp]
    · simp [h, h0]
    · exact .inr (.inr h)
  rw [State.barRedArrival, bne_iff_ne.2 hr, he]
  exact check_bind_eq_error (hform.imp_right check_check_eq_error)

theorem State.barRedArrival_of_shown (hp : redop = .popc → p = pt) (h0 : redop ≠ .popc → reg0 = rz)
    (ht : tcount.shown = true) : s.barRedArrival redop reg0 bar tcount c p =
      s.arrivalOf bar tcount c s.params.countOrAll s.arrivalCount := by
  rw [State.barRedArrival, bne_iff_ne.2 hr, he, ht]
  by_cases h : redop = .popc
  · rw [h, hp h]
    rfl
  · rw [h0 h, bne_iff_ne.2 h, beq_eq_false_iff_ne.2 h]
    rfl

end

/-- A BAR.RED that is ready asks for its arrival. -/
theorem State.barRedArrival_of_ready {b : Fin 16} {k : Nat} (h : barRedReady redop reg0 bar tcount c p b k s) :
    s.barRedArrival redop reg0 bar tcount c p = .ok ⟨b, s.arrivalCount k, s.thread.psrcValue c⟩ := by
  obtain ⟨hr, he, hp, h0, ht, hbr, hkr, hcr, hb, rfl, hk⟩ := h
  rw [State.barRedArrival_of_shown hr he hp h0 ht, State.arrivalOf_of_good hbr hkr hcr hb (Params.countOrAll_iff.2 hk)]

/-! ## BAR.ARV's arrival -/

theorem State.barArvArrival_of_illegal (h : redop = .invalid ∨ bar.encodable = false) :
    s.barArvArrival redop reg0 bar tcount c p = .error (.fault .illegalEncoding) :=
  check_check_eq_error (h.imp_left fun h => by rw [h]; rfl)

theorem State.barArvArrival_of_notShown (hr : redop ≠ .invalid) (he : bar.encodable = true)
    (h : redop ≠ .popc ∨ c ≠ ⟨false, pt⟩ ∨ p ≠ pt ∨ (reg0 ≠ 0#6 ∧ reg0 ≠ rz) ∨ tcount.shown = false) :
    s.barArvArrival redop reg0 bar tcount c p = .error (.refusal .notShown) := by
  rw [State.barArvArrival, bne_iff_ne.2 hr, he]
  have hform : (redop == .popc && c == ⟨false, pt⟩ && p == pt) = false ∨ unusedOk reg0 = false ∨
      tcount.shown = false := by
    obtain h | h | h | ⟨h, h'⟩ | h := h
    · simp [h]
    · simp [h]
    · simp [h]
    · simp [unusedOk, h, h']
    · exact .inr (.inr h)
  exact check_bind_eq_error (hform.imp_right check_check_eq_error)

/-- The read of a predicate that BAR.ARV does not make gives true. -/
theorem State.barArvArrival_of_shown (he : bar.encodable = true) (h0 : reg0 = 0#6 ∨ reg0 = rz)
    (ht : tcount.shown = true) : s.barArvArrival .popc reg0 bar tcount ⟨false, pt⟩ pt =
      s.arrivalOf bar tcount ⟨false, pt⟩ s.params.countGiven id := by
  have hreg : unusedOk reg0 = true := by simpa [unusedOk] using h0
  rw [State.barArvArrival, he, ht, hreg]
  rfl

/-- A BAR.ARV that is ready asks for its arrival. -/
theorem State.barArvArrival_of_ready {b : Fin 16} {k : Nat} (h : barArvReady reg0 bar tcount b k s) :
    s.barArvArrival .popc reg0 bar tcount ⟨false, pt⟩ pt = .ok ⟨b, k, true⟩ := by
  obtain ⟨h0, he, ht, hbr, hkr, hb, rfl, hk⟩ := h
  rw [State.barArvArrival_of_shown he h0 ht,
    State.arrivalOf_of_good hbr hkr s.thread.psrcReadable_pt hb (Params.countGiven_iff.2 hk)]
  simp [Thread.psrcValue]

/-! ## The arrival at the barrier -/

theorem Barrier.pending_iff {x : Barrier} : x.pending = true ↔ x.expected = some x.arrived := beq_iff_eq

theorem Barrier.agrees_iff {x : Barrier} {n : Nat} : x.agrees n = true ↔ x.expected = none ∨ x.expected = some n := by
  unfold Barrier.agrees
  cases x.expected <;> simp

theorem Barrier.redopDiffers_iff {x : Barrier} : x.redopDiffers redop = true ↔ ∃ w ∈ x.waiters, w.redop ≠ redop := by
  simp [Barrier.redopDiffers]

theorem Barrier.not_agrees {x : Barrier} {m n : Nat} (h : x.expected = some m) (hne : m ≠ n) : x.agrees n = false := by
  rw [Barrier.agrees, h]
  exact beq_eq_false_iff_ne.2 hne

theorem State.arrivalHeld_iff {a : Arrival} :
    s.arrivalHeld a = true ↔ s.barriers[a.bar].expected = some s.barriers[a.bar].arrived := Barrier.pending_iff

theorem State.joinBarrier_of_mismatch {a : Arrival} {p : PredIdx}
    (h : (∃ m, s.barriers[a.bar].expected = some m ∧ m ≠ a.count) ∨ ∃ w ∈ s.barriers[a.bar].waiters, w.redop ≠ redop) :
    s.joinBarrier a redop reg0 p = .error (.fault (.barrierMismatch a.bar)) := by
  refine check_check_eq_error (h.imp (fun ⟨m, hm, hne⟩ => Barrier.not_agrees hm hne) fun h => ?_)
  rw [Barrier.redopDiffers_iff.2 h]
  rfl

theorem State.joinBarrier_of_agrees {a : Arrival} {p : PredIdx}
    (he : s.barriers[a.bar].expected = none ∨ s.barriers[a.bar].expected = some a.count)
    (hw : ∀ w ∈ s.barriers[a.bar].waiters, w.redop = redop) :
    s.joinBarrier a redop reg0 p = .ok { s.setBarrier a.bar (s.barriers[a.bar].join a.count (s.index, s.thread.place)
      ⟨s.index, redop, reg0, p⟩ a.vote) with thread := { s.thread with status := .waiting a.bar } } := by
  have hd : s.barriers[a.bar].redopDiffers redop = false := Bool.eq_false_iff.2 fun hc =>
    have ⟨w, hm, hne⟩ := Barrier.redopDiffers_iff.1 hc
    hne (hw w hm)
  rw [State.joinBarrier, Barrier.agrees_iff.2 he, hd]
  rfl

theorem State.arriveBarrier_of_mismatch {a : Arrival} {m : Nat} (h : s.barriers[a.bar].expected = some m)
    (hne : m ≠ a.count) : s.arriveBarrier a = .error (.fault (.barrierMismatch a.bar)) :=
  check_bind_eq_error (.inl (Barrier.not_agrees h hne))

theorem State.arriveBarrier_of_agrees {a : Arrival}
    (he : s.barriers[a.bar].expected = none ∨ s.barriers[a.bar].expected = some a.count) :
    s.arriveBarrier a =
      .ok (s.setBarrier a.bar (s.barriers[a.bar].arrive a.count (s.index, s.thread.place))).advance := by
  rw [State.arriveBarrier, Barrier.agrees_iff.2 he]
  rfl

/-! ## The instructions -/

theorem exec_barRed_of_error {e : Stop} (h : s.barRedArrival redop reg0 bar tcount c p = .error e) :
    exec (.barRed redop reg0 bar tcount c p) s = outcome (.error e) := by
  rw [exec, execBarRed, h]
  rfl

theorem exec_barRed_of_arrival {a : Arrival} (h : s.barRedArrival redop reg0 bar tcount c p = .ok a) :
    exec (.barRed redop reg0 bar tcount c p) s =
      outcome (if s.arrivalHeld a then .ok s else s.joinBarrier a redop reg0 p) := by
  rw [exec, execBarRed, h]
  rfl

theorem exec_barArv_of_error {e : Stop} (h : s.barArvArrival redop reg0 bar tcount c p = .error e) :
    exec (.barArv redop reg0 bar tcount c p) s = outcome (.error e) := by
  rw [exec, execBarArv, h]
  rfl

theorem exec_barArv_of_arrival {a : Arrival} (h : s.barArvArrival redop reg0 bar tcount c p = .ok a) :
    exec (.barArv redop reg0 bar tcount c p) s =
      outcome (if s.arrivalHeld a then .ok s else s.arriveBarrier a) := by
  rw [exec, execBarArv, h]
  rfl

/-- BAR.RED is held exactly where it arrives at a barrier whose release is pending. -/
theorem barRedHeld_iff : barRedHeld redop reg0 bar tcount c p s = true ↔
    ∃ a, s.barRedArrival redop reg0 bar tcount c p = .ok a ∧ s.arrivalHeld a = true := by
  unfold barRedHeld
  cases s.barRedArrival redop reg0 bar tcount c p <;> simp

/-- BAR.ARV is held exactly where it arrives at a barrier whose release is pending. -/
theorem barArvHeld_iff : barArvHeld redop reg0 bar tcount c p s = true ↔
    ∃ a, s.barArvArrival redop reg0 bar tcount c p = .ok a ∧ s.arrivalHeld a = true := by
  unfold barArvHeld
  cases s.barArvArrival redop reg0 bar tcount c p <;> simp

end

/-- Settles O39: the arrival that is asked for joins a barrier that agrees with it. -/
theorem barRedArrives : Obligations.BarRedArrives := by
  intro s redop reg0 bar tcount c p b k n h hn hp he hw
  subst hn
  rw [exec_barRed_of_arrival (State.barRedArrival_of_ready h), if_neg (mt State.arrivalHeld_iff.1 hp),
    State.joinBarrier_of_agrees he hw]
  rfl

/-- Settles O40: the arrival that is asked for is counted at a barrier that agrees with it. -/
theorem barArvArrives : Obligations.BarArvArrives := by
  intro s reg0 bar tcount b k h hp he
  rw [exec_barArv_of_arrival (State.barArvArrival_of_ready h), if_neg (mt State.arrivalHeld_iff.1 hp),
    State.arriveBarrier_of_agrees he]
  rfl

/-- Settles O41: the stops before the arrival in their order, then those of the barrier it arrives at. -/
theorem barRedStops : Obligations.BarRedStops := by
  intro s redop reg0 bar tcount c p
  refine ⟨fun h => ?_, fun hr he h => ?_, fun hr he hp h0 ht => ?_, fun b k n h hn hpend hm => ?_⟩
  · exact exec_barRed_of_error
      (State.barRedArrival_of_illegal (h.imp_right fun ⟨v, hb, hv⟩ => barSrc_not_encodable hb hv))
  · exact exec_barRed_of_error
      (State.barRedArrival_of_notShown hr he (h.imp_right (Or.imp_right countSrc_not_shown)))
  · have hshown := State.barRedArrival_of_shown (s := s) (c := c) hr he hp h0 ht
    refine ⟨fun x h => ?_, fun hb hk hc => ⟨fun h => ?_, fun hle hk0 hkw => ?_⟩⟩
    · exact exec_barRed_of_error (hshown.trans (State.arrivalOf_of_missing h))
    · exact exec_barRed_of_error (hshown.trans (State.arrivalOf_of_badBarrier hb hk hc h))
    · exact exec_barRed_of_error (hshown.trans (State.arrivalOf_of_badCount hb hk hc hle
        fun hg => (Params.countOrAll_iff.1 hg).elim hk0 hkw))
  · subst hn
    rw [exec_barRed_of_arrival (State.barRedArrival_of_ready h), if_neg (mt State.arrivalHeld_iff.1 hpend),
      State.joinBarrier_of_mismatch hm]
    rfl

/-- Settles O42: the stops before the arrival in their order, then that of the barrier it arrives at. -/
theorem barArvStops : Obligations.BarArvStops := by
  intro s redop reg0 bar tcount c p
  refine ⟨fun h => ?_, fun hr he h => ?_, fun he h0 ht => ?_, fun b k m h hpend hm hne => ?_⟩
  · exact exec_barArv_of_error
      (State.barArvArrival_of_illegal (h.imp_right fun ⟨v, hb, hv⟩ => barSrc_not_encodable hb hv))
  · exact exec_barArv_of_error (State.barArvArrival_of_notShown hr he
      (h.imp_right (Or.imp_right (Or.imp_right (Or.imp_right countSrc_not_shown)))))
  · have hshown := State.barArvArrival_of_shown (s := s) he h0 ht
    refine ⟨fun x h => ?_, fun hb hk => ⟨fun h => ?_, fun hle hcount => ?_⟩⟩
    · exact exec_barArv_of_error (hshown.trans (State.arrivalOf_of_missing (by rw [h]; rfl)))
    · exact exec_barArv_of_error (hshown.trans (State.arrivalOf_of_badBarrier hb hk s.thread.psrcReadable_pt h))
    · refine exec_barArv_of_error (hshown.trans (State.arrivalOf_of_badCount hb hk s.thread.psrcReadable_pt hle
        fun hg => ?_))
      obtain ⟨hk0, hkw⟩ := Params.countGiven_iff.1 hg
      exact hcount.elim hk0 fun h => h hkw
  · rw [exec_barArv_of_arrival (State.barArvArrival_of_ready h), if_neg (mt State.arrivalHeld_iff.1 hpend),
      State.arriveBarrier_of_mismatch hm hne]
    rfl

/-! ## The fence -/

/-- Settles O45: the level is all that MEMBAR checks. -/
theorem membarRecordsAFence : Obligations.MembarRecordsAFence := by
  refine ⟨fixedBitsRefused_of_table _, fun _ => rfl, fun s lvl h => ?_⟩
  rw [exec, execMembar, bne_iff_ne.2 h]
  rfl

end Sys2Proof.Machine
end

section
/-!
PROOFS. Which instructions are held, what a release gives its waiters, and what a vote casts, whom it stops and where it
is refused (`spec/41_sync_atomic.md` rules R141 to R143, R150; `spec/70_reset_and_hazards.md` rule R203).
-/

namespace Sys2Proof.Machine

open Sys2Proof Sys2Proof.Safety

/-! ## The form of a VOTE -/

section
variable {mode : VoteMode} {reg0 : RegIdx} {imm28 : BitVec 28}

theorem voteForm_of_shown (h : voteShown mode reg0 imm28) : voteForm mode reg0 imm28 = .ok () := by
  obtain ⟨hm, h0, rfl⟩ := h
  obtain rfl | rfl | rfl := hm
  · rw [h0 (by decide)]
    rfl
  · rfl
  · rw [h0 (by decide)]
    rfl

theorem voteForm_of_vtg (h : mode = .vtgR ∨ mode = .vtgA ∨ mode = .vtgRA) :
    voteForm mode reg0 imm28 = .error (.refusal .unconfirmed) := by
  obtain rfl | rfl | rfl := h <;> rfl

theorem voteForm_of_noRow (code : BitVec 3) : voteForm (.noRow code) reg0 imm28 = .error (.refusal .notShown) := rfl

/-- A mode with a row is refused for a register or an immediate that the source does not show. -/
theorem voteForm_of_notShown (hm : mode = .all ∨ mode = .any ∨ mode = .eq)
    (h : (mode ≠ .any ∧ reg0 ≠ rz) ∨ imm28 ≠ 0#28) : voteForm mode reg0 imm28 = .error (.refusal .notShown) := by
  obtain ⟨hvtg, hrow⟩ : (mode != .vtgR && mode != .vtgA && mode != .vtgRA) = true ∧
      (mode == .all || mode == .any || mode == .eq) = true := by
    obtain rfl | rfl | rfl := hm <;> exact ⟨rfl, rfl⟩
  have hform : (mode == .any || reg0 == rz) = false ∨ (imm28 == 0#28) = false :=
    h.imp (fun ⟨h, h0⟩ => by simp [h, h0]) beq_eq_false_iff_ne.2
  rw [voteForm, hvtg, hrow]
  exact check_bind_eq_error (hform.imp_right fun h => by rw [h]; rfl)

end

/-! ## Held instructions -/

section
variable {s : State} {mode : VoteMode} {reg0 : RegIdx} {p1 : PredSrc} {imm28 : BitVec 28} {p0 : PredIdx}

theorem exec_vote_of_form {e : Stop} (h : voteForm mode reg0 imm28 = .error e) :
    exec (.vote mode reg0 p1 imm28 p0) s = outcome (.error e) := by
  rw [exec, execVote, h]
  rfl

/-- VOTE is held exactly where its form is shown and its group is not assembled. -/
theorem voteHeld_iff :
    voteHeld mode reg0 imm28 s = true ↔ voteForm mode reg0 imm28 = .ok () ∧ s.assembled = false := by
  unfold voteHeld
  cases voteForm mode reg0 imm28 <;> simp

theorem exec_vote_of_held (h : voteHeld mode reg0 imm28 s = true) :
    exec (.vote mode reg0 p1 imm28 p0) s = .next s := by
  obtain ⟨hform, ha⟩ := voteHeld_iff.1 h
  rw [exec, execVote, hform, ha]
  rfl

end

/-- An instruction that is held answers the state itself; it is a BAR or a VOTE. -/
theorem exec_of_holds {i : Instr} {s : State} (h : holds i s = true) :
    exec i s = .next s ∧ (i.row = .bar ∨ i.row = .vote) := by
  cases i with
  | barRed redop reg0 bar tcount c p =>
    obtain ⟨a, ha, hheld⟩ := barRedHeld_iff.1 h
    exact ⟨by rw [exec_barRed_of_arrival ha, if_pos hheld]; rfl, .inl rfl⟩
  | barArv redop reg0 bar tcount c p =>
    obtain ⟨a, ha, hheld⟩ := barArvHeld_iff.1 h
    exact ⟨by rw [exec_barArv_of_arrival ha, if_pos hheld]; rfl, .inl rfl⟩
  | vote mode reg0 p1 imm28 p0 => exact ⟨exec_vote_of_held h, .inr rfl⟩
  | _ => cases h

/-- Settles O43: what `holds` says of each instruction, and when a BAR or a VOTE of a shown form is held. -/
theorem heldInstructionsChangeNothing : Obligations.HeldInstructionsChangeNothing := by
  refine ⟨fun _ _ => exec_of_holds, fun s redop reg0 bar tcount c p b k h => ?_, fun s reg0 bar tcount b k h => ?_,
    fun s mode reg0 p1 imm28 p0 h => ?_⟩
  · rw [holds, barRedHeld_iff, State.barRedArrival_of_ready h]
    simp [State.arrivalHeld_iff]
  · rw [holds, barArvHeld_iff, State.barArvArrival_of_ready h]
    simp [State.arrivalHeld_iff]
  · rw [holds, voteHeld_iff, voteForm_of_shown h, ← State.assembled_iff]
    simp

/-! ## The release -/

theorem countTrue_eq_count (votes : List Bool) : countTrue votes = votes.count true := by
  rw [countTrue, List.count_eq_length_filter]
  exact congrArg List.length (List.filter_congr fun v _ => by simp)

/-- Whoever waits once at a barrier is released as its waiter says. -/
theorem Barrier.releaseThread_of_waiter {x : Barrier} (hn : (x.waiters.map Waiter.thread).Nodup) {w : Waiter}
    (hw : w ∈ x.waiters) (t : Thread) : x.releaseThread w.thread t = t.released x.votes w := by
  obtain ⟨w', hw', hi, e⟩ | ⟨h, -⟩ := x.releaseThread_cases w.thread t
  · rwa [List.inj_on_of_nodup_map hn hw' hw hi] at e
  · exact absurd rfl (h w hw)

theorem Barrier.releaseThread_of_other {x : Barrier} {i : Nat} (h : ∀ w ∈ x.waiters, w.thread ≠ i) (t : Thread) :
    x.releaseThread i t = t := by
  obtain ⟨w, hw, hi, -⟩ | ⟨-, e⟩ := x.releaseThread_cases i t
  · exact absurd hi (h w hw)
  · exact e

section
variable (t : Thread) (votes : List Bool) {w : Waiter}

theorem Thread.released_popc (h : w.redop = .popc) : t.released votes w =
    { t.writeReg w.reg0 (BitVec.ofNat 32 (votes.count true)) with status := .running, pc := t.pc + 8 } := by
  rw [Thread.released, h, ← countTrue_eq_count]
  rfl

theorem Thread.released_and (h : w.redop = .and) : t.released votes w =
    { t.writePred w.p (decide (∀ v ∈ votes, v = true)) with status := .running, pc := t.pc + 8 } := by
  rw [Thread.released, h, show decide (∀ v ∈ votes, v = true) = votes.all id by rw [Bool.eq_iff_iff]; simp]
  rfl

theorem Thread.released_or (h : w.redop = .or) : t.released votes w =
    { t.writePred w.p (decide (∃ v ∈ votes, v = true)) with status := .running, pc := t.pc + 8 } := by
  rw [Thread.released, h, show decide (∃ v ∈ votes, v = true) = votes.any id by rw [Bool.eq_iff_iff]; simp]
  rfl

end

/-- Settles O44: the release that is chosen is pending, and each thread is released as the one waiter that stands for it
says. -/
theorem releaseFreesAllWaiters : Obligations.ReleaseFreesAllWaiters := by
  intro s b rest hw hc
  obtain ⟨hn, -⟩ := hw b
  refine ⟨Barrier.pending_iff.1 (State.nextChoice_enabled hc), (s.begin (.release b) rest).releaseBarrier b,
    by simp only [step, hc, State.act], rfl, rfl, rfl, rfl, rfl, ?_, ⟨_, rfl, by simp [State.begin, State.ready]⟩,
    fun i u hu => ?_⟩
  · exact moved_blockSize (s := s.begin (.release b) rest) (.release (State.nextChoice_enabled hc))
  · have ht : ((s.begin (.release b) rest).releaseBarrier b).threadList[i]? =
        some (s.barriers[b].releaseThread i u) := by
      rw [State.releaseBarrier_threadList, show (s.begin (.release b) rest).threadList = s.threadList from rfl, hu]
      rfl
    rw [ht]
    refine ⟨fun h => by rw [Barrier.releaseThread_of_other h], fun w hm hi => ?_⟩
    subst hi
    rw [Barrier.releaseThread_of_waiter hn hm]
    exact ⟨fun h => congrArg some (u.released_popc _ h), fun h => congrArg some (u.released_and _ h),
      fun h => congrArg some (u.released_or _ h)⟩

/-! ## The vote group -/

section
variable {s : State} {p1 : PredSrc}

theorem State.inVote_self (h : s.thread.status = .running) : inVote s s.index s.thread :=
  ⟨s.threadList_index, rfl, by rw [h]; decide⟩

theorem State.votes_iff {i : Nat} {u : Thread} (hu : s.threadList[i]? = some u) :
    s.votes i u = true ↔ inVote s i u := by
  simp [State.votes, Params.groupOf, inVote, hu]

/-- The values that are voted. -/
def State.voteValues (s : State) (p1 : PredSrc) : List Bool := s.voters.map fun p => p.2.psrcValue p1

theorem State.mem_voteValues {v : Bool} :
    v ∈ s.voteValues p1 ↔ ∃ j u, inVote s j u ∧ xor (u.predValue p1.idx) p1.neg = v := by
  simp only [State.voteValues, List.mem_map, Prod.exists, State.mem_voters, Thread.psrcValue]

/-- The voters stand in index order. -/
theorem State.voters_pairwise (s : State) : s.voters.Pairwise fun p q => p.1 < q.1 := by
  refine List.Pairwise.filter _ (List.pairwise_iff_getElem.2 fun i j hi hj hij => ?_)
  simpa using hij

/-! ## The result and the ballot -/

theorem voteResult_all {vs : List Bool} : voteResult .all vs = true ↔ ∀ v ∈ vs, v = true := by simp [voteResult]

theorem voteResult_any {vs : List Bool} : voteResult .any vs = true ↔ true ∈ vs := by simp [voteResult]

/-- All values are equal exactly if all are true or all are false. -/
theorem voteResult_eq {vs : List Bool} : voteResult .eq vs = true ↔ ∀ v ∈ vs, ∀ w ∈ vs, v = w := by
  simp only [voteResult, Bool.or_eq_true, List.all_eq_true, id, Bool.not_eq_true']
  constructor
  · rintro (h | h) v hv w hw <;> rw [h v hv, h w hw]
  · intro h
    by_cases ht : true ∈ vs
    · exact .inl fun v hv => h v hv true ht
    · exact .inr fun v hv => Bool.eq_false_iff.2 fun hc => ht (hc ▸ hv)

/-- A bit of a mask to which each chosen element of a list adds the bit of its lane. -/
theorem getLsbD_foldl_lanes {α : Type} (chosen : α → Bool) (lane : α → Nat) {l : Nat} (hl : l < 32) (xs : List α)
    (m : Word) : (xs.foldl (fun m x => if chosen x then m ||| (1#32 <<< lane x) else m) m).getLsbD l = true ↔
      m.getLsbD l = true ∨ ∃ x ∈ xs, chosen x = true ∧ lane x = l := by
  induction xs generalizing m with
  | nil => simp
  | cons x xs ih =>
    rw [List.foldl_cons, ih]
    cases hx : chosen x with
    | false => simp [hx]
    | true =>
      have hbit : (1#32 <<< lane x).getLsbD l = true ↔ lane x = l := by
        rw [BitVec.getLsbD_shiftLeft, BitVec.getLsbD_one]
        simp
        omega
      rw [if_pos rfl, BitVec.getLsbD_or, Bool.or_eq_true, hbit]
      simp [hx, or_assoc]

theorem State.getLsbD_ballot {l : Nat} (hl : l < 32) : (s.ballot p1).getLsbD l = true ↔
    ∃ j u, inVote s j u ∧ j % s.params.warpSize = l ∧ xor (u.predValue p1.idx) p1.neg = true := by
  refine (getLsbD_foldl_lanes (fun p : Nat × Thread => p.2.psrcValue p1) (fun p => s.params.laneOf p.1) hl s.voters
    0#32).trans ?_
  simp only [BitVec.getLsbD_zero, Bool.false_eq_true, false_or, Prod.exists, State.mem_voters, Thread.psrcValue,
    Params.laneOf]
  exact exists_congr fun j => exists_congr fun u => and_congr_right fun _ => and_comm

/-! ## Whose predicate is unwritten -/

theorem Thread.voteFault_of_readable {t : Thread} (h : t.predReadable p1.idx = true) : t.voteFault p1 = none := by
  rw [Thread.voteFault, Thread.psrc_of_readable h]

theorem State.failedVoter_eq_none (h : ∀ j u, inVote s j u → u.predReadable p1.idx = true) :
    s.failedVoter p1 = none := by
  refine List.findSome?_eq_none_iff.2 fun p hp => ?_
  rw [Thread.voteFault_of_readable (h p.1 p.2 (State.mem_voters.1 hp))]
  rfl

/-- The voter whose fault is recorded is the lowest whose predicate is unwritten. -/
theorem State.failedVoter_eq_some {k : Nat} {u : Thread} (hk : inVote s k u) {e : Stop} (he : u.voteFault p1 = some e)
    (hlow : ∀ j v, j < k → inVote s j v → v.predReadable p1.idx = true) : s.failedVoter p1 = some (k, u.pc, e) := by
  have hmem : (k, u) ∈ s.voters := State.mem_voters.2 hk
  cases hf : s.failedVoter p1 with
  | none => exact absurd (List.findSome?_eq_none_iff.1 hf _ hmem) (by simp [he])
  | some r =>
    obtain ⟨before, ⟨i, v⟩, after, hsplit, hv, hbefore⟩ := List.findSome?_eq_some_iff.1 hf
    have hi : (i, v) ∈ s.voters := by rw [hsplit]; simp
    have hki : ¬ i < k := fun hlt => by
      simp [Thread.voteFault_of_readable (hlow i v hlt (State.mem_voters.1 hi))] at hv
    rw [hsplit] at hmem
    rcases List.mem_append.1 hmem with hb | ha
    · exact absurd (hbefore _ hb) (by simp [he])
    · rcases List.mem_cons.1 ha with heq | ha
      · cases heq
        simpa [he, eq_comm] using hv
      · have hord := s.voters_pairwise
        rw [hsplit] at hord
        exact absurd (List.rel_of_pairwise_cons (List.pairwise_append.1 hord).2.1 ha) hki

/-! ## A VOTE of an assembled group -/

section
variable {mode : VoteMode} {reg0 : RegIdx} {imm28 : BitVec 28} {p0 : PredIdx} (hs : voteShown mode reg0 imm28)
  (ha : voteAssembled s)
include hs ha

theorem exec_vote_of_own_fault {e : Stop} (h : s.thread.psrc p1 = .error e) :
    exec (.vote mode reg0 p1 imm28 p0) s = outcome (.error e) := by
  rw [exec, execVote, voteForm_of_shown hs, State.assembled_iff.2 ha, h]
  rfl

theorem exec_vote_of_failed {v : Bool} (h : s.thread.psrc p1 = .ok v) {k : Nat} {pc : CodeAddr} {e : Stop}
    (hf : s.failedVoter p1 = some (k, pc, e)) : exec (.vote mode reg0 p1 imm28 p0) s =
      .next (s.stopVoter k pc (encode (.vote mode reg0 p1 imm28 p0)) e) := by
  simp only [exec, execVote, voteForm_of_shown hs, State.assembled_iff.2 ha, h, hf]
  rfl

theorem exec_vote_of_cast {v : Bool} (h : s.thread.psrc p1 = .ok v) (hf : s.failedVoter p1 = none) :
    exec (.vote mode reg0 p1 imm28 p0) s = .next (s.castVote mode reg0 p1 p0) := by
  simp only [exec, execVote, voteForm_of_shown hs, State.assembled_iff.2 ha, h, hf]
  rfl

end

end

theorem State.mapThreads_index (s : State) (f : Nat → Thread → Thread) : (s.mapThreads f).index = s.index :=
  List.length_mapIdx

theorem State.mapThreads_blockSize (s : State) (f : Nat → Thread → Thread) :
    (s.mapThreads f).blockSize = s.blockSize := by
  rw [State.blockSize, State.mapThreads_threadList, List.length_mapIdx, State.blockSize]

/-- Settles O59: nobody's predicate is unwritten, so the vote is cast. -/
theorem voteCasts : Obligations.VoteCasts := by
  intro s mode reg0 p1 imm28 p0 hs ha hr hrun
  have hown := Thread.psrc_of_readable (c := p1) (hr _ _ (State.inVote_self hrun))
  refine ⟨_, voteResult mode (s.voteValues p1), s.ballot p1,
    exec_vote_of_cast hs ha hown (State.failedVoter_eq_none hr), fun h => ?_, fun h => ?_, fun h => ?_,
    fun l hl => State.getLsbD_ballot hl, fun i u hu => ?_, State.mapThreads_index s _, State.mapThreads_blockSize s _,
    rfl, rfl, rfl, rfl, rfl, rfl⟩
  · rw [h, voteResult_all]
    exact ⟨fun h j u hj => h _ (State.mem_voteValues.2 ⟨j, u, hj, rfl⟩),
      fun h v hv => by obtain ⟨j, u, hj, rfl⟩ := State.mem_voteValues.1 hv; exact h j u hj⟩
  · rw [h, voteResult_any, State.mem_voteValues]
  · rw [h, voteResult_eq]
    refine ⟨fun h j u k v hj hk =>
      h _ (State.mem_voteValues.2 ⟨j, u, hj, rfl⟩) _ (State.mem_voteValues.2 ⟨k, v, hk, rfl⟩), fun h v hv w hw => ?_⟩
    obtain ⟨j, u, hj, rfl⟩ := State.mem_voteValues.1 hv
    obtain ⟨k, u', hk, rfl⟩ := State.mem_voteValues.1 hw
    exact h j u k u' hj hk
  · rw [State.castVote_threadList, hu, ← State.votes_iff hu]
    exact ⟨fun hv => congrArg some (if_pos hv), fun hv => congrArg some (if_neg hv)⟩

/-- Settles O60: the refusals of the form, then the voting thread's own fault, then that of the lowest voter. -/
theorem voteStops : Obligations.VoteStops := by
  intro s reg0 p1 imm28 p0
  refine ⟨fun mode h => exec_vote_of_form (voteForm_of_vtg h), fun mode h => ?_, fun mode hs ha h => ?_,
    fun mode k u hs ha h hk hu hlow => ?_⟩
  · obtain ⟨code, rfl⟩ | ⟨hm, h⟩ := h
    · exact exec_vote_of_form (voteForm_of_noRow code)
    · exact exec_vote_of_form (voteForm_of_notShown hm h)
  · obtain ⟨j, hj, -, he⟩ := Thread.psrc_of_unwritten (c := p1) h
    exact ⟨j, hj, exec_vote_of_own_fault hs ha he⟩
  · obtain ⟨q, hq, -, he⟩ := Thread.psrc_of_unwritten (c := p1) hu
    have hfault : u.voteFault p1 = some (.fault (.unwrittenRegister (.pred q))) := by rw [Thread.voteFault, he]
    refine ⟨_, q, hq, exec_vote_of_failed hs ha (Thread.psrc_of_readable (c := p1) h)
      (State.failedVoter_eq_some hk hfault hlow), ?_, fun j v hj hv => ?_, ?_, State.mapThreads_blockSize s _, rfl, rfl,
      rfl, rfl, rfl⟩
    · rw [State.stopVoter_threadList, hk.1]
      exact congrArg some (if_pos rfl)
    · rw [State.stopVoter_threadList, hv]
      exact congrArg some (if_neg hj)
    · rw [← (ha k u hk).2]
      rfl

end Sys2Proof.Machine
end

section
/-!
PROOFS. ATOM and RED: the offset and the address, where each stops, what an access that is the last of the order does,
and the table of the operations (`spec/41_sync_atomic.md` rules R145 to R149, R151; `spec/30_encoding.md` rules R86,
R87).
-/

namespace Sys2Proof.Machine

open Sys2Proof Sys2Proof.Safety

/-! ## Offset and address -/

section
variable {ps : Params} {n : Nat} {off : BitVec n}

theorem Params.extend_of_low (h : off.msb = false) : ps.extend off = .ok (off.setWidth 64) := by
  simp [Params.extend, h]

theorem Params.extend_of_open (h : off.msb = true) (hp : ps.atomOffsetSigned = none) :
    ps.extend off = .error (.refusal .offsetSignOpen) := by
  simp [Params.extend, h, hp]

theorem Params.extend_of_unsigned (hp : ps.atomOffsetSigned = some false) : ps.extend off = .ok (off.setWidth 64) := by
  simp [Params.extend, hp]

theorem Params.extend_of_signed (h : off.msb = true) (hp : ps.atomOffsetSigned = some true) :
    ps.extend off = .ok (BitVec.ofInt 64 off.toInt) := by
  simp [Params.extend, h, hp, BitVec.signExtend]

end

/-- RED's offset is open to a sign only with `.E`, or where an address is wider than the offset (log 23). -/
theorem State.redOffset_of_wide {s : State} {e : Bool} (h : e = true ∨ 32 < s.params.addrWidth) (imm32 : BitVec 32) :
    s.redOffset e imm32 = s.params.extend imm32 := if_pos (by simpa using h)

theorem State.redOffset_of_narrow {s : State} (h : s.params.addrWidth ≤ 32) (imm32 : BitVec 32) :
    s.redOffset false imm32 = .ok (imm32.setWidth 64) := if_neg (by simpa using h)

/-- The sum of 64 bits does not wrap before an address of at most 64 bits does. -/
theorem effectiveAddress_eq {width : Nat} (h : width ≤ 64) (base off : Wide) :
    effectiveAddress width base off = (base.toNat + off.toNat) % 2 ^ width := by
  rw [effectiveAddress, BitVec.toNat_add, Nat.mod_mod_of_dvd _ (pow_dvd_pow 2 h)]

/-- Settles O50: an offset by its top bit and the parameter, and the sum of base and offset. -/
theorem effectiveAddresses : Obligations.EffectiveAddresses := by
  refine ⟨fun s imm20 h => ?_, fun s imm20 h => ⟨?_, fun hp => ?_, ?_⟩, fun s imm32 h => ?_, fun s imm32 h => ?_,
    fun s imm32 h => ?_, fun t reg1 off width h => ?_, fun ps => ⟨rfl, rfl⟩, ⟨rfl, rfl⟩, fun t e => ?_⟩
  · rw [BitVec.ofNat_toNat]
    exact Params.extend_of_low h
  · exact Params.extend_of_open h
  · rw [BitVec.ofNat_toNat]
    exact Params.extend_of_unsigned hp
  · exact Params.extend_of_signed h
  · rw [BitVec.ofNat_toNat]
    exact State.redOffset_of_narrow h imm32
  · rw [BitVec.ofNat_toNat, State.redOffset_of_wide (.inl rfl)]
    exact Params.extend_of_low h
  · rw [BitVec.ofNat_toNat, State.redOffset_of_wide (.inl rfl)]
    exact ⟨Params.extend_of_open h, Params.extend_of_unsigned, Params.extend_of_signed h⟩
  · rw [effectiveAddress_eq h, effectiveAddress_eq h]
    exact ⟨by rw [Thread.operandValue, if_neg (by decide), BitVec.toNat_setWidth_of_le (by decide)], rfl⟩
  · cases e <;> simp [Thread.operandValue, Thread.pairValue]

/-! ## The access as the last of the order -/

theorem Thread.readReg_writeOperand_other (t : Thread) {wide : Bool} {i j : RegIdx} (hi : operandOk wide i = true)
    (h : i = rz ∨ (j ≠ i ∧ (wide = true → j ≠ i + 1#6))) (v : Wide) :
    (t.writeOperand wide i v).readReg j = t.readReg j := by
  by_cases hz : i = rz
  · subst hz
    cases wide <;> simp [Thread.writeOperand, Thread.writePair]
  · obtain ⟨hj, hj'⟩ := h.resolve_left hz
    cases wide with
    | false => exact t.readReg_writeReg_other hj _
    | true =>
      obtain ⟨he, hle⟩ := (pairOk_iff.1 hi).resolve_left hz
      exact t.readReg_writePair_other v he hle hj (hj' rfl)

/-- What fits the width of a destination other than `RZ` is read back from it. -/
theorem Thread.readOperand_writeOperand (t : Thread) {wide : Bool} {i : RegIdx} (hi : operandOk wide i = true)
    (hz : i ≠ rz) {v : Wide} (hv : wide = false → (v.setWidth 32).setWidth 64 = v) :
    (t.writeOperand wide i v).readOperand wide i = .ok v := by
  cases wide with
  | false =>
    show ((t.writeReg i (v.setWidth 32)).readReg i).map (BitVec.setWidth 64) = .ok v
    rw [t.readReg_writeReg_same hz]
    exact congrArg Except.ok (hv rfl)
  | true =>
    obtain ⟨he, hle⟩ := (pairOk_iff.1 hi).resolve_left hz
    exact t.readPair_writePair v he hle

/-- What `n` bytes hold is below `2^(8n)`. -/
theorem Memory.read_toNat_lt (m : List Host.Cell) (a n : Nat) : (Memory.read m a n).toNat < 2 ^ (8 * n) := by
  induction n generalizing a with
  | zero => simp
  | succ n ih =>
    have hlow : ((Memory.readByte m a).setWidth 64).toNat < 2 ^ (8 * (n + 1)) := by
      rw [BitVec.toNat_setWidth_of_le (by decide)]
      exact (Memory.readByte m a).isLt.trans_le (Nat.pow_le_pow_right (by decide) (by omega))
    have hhigh : (Memory.read m (a + 1) n <<< 8).toNat < 2 ^ (8 * (n + 1)) := by
      rw [BitVec.toNat_shiftLeft, Nat.shiftLeft_eq, show 8 * (n + 1) = 8 * n + 8 from rfl, Nat.pow_add]
      exact (Nat.mod_le _ _).trans_lt (Nat.mul_lt_mul_of_pos_right (ih _) (by decide))
    rw [Memory.read_succ, BitVec.toNat_or]
    exact Nat.or_lt_two_pow hlow hhigh

theorem Memory.read_four_fits (m : List Host.Cell) (a : Nat) :
    ((Memory.read m a 4).setWidth 32).setWidth 64 = Memory.read m a 4 := by
  refine BitVec.eq_of_toNat_eq ?_
  rw [BitVec.toNat_setWidth_of_le (by decide), BitVec.toNat_setWidth, Nat.mod_eq_of_lt (Memory.read_toNat_lt m a 4)]

/-- Settles O51: the access that is asked for is made last, and the destination is written with what it read. -/
theorem atomPerformsItsAccess : Obligations.AtomPerformsItsAccess := by
  intro s op ty e reg3 reg1 imm20 reg0 reg4 off a old new h hp ha hal hm hold hnew
  have ⟨_, _, _, _, _, _, ho3, _⟩ := h
  refine ⟨?_, fun x hx => Memory.readByte_write_outside _ hx _,
    fun r hr => s.thread.readReg_writeOperand_other ho3 hr old,
    fun hz => s.thread.readOperand_writeOperand ho3 hz fun hw => ?_⟩
  · rw [← State.valueRead_none hp] at hold
    rw [← atomApply_casOperand] at hnew
    subst hold hnew
    simp only [exec, execAtom, State.atomRequest_of_ready h ha hal hm, except_ok_bind, outcome_ok, State.atomAccess_eq,
      State.later_none hp, insertEvent_zero, Memory.writeUnder_eq_write (State.overwritten_none hp)]
    rfl
  · rw [hold, AtomType.bytes, hw]
    exact Memory.read_four_fits _ _

/-- Settles O52: the access that is asked for is made last. -/
theorem redPerformsItsAccess : Obligations.RedPerformsItsAccess := by
  intro s op ty e reg1 imm32 reg0 off a old new h hp ha hal hm hold hnew
  refine ⟨?_, fun x hx => Memory.readByte_write_outside _ hx _⟩
  rw [← State.valueRead_none hp] at hold
  subst hold hnew
  simp only [exec, execRed, State.redRequest_of_ready h ha hal hm, except_ok_bind, outcome_ok, State.redAccess_eq,
    State.later_none hp, insertEvent_zero, Memory.writeUnder_eq_write (State.overwritten_none hp)]
  rfl

/-! ## Where a request stops -/

theorem operandOk_eq_false_iff {wide : Bool} {i : RegIdx} :
    operandOk wide i = false ↔ wide = true ∧ pairOk i = false := by
  simp [operandOk]

theorem valid_eq_false {op : AtomOp} {ty : AtomType} (h : (∃ code, op = .invalid code) ∨ ∃ code, ty = .invalid code) :
    (op.valid && ty.valid) = false := by
  obtain ⟨code, rfl⟩ | ⟨code, rfl⟩ := h
  · rfl
  · exact Bool.and_false _

theorem valid_eq_true {op : AtomOp} {ty : AtomType} (hop : ∀ code, op ≠ .invalid code)
    (hty : ∀ code, ty ≠ .invalid code) : (op.valid && ty.valid) = true := by
  refine Bool.and_eq_true_iff.2 ⟨?_, ?_⟩
  · cases op with
    | invalid code => exact absurd rfl (hop code)
    | _ => rfl
  · cases ty with
    | invalid code => exact absurd rfl (hty code)
    | _ => rfl

theorem reg4Ok_eq_false {op : AtomOp} {ty : AtomType} {reg0 reg4 : RegIdx}
    (h : (op ≠ .cas ∧ reg4 ≠ 0#6 ∧ reg4 ≠ rz) ∨ (op = .cas ∧ reg4.toNat ≠ reg0.toNat + ty.bytes / 4)) :
    reg4Ok op ty reg0 reg4 = false := by
  obtain ⟨hop, h0, hz⟩ | ⟨hop, h⟩ := h
  · simp [reg4Ok, hop, unusedOk, h0, hz]
  · rw [AtomType.bytes] at h
    cases hw : ty.isWide <;> simpa [reg4Ok, hop, hw] using h

/-- The reads of an ATOM or RED whose fields are good, and the checks of its address (rules R148, R149, R183). -/
def State.readAccess (s : State) (op : AtomOp) (ty : AtomType) (e : Bool) (reg1 reg0 reg4 : RegIdx) (off : Wide) :
    Except Stop Access := do
  let base ← s.thread.readOperand e reg1
  let b ← s.thread.readOperand ty.isWide reg0
  let c ← if op = .cas then s.thread.readOperand ty.isWide reg4 else .ok 0#64
  let a := effectiveAddress (s.params.dataWidth e) base off
  s.checkAccess a ty.bytes
  .ok ⟨a, op, ty, b, c⟩

section
variable {s : State} {op : AtomOp} {ty : AtomType} {e : Bool} {reg3 reg1 : RegIdx} {imm20 : BitVec 20}
  {imm32 : BitVec 32} {reg0 reg4 : RegIdx} {off : Wide}

theorem State.readAccess_of_missing {x : Source} (h : ((missingOperand s.thread e reg1).or
      (missingOperand s.thread ty.isWide reg0)).or
        (if op = .cas then missingOperand s.thread ty.isWide reg4 else none) = some x) :
    s.readAccess op ty e reg1 reg0 reg4 off = .error (.fault (.unwrittenRegister x)) := by
  rw [Option.or_assoc] at h
  simp only [State.readAccess, Thread.readOperand_eq]
  refine readOr_bind_eq_error h fun h => readOr_bind_eq_error h fun h => ?_
  split at h
  · next hop => rw [if_pos hop, h]; rfl
  · cases h

theorem State.checkAccess_of_misaligned {a n : Nat} (h : a % n ≠ 0) :
    s.checkAccess a n = .error (.fault (.misalignedAddress a)) := by
  rw [State.checkAccess, beq_eq_false_iff_ne.2 h]
  rfl

theorem State.checkAccess_of_unallocated {a n : Nat} (h : a % n = 0) (hm : ¬ allocated s a n) :
    s.checkAccess a n = .error (.fault (.badAddress a)) := by
  rw [State.checkAccess, beq_iff_eq.2 h, Bool.eq_false_iff.2 (mt admits_iff_allocated.1 hm)]
  rfl

theorem State.readAccess_of_badAddress (hr1 : s.thread.operandReadable e reg1 = true)
    (hr0 : s.thread.operandReadable ty.isWide reg0 = true)
    (hrc : op = .cas → s.thread.operandReadable ty.isWide reg4 = true) {r : Stop}
    (h : s.checkAccess (effectiveAddress (s.params.dataWidth e) (s.thread.operandValue e reg1) off) ty.bytes =
      .error r) :
    s.readAccess op ty e reg1 reg0 reg4 off = .error r := by
  simp only [State.readAccess, Thread.readOperand_of_readable hr1, Thread.readOperand_of_readable hr0, except_ok_bind]
  split
  · next hop => simp only [Thread.readOperand_of_readable (hrc hop), except_ok_bind, h, except_error_bind]
  · simp only [h, except_error_bind]

/-! ## ATOM's stops -/

theorem exec_atom_of_error {r : Stop} (h : s.atomRequest op ty e reg3 reg1 imm20 reg0 reg4 = .error r) :
    exec (.atom op ty e reg3 reg1 imm20 reg0 reg4) s = outcome (.error r) := by
  rw [exec, execAtom, h]
  rfl

theorem State.atomRequest_of_form {r : Stop} (h : atomForm op ty reg0 reg4 = .error r) :
    s.atomRequest op ty e reg3 reg1 imm20 reg0 reg4 = .error r := by
  rw [State.atomRequest, h]
  rfl

section
variable (hpair : admittedPair op ty = true) (h4 : reg4Ok op ty reg0 reg4 = true)
include hpair h4

theorem State.atomRequest_of_offset {r : Stop} (h : s.atomOffset imm20 = .error r) :
    s.atomRequest op ty e reg3 reg1 imm20 reg0 reg4 = .error r := by
  rw [State.atomRequest, atomForm_of_shown hpair h4, h]
  rfl

variable (hoff : s.atomOffset imm20 = .ok off)
include hoff

theorem State.atomRequest_of_badPair (h : operandOk e reg1 = false ∨ operandOk ty.isWide reg0 = false ∨
      (op != .cas || operandOk ty.isWide reg4) = false ∨ operandOk ty.isWide reg3 = false) :
    s.atomRequest op ty e reg3 reg1 imm20 reg0 reg4 = .error (.refusal .badRegisterPair) := by
  rw [State.atomRequest, atomForm_of_shown hpair h4, hoff]
  exact check_bind_eq_error (h.imp_right fun h => check_bind_eq_error (h.imp_right check_check_eq_error))

theorem State.atomRequest_of_pairs (h1 : operandOk e reg1 = true) (h0 : operandOk ty.isWide reg0 = true)
    (hc : op = .cas → operandOk ty.isWide reg4 = true) (h3 : operandOk ty.isWide reg3 = true) :
    s.atomRequest op ty e reg3 reg1 imm20 reg0 reg4 = s.readAccess op ty e reg1 reg0 reg4 off := by
  have hcas : (op != .cas || operandOk ty.isWide reg4) = true := by
    by_cases hop : op = .cas
    · simp [hc hop]
    · simp [hop]
  rw [State.atomRequest, atomForm_of_shown hpair h4, hoff, h1, h0, hcas, h3]
  rfl

end

/-! ## RED's stops -/

theorem exec_red_of_error {r : Stop} (h : s.redRequest op ty e reg1 imm32 reg0 = .error r) :
    exec (.red op ty e reg1 imm32 reg0) s = outcome (.error r) := by
  rw [exec, execRed, h]
  rfl

theorem State.redRequest_of_form {r : Stop} (h : redForm op ty = .error r) :
    s.redRequest op ty e reg1 imm32 reg0 = .error r := by
  rw [State.redRequest, h]
  rfl

section
variable (hpair : admittedPair op ty = true) (hex : op ≠ .exch) (hcas : op ≠ .cas)
include hpair hex hcas

theorem State.redRequest_of_offset {r : Stop} (h : s.redOffset e imm32 = .error r) :
    s.redRequest op ty e reg1 imm32 reg0 = .error r := by
  rw [State.redRequest, redForm_of_shown hpair hex hcas, h]
  rfl

variable (hoff : s.redOffset e imm32 = .ok off)
include hoff

theorem State.redRequest_of_badPair (h : operandOk e reg1 = false ∨ operandOk ty.isWide reg0 = false) :
    s.redRequest op ty e reg1 imm32 reg0 = .error (.refusal .badRegisterPair) := by
  rw [State.redRequest, redForm_of_shown hpair hex hcas, hoff]
  exact check_check_eq_error h

/-- RED reads what an ATOM other than `.CAS` reads. -/
theorem State.redRequest_of_pairs (h1 : operandOk e reg1 = true) (h0 : operandOk ty.isWide reg0 = true) :
    s.redRequest op ty e reg1 imm32 reg0 = s.readAccess op ty e reg1 reg0 rz off := by
  rw [State.redRequest, redForm_of_shown hpair hex hcas, hoff, h1, h0]
  simp only [checkRefuse_true, except_ok_bind, State.readAccess, if_neg hcas]

end

end

/-- Settles O54: the form, the offset, the register pairs, the reads and the address, in this order. -/
theorem atomStops : Obligations.AtomStops := by
  intro s op ty e reg3 reg1 imm20 reg0 reg4
  refine ⟨fun h => ?_, fun hop hty h => ?_, fun hpair h4 => ⟨fun hm hp => ?_, fun off hoff => ⟨fun h => ?_,
    fun h1 h0 h3 hc x hx => ?_⟩⟩, fun off a h ha => ?_⟩
  · exact exec_atom_of_error (State.atomRequest_of_form (check_bind_eq_error (.inl (valid_eq_false h))))
  · refine exec_atom_of_error (r := .refusal .notShown) (State.atomRequest_of_form ?_)
    rw [atomForm, valid_eq_true hop hty]
    exact check_bind_eq_error (h.imp_right fun h => by rw [reg4Ok_eq_false h]; rfl)
  · exact exec_atom_of_error (State.atomRequest_of_offset hpair h4 (Params.extend_of_open hm hp))
  · refine exec_atom_of_error (State.atomRequest_of_badPair hpair h4 hoff ?_)
    obtain ⟨he, h⟩ | ⟨hw, h | h | ⟨hop, h⟩⟩ := h
    · exact .inl (operandOk_eq_false_iff.2 ⟨he, h⟩)
    · exact .inr (.inl (operandOk_eq_false_iff.2 ⟨hw, h⟩))
    · exact .inr (.inr (.inr (operandOk_eq_false_iff.2 ⟨hw, h⟩)))
    · exact .inr (.inr (.inl (by rw [hop, operandOk_eq_false_iff.2 ⟨hw, h⟩]; rfl)))
  · exact exec_atom_of_error
      ((State.atomRequest_of_pairs hpair h4 hoff h1 h0 hc h3).trans (State.readAccess_of_missing hx))
  · obtain ⟨hpair, h4, hoff, ho1, ho0, hoc, ho3, hr1, hr0, hrc⟩ := h
    subst ha
    have hstop := fun {r} hr => exec_atom_of_error ((State.atomRequest_of_pairs hpair h4 hoff ho1 ho0 hoc ho3).trans
      (State.readAccess_of_badAddress (r := r) hr1 hr0 hrc hr))
    exact ⟨fun h => hstop (State.checkAccess_of_misaligned h),
      fun h hm => hstop (State.checkAccess_of_unallocated h hm)⟩

/-- Settles O55: the form, the offset, the register pairs, the reads and the address, in this order. -/
theorem redStops : Obligations.RedStops := by
  intro s op ty e reg1 imm32 reg0
  refine ⟨fun h => ?_, fun hop hty hex hcas h => ?_, fun hpair hex hcas => ⟨fun hw hm hp => ?_,
    fun off hoff => ⟨fun h => ?_, fun h1 h0 x hx => ?_⟩⟩, fun off a h ha => ?_⟩
  · refine exec_red_of_error (State.redRequest_of_form (check_bind_eq_error (.inl ?_)))
    obtain h | h | rfl | rfl := h
    · rw [valid_eq_false (.inl h)]
      rfl
    · rw [valid_eq_false (.inr h)]
      rfl
    · simp
    · simp
  · refine exec_red_of_error (r := .refusal .notShown) (State.redRequest_of_form ?_)
    rw [redForm, valid_eq_true hop hty, bne_iff_ne.2 hex, bne_iff_ne.2 hcas, h]
    rfl
  · refine exec_red_of_error (r := .refusal .offsetSignOpen) (State.redRequest_of_offset hpair hex hcas ?_)
    rw [State.redOffset_of_wide hw]
    exact Params.extend_of_open hm hp
  · exact exec_red_of_error (State.redRequest_of_badPair hpair hex hcas hoff
      (h.imp operandOk_eq_false_iff.2 operandOk_eq_false_iff.2))
  · refine exec_red_of_error ((State.redRequest_of_pairs hpair hex hcas hoff h1 h0).trans
      (State.readAccess_of_missing ?_))
    rw [hx]
    rfl
  · obtain ⟨hpair, hex, hcas, hoff, ho1, ho0, hr1, hr0⟩ := h
    subst ha
    have hstop := fun {r} hr => exec_red_of_error ((State.redRequest_of_pairs hpair hex hcas hoff ho1 ho0).trans
      (State.readAccess_of_badAddress (r := r) hr1 hr0 (fun hc => absurd hc hcas) hr))
    exact ⟨fun h => hstop (State.checkAccess_of_misaligned h),
      fun h hm => hstop (State.checkAccess_of_unallocated h hm)⟩

end Sys2Proof.Machine
end

section
/-!
PROOFS. What the operations of ATOM and RED compute, each as a number (`spec/41_sync_atomic.md` rules R146, R147, R151).
-/

namespace Sys2Proof.Machine

open Sys2Proof Sys2Proof.Safety

/-! ## The operations on numbers -/

section
variable {n : Nat} (old b : BitVec n)

theorem toNat_atomMin : (atomMin false old b).toNat = min old.toNat b.toNat := by
  rw [atomMin, if_neg (by decide), apply_ite BitVec.toNat, min_def]

theorem toNat_atomMax : (atomMax false old b).toNat = max old.toNat b.toNat := by
  rw [atomMax, if_neg (by decide), apply_ite BitVec.toNat, max_comm, max_def]

theorem toInt_atomMin : (atomMin true old b).toInt = min old.toInt b.toInt := by
  rw [atomMin, if_pos rfl, apply_ite BitVec.toInt, min_def]

theorem toInt_atomMax : (atomMax true old b).toInt = max old.toInt b.toInt := by
  rw [atomMax, if_pos rfl, apply_ite BitVec.toInt, max_comm, max_def]

/-- Below the operand one more does not wrap. -/
theorem toNat_atomInc : (atomInc old b).toNat = if b.toNat ≤ old.toNat then 0 else old.toNat + 1 := by
  unfold atomInc
  split
  · simp
  · next h =>
    have hlt : old.toNat + 1 < 2 ^ n := (by omega : old.toNat + 1 ≤ b.toNat).trans_lt b.isLt
    have hone : 1 < 2 ^ n := by omega
    rw [BitVec.toNat_add, BitVec.toNat_ofNat, Nat.mod_eq_of_lt hone, Nat.mod_eq_of_lt hlt]

/-- Above zero one less does not wrap. -/
theorem toNat_atomDec :
    (atomDec old b).toNat = if old.toNat = 0 ∨ b.toNat < old.toNat then b.toNat else old.toNat - 1 := by
  have hzero : old = 0#n ↔ old.toNat = 0 := by rw [← BitVec.toNat_inj, BitVec.toNat_zero]
  unfold atomDec
  simp only [hzero]
  split
  · rfl
  · next h =>
    have hone : (1#n).toNat = 1 := by rw [BitVec.toNat_ofNat, Nat.mod_eq_of_lt]; omega
    rw [BitVec.toNat_sub_of_le (by rw [BitVec.le_def, hone]; omega), hone]

end

/-! ## The container -/

theorem setWidth_container (x : BitVec 32) : (x.setWidth 64).setWidth 32 = x := by
  rw [BitVec.setWidth_setWidth_of_le _ (by decide), BitVec.setWidth_eq]

theorem toNat_container (x : BitVec 32) : (x.setWidth 64).toNat = x.toNat := BitVec.toNat_setWidth_of_le (by decide)

section
variable (op : AtomOp) (old b c : BitVec 32)

theorem atomApply_u32 : atomApply op .u32 (old.setWidth 64) (b.setWidth 64) (c.setWidth 64) =
    (atomInt op false old b c).setWidth 64 := by
  simp only [atomApply, setWidth_container]

theorem atomApply_s32 : atomApply op .s32 (old.setWidth 64) (b.setWidth 64) (c.setWidth 64) =
    (atomInt op true old b c).setWidth 64 := by
  simp only [atomApply, setWidth_container]

end

theorem admittedPair_iff (op : AtomOp) (ty : AtomType) : admittedPair op ty = true ↔ (op, ty) ∈
    [(AtomOp.add, AtomType.u32), (.add, .u64), (.add, .s32), (.add, .f32), (.min, .u32), (.min, .s32),
      (.max, .u32), (.max, .s32), (.inc, .u32), (.dec, .u32), (.and, .u32), (.or, .u32), (.xor, .u32),
      (.exch, .u32), (.exch, .u64), (.cas, .u32), (.cas, .u64)] := by
  cases op <;> cases ty <;> simp [admittedPair]

/-- Settles O56: a 32-bit operation works on the low half of the container, and each is its function of numbers. -/
theorem atomicOperationTable : Obligations.AtomicOperationTable := by
  refine ⟨admittedPair_iff, fun old b c => ⟨BitVec.toNat_add old b, rfl, rfl⟩, fun old b c => ?_, fun old b c => ?_⟩
  · simp only [atomApply, setWidth_container]
  · simp only [atomApply_u32, atomApply_s32, toNat_container, setWidth_container]
    exact ⟨BitVec.toNat_add old b, rfl, toNat_atomMin old b, toNat_atomMax old b, toInt_atomMin old b,
      toInt_atomMax old b, toNat_atomInc old b, toNat_atomDec old b, rfl, rfl, rfl, rfl, rfl⟩

end Sys2Proof.Machine
end

section
/-!
PROOFS. The FTZ.RN float sum: a magnitude rounded to a multiple of a power of two, the bits that spell it, why no other
float is nearer, and the results that are zero or a NaN (`spec/41_sync_atomic.md` rule R147).
-/

namespace Sys2Proof.Machine

open Sys2Proof Sys2Proof.Safety

/-! ## Rounding to a multiple -/

/-- The multiple of `d` nearest to `m`, ties to even, as a number of `d`s. -/
def roundEven (m d : Nat) : Nat :=
  m / d + if decide (d < 2 * (m % d)) || (2 * (m % d) == d && m / d % 2 == 1) then 1 else 0

/-- Rounding goes down from at most a half and up from at least a half, and from a half to an even number. -/
theorem roundEven_cases (m d : Nat) :
    (roundEven m d = m / d ∧ 2 * (m % d) ≤ d ∧ (2 * (m % d) = d → roundEven m d % 2 = 0)) ∨
    (roundEven m d = m / d + 1 ∧ d ≤ 2 * (m % d) ∧ (2 * (m % d) = d → roundEven m d % 2 = 0)) := by
  unfold roundEven
  split
  · next h =>
    simp only [Bool.or_eq_true, decide_eq_true_eq, Bool.and_eq_true, beq_iff_eq] at h
    exact .inr ⟨rfl, by omega, fun he => by omega⟩
  · next h =>
    simp only [Bool.or_eq_true, decide_eq_true_eq, Bool.and_eq_true, beq_iff_eq] at h
    exact .inl ⟨rfl, by omega, fun he => by omega⟩

section
variable {m d : Nat}

/-- No multiple of `d`, and nothing below the multiple that `m` reaches, is nearer to `m` than where it is rounded to;
what is as near makes that even. -/
theorem roundEven_nearest (hd : 0 < d) {w : Int} (hw : (d : Int) ∣ w ∨ w < d * (m / d : Nat)) :
    ((m : Int) - d * roundEven m d).natAbs ≤ ((m : Int) - w).natAbs ∧
    (((m : Int) - d * roundEven m d).natAbs = ((m : Int) - w).natAbs → w ≠ d * roundEven m d →
      roundEven m d % 2 = 0) := by
  have hm : (m : Int) = d * (m / d : Nat) + (m % d : Nat) := by exact_mod_cast (Nat.div_add_mod m d).symm
  have hlt : m % d < d := Nat.mod_lt m hd
  have hup : (d : Int) * (m / d + 1 : Nat) = d * (m / d : Nat) + d := by push_cast; ring
  -- a multiple of `d` is one of the two around `m`, or farther than both
  have hfar : w = d * (m / d : Nat) ∨ w = d * (m / d : Nat) + d ∨ w < d * (m / d : Nat) ∨
      d * (m / d : Nat) + d < w := by
    rcases hw with ⟨j, rfl⟩ | hw
    · have hd' : (0 : Int) < d := by exact_mod_cast hd
      rw [← hup, mul_lt_mul_iff_right₀ hd', mul_lt_mul_iff_right₀ hd', mul_right_inj' hd'.ne', mul_right_inj' hd'.ne']
      omega
    · exact .inr (.inr (.inl hw))
  obtain ⟨hN, hhalf, heven⟩ | ⟨hN, hhalf, heven⟩ := roundEven_cases m d
  · have hval : (d : Int) * roundEven m d = d * (m / d : Nat) := by rw [hN]
    rw [hval]
    generalize (d : Int) * (m / d : Nat) = below at *
    omega
  · have hval : (d : Int) * roundEven m d = d * (m / d : Nat) + d := by rw [hN, hup]
    rw [hval]
    generalize (d : Int) * (m / d : Nat) = below at *
    omega

end

/-! ## The bits of a rounded magnitude -/

/-- What a magnitude is rounded in: so that 24 significant bits are left. -/
def f32Shift (m : Nat) : Nat := m.log2 - 23

/-- A magnitude rounded to 24 significant bits, as a number of its units. -/
def f32Units (m : Nat) : Nat := roundEven m (2 ^ f32Shift m)

theorem f32Round_eq (m : Nat) : f32Round m = f32Shift m * 2 ^ 23 + f32Units m := Nat.add_assoc _ _ _

section
variable {m : Nat} (hm : 2 ^ 23 ≤ m)
include hm

/-- A magnitude in the normal range has 24 bits in front of its unit. -/
theorem f32Shift_bounds : 2 ^ 23 * 2 ^ f32Shift m ≤ m ∧ m < 2 ^ 24 * 2 ^ f32Shift m := by
  have hne : m ≠ 0 := by omega
  have hlog : 23 ≤ m.log2 := (Nat.le_log2 hne).2 hm
  rw [← Nat.pow_add, ← Nat.pow_add, f32Shift, Nat.add_sub_cancel' hlog, show 24 + (m.log2 - 23) = m.log2 + 1 by omega]
  exact ⟨Nat.log2_self_le hne, Nat.lt_log2_self⟩

theorem f32_quotient_bounds : 2 ^ 23 ≤ m / 2 ^ f32Shift m ∧ m / 2 ^ f32Shift m < 2 ^ 24 := by
  obtain ⟨hlow, hhigh⟩ := f32Shift_bounds hm
  exact ⟨(Nat.le_div_iff_mul_le (Nat.two_pow_pos _)).2 hlow, (Nat.div_lt_iff_lt_mul (Nat.two_pow_pos _)).2 hhigh⟩

theorem f32Units_bounds : 2 ^ 23 ≤ f32Units m ∧ f32Units m ≤ 2 ^ 24 := by
  obtain ⟨hlow, hhigh⟩ := f32_quotient_bounds hm
  unfold f32Units
  obtain ⟨hN, -, -⟩ | ⟨hN, -, -⟩ := roundEven_cases m (2 ^ f32Shift m)
  · omega
  · omega

/-- Below the half way from the greatest finite number to the next, a magnitude does not round to infinity. -/
theorem f32Round_lt (hmax : m < (2 ^ 25 - 1) * 2 ^ 252) : f32Round m < 255 * 2 ^ 23 := by
  obtain ⟨hlow, -⟩ := f32Shift_bounds hm
  obtain ⟨-, hunits⟩ := f32Units_bounds hm
  have hshift : f32Shift m < 254 := by
    by_contra h
    have : 2 ^ 254 ≤ 2 ^ f32Shift m := Nat.pow_le_pow_right (by decide) (by omega)
    omega
  rw [f32Round_eq]
  by_cases hlast : f32Shift m = 253
  · have hne : f32Units m ≠ 2 ^ 24 := by
      intro h
      have hq := (f32_quotient_bounds hm).2
      unfold f32Units at h
      have hdiv := Nat.div_add_mod m (2 ^ f32Shift m)
      obtain ⟨hN, hhalf, -⟩ | ⟨hN, hhalf, -⟩ := roundEven_cases m (2 ^ f32Shift m)
      · omega
      · rw [show m / 2 ^ f32Shift m = 2 ^ 24 - 1 by omega, hlast] at hdiv
        rw [hlast] at hhalf
        omega
    omega
  · omega

end

/-! ## The parts of a float -/

theorem f32Exp_eq (x : BitVec 32) : f32Exp x = x.toNat / 2 ^ 23 % 2 ^ 8 := by
  rw [f32Exp, BitVec.extractLsb'_toNat, Nat.shiftRight_eq_div_pow]

theorem f32Frac_eq (x : BitVec 32) : f32Frac x = x.toNat % 2 ^ 23 := by
  rw [f32Frac, BitVec.extractLsb'_toNat, Nat.shiftRight_zero]

section
variable (neg : Bool) {bits : Nat} (h : bits < 2 ^ 31)
include h

theorem f32WithSign_toNat : (f32WithSign neg bits).toNat = (if neg then 2 ^ 31 else 0) + bits := by
  rw [f32WithSign, BitVec.toNat_append, BitVec.toNat_ofNat, Nat.mod_eq_of_lt h, ← Nat.shiftLeft_add_eq_or_of_lt h]
  cases neg <;> rfl

theorem f32WithSign_msb : (f32WithSign neg bits).msb = neg := by
  rw [BitVec.msb_eq_decide, f32WithSign_toNat neg h]
  cases neg with
  | false => exact decide_eq_false (by simp; omega)
  | true => exact decide_eq_true (by simp)

theorem f32WithSign_exp : f32Exp (f32WithSign neg bits) = bits / 2 ^ 23 := by
  rw [f32Exp_eq, f32WithSign_toNat neg h]
  cases neg <;> simp only [Bool.false_eq_true, if_true, if_false] <;> omega

theorem f32WithSign_frac : f32Frac (f32WithSign neg bits) = bits % 2 ^ 23 := by
  rw [f32Frac_eq, f32WithSign_toNat neg h]
  cases neg <;> simp only [Bool.false_eq_true, if_true, if_false] <;> omega

end

theorem f32WithSign_zero (neg : Bool) : f32WithSign neg 0 = if neg then 0x80000000#32 else 0#32 := by
  cases neg <;> rfl

/-- The units of a rounded magnitude, from 2^23 to 2^24, stand in the bits with the exponent of their unit. -/
theorem f32WithSign_units (neg : Bool) {k n : Nat} (hlow : 2 ^ 23 ≤ n) (hhigh : n ≤ 2 ^ 24)
    (h : k * 2 ^ 23 + n < 255 * 2 ^ 23) :
    1 ≤ f32Exp (f32WithSign neg (k * 2 ^ 23 + n)) ∧ f32Exp (f32WithSign neg (k * 2 ^ 23 + n)) ≤ 254 ∧
    f32Frac (f32WithSign neg (k * 2 ^ 23 + n)) % 2 = n % 2 ∧
    f32Magnitude (f32WithSign neg (k * 2 ^ 23 + n)) = 2 ^ k * n := by
  have hbits : k * 2 ^ 23 + n < 2 ^ 31 := by omega
  rw [f32Magnitude, f32WithSign_exp neg hbits, f32WithSign_frac neg hbits]
  by_cases hn : n = 2 ^ 24
  · rw [show (k * 2 ^ 23 + n) / 2 ^ 23 = k + 2 by omega, show (k * 2 ^ 23 + n) % 2 ^ 23 = 0 by omega, hn]
    exact ⟨by omega, by omega, rfl, by rw [if_neg (by omega), Nat.add_sub_assoc (by decide), Nat.pow_succ]; ring⟩
  · rw [show (k * 2 ^ 23 + n) / 2 ^ 23 = k + 1 by omega, show (k * 2 ^ 23 + n) % 2 ^ 23 = n - 2 ^ 23 by omega]
    exact ⟨by omega, by omega, by omega,
      by rw [if_neg (by omega), Nat.add_sub_cancel' hlow, Nat.add_sub_cancel, Nat.mul_comm]⟩

/-- A float is a multiple of a power of two, or it has fewer than 24 bits in front of it. -/
theorem f32Magnitude_cases (x : BitVec 32) (k : Nat) : 2 ^ k ∣ f32Magnitude x ∨ f32Magnitude x < 2 ^ 23 * 2 ^ k := by
  unfold f32Magnitude
  split
  · exact .inl (dvd_zero _)
  · by_cases h : k ≤ f32Exp x - 1
    · exact .inl ((pow_dvd_pow 2 h).mul_left _)
    · have hfrac : 2 ^ 23 + f32Frac x < 2 ^ 24 := by rw [f32Frac_eq]; omega
      have hexp : 2 ^ (f32Exp x - 1) * 2 ≤ 2 ^ k := by
        rw [← Nat.pow_succ]
        exact Nat.pow_le_pow_right (by decide) (by omega)
      refine .inr (((Nat.mul_lt_mul_right (Nat.two_pow_pos _)).2 hfrac).trans_le ?_)
      calc 2 ^ 24 * 2 ^ (f32Exp x - 1) = 2 ^ 23 * (2 ^ (f32Exp x - 1) * 2) := by ring
        _ ≤ 2 ^ 23 * 2 ^ k := Nat.mul_le_mul_left _ hexp

/-! ## The sum of finite numbers -/

section
variable {x y : BitVec 32}

theorem faddFtzRn_of_finite (hx : f32Exp x ≠ 255) (hy : f32Exp y ≠ 255) : faddFtzRn x y = f32AddFinite x y := by
  simp [faddFtzRn, f32IsNaN, f32IsInf, hx, hy]

theorem f32AddFinite_of_zero (h : f32Value x + f32Value y = 0) :
    f32AddFinite x y = f32WithSign (Config.faddOpen x y).msb 0 := if_pos h

theorem f32AddFinite_of_subnormal (h0 : f32Value x + f32Value y ≠ 0) (h : (f32Value x + f32Value y).natAbs < 2 ^ 23) :
    f32AddFinite x y = f32WithSign (decide (f32Value x + f32Value y < 0)) 0 := (if_neg h0).trans (if_pos h)

theorem f32AddFinite_of_normal (h : 2 ^ 23 ≤ (f32Value x + f32Value y).natAbs)
    (hr : f32Round (f32Value x + f32Value y).natAbs < 255 * 2 ^ 23) : f32AddFinite x y =
      f32WithSign (decide (f32Value x + f32Value y < 0)) (f32Round (f32Value x + f32Value y).natAbs) :=
  (if_neg (by omega)).trans ((if_neg (by omega)).trans (if_pos hr))

end

theorem f32OpenNaN_isNaN (x y : BitVec 32) : f32IsNaN (f32OpenNaN x y) = true := by
  unfold f32OpenNaN
  split
  · next h => exact h
  · decide

theorem faddFtzRn_of_nan {x y : BitVec 32} (h : f32IsNaN x = true ∨ f32IsNaN y = true) :
    faddFtzRn x y = f32OpenNaN x y := if_pos (by simpa using h)

theorem faddFtzRn_of_opposite_infinities {x y : BitVec 32} (hx : f32IsInf x = true) (hy : f32IsInf y = true)
    (h : x.msb ≠ y.msb) : faddFtzRn x y = f32OpenNaN x y := by
  simp [faddFtzRn, hx, hy, h]

/-! ## Both signs at once -/

/-- A number as seen by one that turns the side of zero where `v` stands up. -/
def onSideOf (v w : Int) : Int := if v < 0 then -w else w

theorem natAbs_sub_onSideOf (v w : Int) : (v - w).natAbs = ((v.natAbs : Int) - onSideOf v w).natAbs := by
  unfold onSideOf
  split <;> omega

theorem onSideOf_inj {v a b : Int} : onSideOf v a = onSideOf v b ↔ a = b := by
  unfold onSideOf
  split <;> omega

theorem onSideOf_f32Value {v : Int} {x : BitVec 32} (h : x.msb = decide (v < 0)) :
    onSideOf v (f32Value x) = f32Magnitude x := by
  unfold onSideOf f32Value
  rw [h]
  split <;> simp [*]

/-- On either side, a float is a multiple of a power of two, or it has fewer than 24 bits in front of it. -/
theorem onSideOf_f32Value_cases (v : Int) (x : BitVec 32) (k : Nat) :
    ((2 ^ k : Nat) : Int) ∣ onSideOf v (f32Value x) ∨ onSideOf v (f32Value x) < (2 ^ 23 * 2 ^ k : Nat) := by
  have hsign : onSideOf v (f32Value x) = f32Magnitude x ∨ onSideOf v (f32Value x) = -(f32Magnitude x : Int) := by
    unfold onSideOf f32Value
    split <;> split <;> simp
  rcases f32Magnitude_cases x k with h | h
  · left
    rcases hsign with hs | hs <;> rw [hs]
    · exact Int.natCast_dvd_natCast.2 h
    · exact (Int.natCast_dvd_natCast.2 h).neg_right
  · right
    omega

/-- Settles O57: the bits spell the magnitude rounded to a multiple of its unit, and every float is a multiple of that
unit or below the multiple that the magnitude reaches. -/
theorem faddRoundsToNearestEven : Obligations.FaddRoundsToNearestEven := by
  intro x y v hx hy hv hlow hmax
  have hround := f32Round_lt hlow hmax
  have hsum : faddFtzRn x y = f32WithSign (decide (v < 0)) (f32Round v.natAbs) := by
    rw [faddFtzRn_of_finite hx hy, hv]
    exact f32AddFinite_of_normal (hv ▸ hlow) (hv ▸ hround)
  obtain ⟨hu, hu'⟩ := f32Units_bounds hlow
  rw [f32Round_eq] at hsum hround
  obtain ⟨hexp, hexp', hfrac, hmag⟩ := f32WithSign_units (decide (v < 0)) hu hu' hround
  have hmsb := f32WithSign_msb (decide (v < 0)) (hround.trans (by decide))
  rw [← hsum] at hexp hexp' hfrac hmag hmsb
  refine ⟨hexp, hexp', hmsb, fun u _ => ?_⟩
  have hvalue : onSideOf v (f32Value (faddFtzRn x y)) = (2 ^ f32Shift v.natAbs : Nat) * (f32Units v.natAbs : Nat) := by
    rw [onSideOf_f32Value hmsb, hmag, Nat.cast_mul]
  have hreach : ((2 ^ 23 * 2 ^ f32Shift v.natAbs : Nat) : Int) ≤
      (2 ^ f32Shift v.natAbs : Nat) * (v.natAbs / 2 ^ f32Shift v.natAbs : Nat) := by
    rw [Nat.mul_comm, ← Nat.cast_mul]
    exact_mod_cast Nat.mul_le_mul_left _ (f32_quotient_bounds hlow).1
  have hother := (onSideOf_f32Value_cases v u (f32Shift v.natAbs)).imp_right fun h => h.trans_le hreach
  obtain ⟨hnear, htie⟩ := roundEven_nearest (Nat.two_pow_pos _) hother
  rw [natAbs_sub_onSideOf v, natAbs_sub_onSideOf v (f32Value u), hvalue]
  exact ⟨hnear, fun he hne => hfrac.trans (htie he fun h => hne (onSideOf_inj.1 (h.trans hvalue.symm)))⟩

/-- Settles O58: which case of the sum applies. -/
theorem faddFlushesAndKeepsNaN : Obligations.FaddFlushesAndKeepsNaN := by
  refine ⟨fun x y v hx hy hv h0 h => ?_, fun x y hx hy h => ?_, fun x y h => ?_, fun x h => ?_⟩
  · rw [faddFtzRn_of_finite hx hy, f32AddFinite_of_subnormal (by omega) (by omega), f32WithSign_zero, hv]
    simp
  · rw [faddFtzRn_of_finite hx hy, f32AddFinite_of_zero h, f32WithSign_zero]
    cases (Config.faddOpen x y).msb
    · exact .inl rfl
    · exact .inr rfl
  · obtain h | h | ⟨hix, hiy, h⟩ := h
    · rw [faddFtzRn_of_nan (.inl h), f32OpenNaN_isNaN]
    · rw [faddFtzRn_of_nan (.inr h), f32OpenNaN_isNaN]
    · rw [faddFtzRn_of_opposite_infinities hix hiy h, f32OpenNaN_isNaN]
  · simp [f32Value, f32Magnitude, h]

end Sys2Proof.Machine
end

section
/-!
PROOFS. What a step leaves of the state where the fetched instruction faults or is refused (`spec/60_exceptions.md`
rules R180 to R182; `spec/10_state.md` rule R41).
-/

namespace Sys2Proof.Machine

open Sys2Proof Sys2Proof.Safety

/-- The word that stands at the thread's `pc` is what it fetches. -/
theorem State.fetch_of_fetches {s : State} {w : InstrWord} (h : fetches s w) : s.fetch = .ok w := by
  obtain ⟨-, hpc, bs, hbytes, rfl⟩ := h
  exact State.fetch_of_bytes hpc hbytes

/-- A stop sets the thread's status and adds one record; every other field is as it was. -/
theorem State.stopThread_eq (s : State) (w : Option InstrWord) (e : Stop) :
    s.stopThread w e = { s with thread := { s.thread with status := e.status }
                                record := ⟨s.index, s.thread.pc, w, e⟩ :: s.record } := rfl

/-- Settles O10: the step is the stop with what `exec` answered. -/
theorem stoppedInstructionChangesNothingElse : Obligations.StoppedInstructionChangesNothingElse := by
  intro s u w i hmoves hfetches hdecode
  obtain ⟨-, hfault, hrefused⟩ := State.stepThread_of_decode (State.fetch_of_fetches hfetches) hdecode
  rw [threadMoves_step hmoves]
  refine ⟨fun r hr => ?_, fun r hr => ?_⟩
  · rw [hfault r hr, State.stopThread_eq, Stop.status]
  · rw [hrefused r hr, State.stopThread_eq, Stop.status]

end Sys2Proof.Machine
end

section
/-!
PROOFS. Where a run ends, why, and with what answer (`spec/70_reset_and_hazards.md` rules R203, R204).
-/

namespace Sys2Proof.Machine

open Sys2Proof Sys2Proof.Safety

/-- An enabled choice gives a next state. -/
theorem step_next_of_enabled {s : State} {c : Choice} (he : s.enabled c = true) : ∃ t, step s = .next t := by
  unfold step
  split
  · next hn => exact absurd (State.nextChoice_eq_none.1 hn c) (by simp [he])
  · exact ⟨_, rfl⟩

/-- Where nothing is enabled, `step` answers with the reason. -/
theorem step_fault_of_disabled {s : State} (hd : ∀ c, s.enabled c = false) : step s = .fault s.endReason := by
  rw [step, State.nextChoice_eq_none.2 hd]

theorem State.finished_iff {s : State} :
    s.finished = true ↔ (∀ t ∈ s.threadList, t.status = .exited) ∧ s.record = [] := by
  simp [State.finished, State.allExited]

theorem State.endReason_of_finished {s : State} (hf : s.finished = true) : s.endReason = .finished := if_pos hf

/-- A record keeps a run whose threads have all stopped from having an answer. -/
theorem State.endReason_of_record {s : State} (hs : ∀ t ∈ s.threadList, t.status.stopped = true)
    (hr : s.record ≠ []) : s.endReason = .noAnswer := by
  have hf : ¬ s.finished = true := fun hf => hr (State.finished_iff.1 hf).2
  rw [State.endReason, if_neg hf, if_pos (List.all_eq_true.2 hs)]

/-- A thread that runs or waits leaves the run stuck: it has neither exited nor stopped otherwise. -/
theorem State.endReason_of_unstopped {s : State} {t : Thread} (ht : t ∈ s.threadList)
    (hs : t.status.stopped = false) : s.endReason = .stuck := by
  have hf : ¬ s.finished = true := fun hf => by
    rw [(State.finished_iff.1 hf).1 t ht] at hs
    exact absurd hs (by decide)
  have hall : ¬ s.threadList.all (fun t => t.status.stopped) = true := fun hall => by
    rw [List.all_eq_true.1 hall t ht] at hs
    cases hs
  rw [State.endReason, if_neg hf, if_neg hall]

theorem State.answer_eq_some_iff {s : State} {m : List Host.Cell} :
    s.answer = some m ↔ s.finished = true ∧ s.gmem = m := by
  simp [State.answer]

/-- Settles O14, by the reason `step` answers with where nothing is enabled. -/
theorem runEndsOnlyWhereNothingIsEnabled : Obligations.RunEndsOnlyWhereNothingIsEnabled := by
  refine ⟨fun s => State.nextChoice_eq_none, fun s c he => step_next_of_enabled he,
    fun s i t ht hr hh => State.enabled_thread ht hr hh, fun s hd => ?_, fun s m => ?_⟩
  · rw [step_fault_of_disabled hd]
    refine ⟨fun hexited hr => ?_, fun hs hr => ?_, fun ⟨t, ht, hs⟩ => ?_⟩
    · rw [State.endReason_of_finished (State.finished_iff.2 ⟨hexited, hr⟩)]
    · rw [State.endReason_of_record hs hr]
    · rw [State.endReason_of_unstopped ht hs]
  · rw [State.answer_eq_some_iff, State.finished_iff, and_assoc]

end Sys2Proof.Machine
end

section
/-!
PROOFS. The words that the spec's test vectors write out (`spec/95_test_vectors.md` section 2.1).
-/

namespace Sys2Proof.Machine

open Sys2Proof

/-- Settles O6: each instruction is well-formed, and `encode` spells it as its word. -/
theorem sourceWordsDecode : Obligations.SourceWordsDecode := by
  simp only [Obligations.SourceWordsDecode, decode_eq_ok_iff_encode]
  decide

end Sys2Proof.Machine
end
